-- ==== Sys2Proof/Word.lean ====
section
/-! DEFINITION. The machine's two data sizes: 16-bit words (00_scope.md R8, R11) and 8-bit bytes. -/

namespace Sys2Proof

/-- A register, an address or an instruction word: 16 bits (R8). Its `+` and `-` wrap modulo 2^16 (R11). -/
abbrev Word := BitVec 16

/-- One byte of a memory space (R51), or an immediate byte (R98). -/
abbrev Byte := BitVec 8

end Sys2Proof
end

