-- ==== Sys2Proof/Config.lean ====
section
/-! DEFINITION. What the spec leaves to the implementation: the launch parameter BITNUM_OOR's three values
(00_scope.md R9) and the free values the spec calls ANY (00_scope.md R15). -/

namespace Sys2Proof

/-- The three treatments of a bit number that is not below the width, in BIT, BIC and BIS (41_arith_logic.md R151,
92_eei_decisions.md D7). The spec's default is `mask`. Log 8. -/
inductive BitNumOor where
  /-- the bit number is taken modulo the width: the spec's own semantics -/
  | mask
  /-- the written low bits, and N and Z from them, are a draw -/
  | any
  /-- the instruction has no meaning in that case -/
  | refuse
  deriving DecidableEq, Repr

/-- The n-th free value of a run: a 16-bit value the spec leaves open (ANY, R15). It has no body, so that nothing can
be proved of its value. The machine draws them in order, by the counter `draws` of State. Log 9. -/
opaque Config.freeWord : Nat → Word

end Sys2Proof
end

