-- ==== Sys2Proof/Syntax.lean ====
section
/-! DEFINITION. The instructions: one constructor of `Instr` per row of spec/opcode_table.json (30_encoding.md R82),
with the operand fields of a decoded instruction (10_state.md R37). An offset is carried as R37 says: already
sign-extended to 16 bits, and a branch offset already scaled. -/

namespace Sys2Proof

/-- The mode W/B of an instruction: word (WB = 0) or byte (WB = 1) (00_scope.md R13). -/
inductive Width where
  | word
  | byte
  deriving DecidableEq, Repr

/-- The bank-0 registers, R4 to R7 by their aliases (10_state.md R20, 00_scope.md R18). -/
inductive Reg where
  | r0
  | r1
  | r2
  | r3
  | bp
  | lr
  | sp
  | pc
  deriving DecidableEq, Repr

/-- An index into the constant bank (10_state.md R24). -/
abbrev ConstIdx := Fin 8

/-- The source operand of a two-operand arithmetic or logic instruction: the R/C bit and SRC together (10_state.md R25).
-/
inductive Source where
  /-- RC = 0: bank-0 register SRC -/
  | reg (r : Reg)
  /-- RC = 1: constant-bank entry SRC -/
  | const (k : ConstIdx)
  deriving DecidableEq, Repr

/-- The instructions, in the order of spec/opcode_table.json. Operands: `src` source, `dst` destination, `wb` mode,
`off` signed offset in bytes, `imm` immediate byte, `mask5` flag mask (bit 4 V, 3 SLP, 2 N, 1 Z, 0 C),
`prpo`, `dec`, `inc` the addressing-mode bits. -/
inductive Instr where
  | bl (off : Word)
  | beq (off : Word)
  | bne (off : Word)
  | bc (off : Word)
  | bnc (off : Word)
  | bn (off : Word)
  | bge (off : Word)
  | blt (off : Word)
  | bra (off : Word)
  | add (src : Source) (dst : Reg) (wb : Width)
  | addc (src : Source) (dst : Reg) (wb : Width)
  | sub (src : Source) (dst : Reg) (wb : Width)
  | subc (src : Source) (dst : Reg) (wb : Width)
  | dadd (src : Source) (dst : Reg) (wb : Width)
  | cmp (src : Source) (dst : Reg) (wb : Width)
  | xor (src : Source) (dst : Reg) (wb : Width)
  | and (src : Source) (dst : Reg) (wb : Width)
  | or (src : Source) (dst : Reg) (wb : Width)
  | bit (src : Source) (dst : Reg) (wb : Width)
  | bic (src : Source) (dst : Reg) (wb : Width)
  | bis (src : Source) (dst : Reg) (wb : Width)
  /-- the decoded no-op: the words of ADD with DST = 7, whose RC, WB and SRC fields it keeps (30_encoding.md R85) -/
  | nop (src : Source) (wb : Width)
  | mov (src : Reg) (dst : Reg) (wb : Width)
  | swap (src : Reg) (dst : Reg)
  | sra (dst : Reg) (wb : Width)
  | rrc (dst : Reg) (wb : Width)
  | swpb (dst : Reg)
  | sxt (dst : Reg)
  | setcc (mask5 : BitVec 5)
  | clrcc (mask5 : BitVec 5)
  /-- `src` is the address register (30_encoding.md R92) -/
  | ld (prpo dec inc : Bool) (src : Reg) (dst : Reg) (wb : Width)
  /-- `src` is the data register and `dst` the address register (R92) -/
  | st (prpo dec inc : Bool) (src : Reg) (dst : Reg) (wb : Width)
  | movl (imm : Byte) (dst : Reg)
  | movlz (imm : Byte) (dst : Reg)
  | movls (imm : Byte) (dst : Reg)
  | movh (imm : Byte) (dst : Reg)
  /-- `src` is the base register (30_encoding.md R94) -/
  | ldr (off : Word) (src : Reg) (dst : Reg) (wb : Width)
  /-- `src` is the data register and `dst` the base register (R94) -/
  | str (off : Word) (src : Reg) (dst : Reg) (wb : Width)
  deriving DecidableEq, Repr

end Sys2Proof
end

