-- ==== Sys2Proof/WellFormed.lean ====
section
/-! DEFINITION. Which terms of `Instr` stand for an instruction word: the offset ranges of 30_encoding.md R95 to R97
("Decode gives back the displacement exactly when it lies in the range of rules R95 to R97 and, for a branch, is even",
R104), and no ADD with destination PC, whose words are NOP's (R85). -/

namespace Sys2Proof

/-- BL's offset: even, from -8192 to +8190 (R95). -/
def blOffsetOk (off : Word) : Bool :=
  off.toNat % 2 == 0 && decide (-8192 ≤ off.toInt) && decide (off.toInt ≤ 8190)

/-- A conditional branch's offset: even, from -1024 to +1022 (R96). -/
def branchOffsetOk (off : Word) : Bool :=
  off.toNat % 2 == 0 && decide (-1024 ≤ off.toInt) && decide (off.toInt ≤ 1022)

/-- LDR's and STR's offset: from -64 to +63, not scaled (R97). -/
def relOffsetOk (off : Word) : Bool :=
  decide (-64 ≤ off.toInt) && decide (off.toInt ≤ 63)

/-- The instruction has an encoding of its own. -/
def Instr.wellFormed : Instr → Bool
  | .bl off => blOffsetOk off
  | .beq off | .bne off | .bc off | .bnc off | .bn off | .bge off | .blt off | .bra off => branchOffsetOk off
  | .add _ dst _ => dst != .pc
  | .addc _ _ _ | .sub _ _ _ | .subc _ _ _ | .dadd _ _ _ | .cmp _ _ _ => true
  | .xor _ _ _ | .and _ _ _ | .or _ _ _ | .bit _ _ _ | .bic _ _ _ | .bis _ _ _ => true
  | .nop _ _ | .mov _ _ _ | .swap _ _ | .sra _ _ | .rrc _ _ | .swpb _ | .sxt _ => true
  | .setcc _ | .clrcc _ => true
  | .ld _ _ _ _ _ _ | .st _ _ _ _ _ _ => true
  | .movl _ _ | .movlz _ _ | .movls _ _ | .movh _ _ => true
  | .ldr off _ _ _ | .str off _ _ _ => relOffsetOk off

end Sys2Proof
end

