-- ==== Sys2Proof/Decode.lean ====
section
/-! DEFINITION. The decoder (30_encoding.md R83, a total function in the source's decision order), and after it the
encoder, written from the format tables R86 to R94. Log 16. -/

namespace Sys2Proof

/-- What a 16-bit word decodes to: an instruction, or UNRECOGNIZED with the raw word (R84). -/
inductive Decoded where
  | instr (i : Instr)
  | unrecognized (word : Word)
  deriving DecidableEq, Repr

/-- Bank-0 register of a 3-bit index (R100, 10_state.md R20). -/
def Reg.ofBits : BitVec 3 → Reg
  | 0b000#3 => .r0
  | 0b001#3 => .r1
  | 0b010#3 => .r2
  | 0b011#3 => .r3
  | 0b100#3 => .bp
  | 0b101#3 => .lr
  | 0b110#3 => .sp
  | _ => .pc

/-- The 3-bit index of a bank-0 register (10_state.md R20, 00_scope.md R18). -/
def Reg.toBits : Reg → BitVec 3
  | .r0 => 0b000#3
  | .r1 => 0b001#3
  | .r2 => 0b010#3
  | .r3 => 0b011#3
  | .bp => 0b100#3
  | .lr => 0b101#3
  | .sp => 0b110#3
  | .pc => 0b111#3

/-- WB = 1 means byte (R100). -/
def Width.ofBit (wb : Bool) : Width := if wb then .byte else .word

/-- The WB bit of a mode (R100). -/
def Width.toBit : Width → BitVec 1
  | .word => 0#1
  | .byte => 1#1

/-- The field `v[lo+len-1 : lo]` of a word (00_scope.md R10). -/
def field (iw : Word) (lo len : Nat) : BitVec len := iw.extractLsb' lo len

/-- The bit `v[k]` of a word (R10). -/
def bitAt (iw : Word) (k : Nat) : Bool := iw.getLsbD k

/-- DST = IW[2:0] (R100). -/
def dstField (iw : Word) : Reg := Reg.ofBits (field iw 0 3)

/-- SRC = IW[5:3] as a bank-0 register (R100). -/
def srcField (iw : Word) : Reg := Reg.ofBits (field iw 3 3)

/-- WB = IW[6] (R100). -/
def wbField (iw : Word) : Width := Width.ofBit (bitAt iw 6)

/-- RC = IW[7] with SRC = IW[5:3]: RC = 1 is the constant bank (R100, 10_state.md R25). -/
def sourceField (iw : Word) : Source :=
  if bitAt iw 7 then .const (field iw 3 3).toFin else .reg (srcField iw)

/-- imm8 = IW[10:3] (R98). -/
def immField (iw : Word) : Byte := field iw 3 8

/-- `sext_13(IW[12:0]) << 1` (R95). -/
def off13Field (iw : Word) : Word := (field iw 0 13).signExtend 16 <<< 1

/-- `sext_10(IW[9:0]) << 1` (R96). -/
def off10Field (iw : Word) : Word := (field iw 0 10).signExtend 16 <<< 1

/-- `sext_7(IW[13:7])`, not scaled (R97, R94). -/
def off7Field (iw : Word) : Word := (field iw 7 7).signExtend 16

/-- Format F2: the condition field IW[12:10] (R87). -/
def decodeBranch (iw : Word) : Decoded :=
  match field iw 10 3 with
  | 0b000#3 => .instr (.beq (off10Field iw))
  | 0b001#3 => .instr (.bne (off10Field iw))
  | 0b010#3 => .instr (.bc (off10Field iw))
  | 0b011#3 => .instr (.bnc (off10Field iw))
  | 0b100#3 => .instr (.bn (off10Field iw))
  | 0b101#3 => .instr (.bge (off10Field iw))
  | 0b110#3 => .instr (.blt (off10Field iw))
  | _ => .instr (.bra (off10Field iw))

/-- The ADD row: NOP where IW[2:0] = 7 (R85). -/
def decodeAdd (iw : Word) : Decoded :=
  if field iw 0 3 = 7#3 then .instr (.nop (sourceField iw) (wbField iw))
  else .instr (.add (sourceField iw) (dstField iw) (wbField iw))

/-- Format F4, sub-opcode 01100: MOV and SWAP (R83, R89). -/
def decodeMove (iw : Word) : Decoded :=
  if bitAt iw 7 then
    if bitAt iw 6 then .unrecognized iw else .instr (.swap (srcField iw) (dstField iw))
  else .instr (.mov (srcField iw) (dstField iw) (wbField iw))

/-- Format F5: the selector IW[5:3]; SWPB and SXT need IW[6] = 0 (R83, R90). -/
def decodeShift (iw : Word) : Decoded :=
  match field iw 3 3 with
  | 0b000#3 => .instr (.sra (dstField iw) (wbField iw))
  | 0b001#3 => .instr (.rrc (dstField iw) (wbField iw))
  | 0b011#3 => if bitAt iw 6 then .unrecognized iw else .instr (.swpb (dstField iw))
  | 0b100#3 => if bitAt iw 6 then .unrecognized iw else .instr (.sxt (dstField iw))
  | _ => .unrecognized iw

/-- Format F6: the selector IW[6:5] (R83, R91); mask5 = IW[4:0] (R99). -/
def decodeFlagOp (iw : Word) : Decoded :=
  match field iw 5 2 with
  | 0b01#2 => .instr (.setcc (field iw 0 5))
  | 0b10#2 => .instr (.clrcc (field iw 0 5))
  | _ => .unrecognized iw

/-- IW[15:12] = 0100: the sub-opcode IW[11:8] (R83, R88). -/
def decodeAlu (iw : Word) : Decoded :=
  match field iw 8 4 with
  | 0b0000#4 => decodeAdd iw
  | 0b0001#4 => .instr (.addc (sourceField iw) (dstField iw) (wbField iw))
  | 0b0010#4 => .instr (.sub (sourceField iw) (dstField iw) (wbField iw))
  | 0b0011#4 => .instr (.subc (sourceField iw) (dstField iw) (wbField iw))
  | 0b0100#4 => .instr (.dadd (sourceField iw) (dstField iw) (wbField iw))
  | 0b0101#4 => .instr (.cmp (sourceField iw) (dstField iw) (wbField iw))
  | 0b0110#4 => .instr (.xor (sourceField iw) (dstField iw) (wbField iw))
  | 0b0111#4 => .instr (.and (sourceField iw) (dstField iw) (wbField iw))
  | 0b1000#4 => .instr (.or (sourceField iw) (dstField iw) (wbField iw))
  | 0b1001#4 => .instr (.bit (sourceField iw) (dstField iw) (wbField iw))
  | 0b1010#4 => .instr (.bic (sourceField iw) (dstField iw) (wbField iw))
  | 0b1011#4 => .instr (.bis (sourceField iw) (dstField iw) (wbField iw))
  | 0b1100#4 => decodeMove iw
  | 0b1101#4 => if bitAt iw 7 then decodeFlagOp iw else decodeShift iw
  | _ => .unrecognized iw

/-- IW[15:12] = 0101: LD, ST or UNRECOGNIZED by IW[11:10] (R83, R92). -/
def decodeIndirect (iw : Word) : Decoded :=
  match field iw 10 2 with
  | 0b10#2 =>
    .instr (.ld (bitAt iw 9) (bitAt iw 8) (bitAt iw 7) (srcField iw) (dstField iw) (wbField iw))
  | 0b11#2 =>
    .instr (.st (bitAt iw 9) (bitAt iw 8) (bitAt iw 7) (srcField iw) (dstField iw) (wbField iw))
  | _ => .unrecognized iw

/-- Format F8: OP2 = IW[12:11] (R83, R93). -/
def decodeImmediate (iw : Word) : Decoded :=
  match field iw 11 2 with
  | 0b00#2 => .instr (.movl (immField iw) (dstField iw))
  | 0b01#2 => .instr (.movlz (immField iw) (dstField iw))
  | 0b10#2 => .instr (.movls (immField iw) (dstField iw))
  | _ => .instr (.movh (immField iw) (dstField iw))

/-- Format F9: IW[14] = 0 is LDR (R83, R94). -/
def decodeRelative (iw : Word) : Decoded :=
  if bitAt iw 14 then .instr (.str (off7Field iw) (srcField iw) (dstField iw) (wbField iw))
  else .instr (.ldr (off7Field iw) (srcField iw) (dstField iw) (wbField iw))

/-- The decoder (R83): LDR and STR first, by the top bit, then the family IW[15:13]. -/
def decode (iw : Word) : Decoded :=
  if bitAt iw 15 then decodeRelative iw
  else
    match field iw 13 2 with
    | 0b00#2 => .instr (.bl (off13Field iw))
    | 0b01#2 => decodeBranch iw
    | 0b10#2 => if bitAt iw 12 then decodeIndirect iw else decodeAlu iw
    | _ => decodeImmediate iw

/-- The word at the head of a byte list, low byte first (20_memory.md R54). -/
def wordOfBytes (lo hi : Byte) : Word := hi ++ lo

/-- What a list of bytes decodes to. -/
inductive BytesDecoded where
  /-- the first word's decoding and the bytes after it -/
  | decoded (d : Decoded) (rest : List Byte)
  /-- fewer than two bytes: no instruction word (R80) -/
  | truncated (bytes : List Byte)
  deriving DecidableEq, Repr

/-- Decode the first instruction of a byte list: every instruction is exactly one 16-bit word (R80). -/
def decodeBytes : List Byte → BytesDecoded
  | lo :: hi :: rest => .decoded (decode (wordOfBytes lo hi)) rest
  | bs => .truncated bs

/-- The bits a table word gives: `nbits` of them, every bit above them 0, up to the 16 of an instruction (R80). -/
def tableWord (nbits w : Nat) : Word := BitVec.ofNat 16 (w % 2 ^ nbits)

/-- The instruction the decoder reads from a table word, laid out in memory order, low byte first (R54). -/
def decodeTableWord (nbits w : Nat) : Option Instr :=
  match decodeBytes [(tableWord nbits w).extractLsb' 0 8, (tableWord nbits w).extractLsb' 8 8] with
  | .decoded (.instr i) _ => some i
  | _ => none

/-! The encoder. -/

/-- The RC bit of a source operand (R100). -/
def Source.rcBit : Source → BitVec 1
  | .reg _ => 0#1
  | .const _ => 1#1

/-- The SRC field of a source operand (R100). -/
def Source.index : Source → BitVec 3
  | .reg r => r.toBits
  | .const k => BitVec.ofFin k

/-- One mode bit. -/
def bitOf (b : Bool) : BitVec 1 := BitVec.ofBool b

/-- The fields of a format, put together, as an instruction word: they are 16 bits in all (R80). -/
def asWord {n : Nat} (v : BitVec n) (h : n = 16) : Word := v.cast h

/-- Format F1 (R86): 000 and the displacement divided by 2 in 13 bits (R104). -/
def encodeF1 (off : Word) : Word := asWord (0b000#3 ++ off.extractLsb' 1 13) (by decide)

/-- Format F2 (R87): 001, COND, and the displacement divided by 2 in 10 bits (R104). -/
def encodeF2 (cond : BitVec 3) (off : Word) : Word :=
  asWord (0b001#3 ++ cond ++ off.extractLsb' 1 10) (by decide)

/-- Format F3 (R88): 0100, OPC, RC, WB, SRC, DST. -/
def encodeF3 (opc : BitVec 4) (src : Source) (dst : Reg) (wb : Width) : Word :=
  asWord (0b0100#4 ++ opc ++ src.rcBit ++ wb.toBit ++ src.index ++ dst.toBits) (by decide)

/-- Format F4 (R89): 01001100, bit 7, bit 6, SRC, DST. -/
def encodeF4 (bit7 bit6 : BitVec 1) (src dst : Reg) : Word :=
  asWord (0b01001100#8 ++ bit7 ++ bit6 ++ src.toBits ++ dst.toBits) (by decide)

/-- Format F5 (R90): 010011010, bit 6, the selector, DST. -/
def encodeF5 (sel : BitVec 3) (bit6 : BitVec 1) (dst : Reg) : Word :=
  asWord (0b010011010#9 ++ bit6 ++ sel ++ dst.toBits) (by decide)

/-- Format F6 (R91): 010011011, the selector, MASK5. -/
def encodeF6 (sel : BitVec 2) (mask5 : BitVec 5) : Word := asWord (0b010011011#9 ++ sel ++ mask5) (by decide)

/-- Format F7 (R92): 01011, load or store, PRPO, DEC, INC, WB, SRC, DST. -/
def encodeF7 (store : BitVec 1) (prpo dec inc : Bool) (src dst : Reg) (wb : Width) : Word :=
  asWord (0b01011#5 ++ store ++ bitOf prpo ++ bitOf dec ++ bitOf inc ++ wb.toBit ++ src.toBits ++ dst.toBits)
    (by decide)

/-- Format F8 (R93): 011, OP2, IMM8, DST. -/
def encodeF8 (op2 : BitVec 2) (imm : Byte) (dst : Reg) : Word :=
  asWord (0b011#3 ++ op2 ++ imm ++ dst.toBits) (by decide)

/-- Format F9 (R94): 1, load or store, OFF7, WB, SRC, DST. -/
def encodeF9 (store : BitVec 1) (off : Word) (src dst : Reg) (wb : Width) : Word :=
  asWord (1#1 ++ store ++ off.extractLsb' 0 7 ++ wb.toBit ++ src.toBits ++ dst.toBits) (by decide)

/-- The word of an instruction, by the formats R86 to R94. -/
def encode : Instr → Word
  | .bl off => encodeF1 off
  | .beq off => encodeF2 0b000#3 off
  | .bne off => encodeF2 0b001#3 off
  | .bc off => encodeF2 0b010#3 off
  | .bnc off => encodeF2 0b011#3 off
  | .bn off => encodeF2 0b100#3 off
  | .bge off => encodeF2 0b101#3 off
  | .blt off => encodeF2 0b110#3 off
  | .bra off => encodeF2 0b111#3 off
  | .add src dst wb => encodeF3 0b0000#4 src dst wb
  | .addc src dst wb => encodeF3 0b0001#4 src dst wb
  | .sub src dst wb => encodeF3 0b0010#4 src dst wb
  | .subc src dst wb => encodeF3 0b0011#4 src dst wb
  | .dadd src dst wb => encodeF3 0b0100#4 src dst wb
  | .cmp src dst wb => encodeF3 0b0101#4 src dst wb
  | .xor src dst wb => encodeF3 0b0110#4 src dst wb
  | .and src dst wb => encodeF3 0b0111#4 src dst wb
  | .or src dst wb => encodeF3 0b1000#4 src dst wb
  | .bit src dst wb => encodeF3 0b1001#4 src dst wb
  | .bic src dst wb => encodeF3 0b1010#4 src dst wb
  | .bis src dst wb => encodeF3 0b1011#4 src dst wb
  | .nop src wb => encodeF3 0b0000#4 src .pc wb
  | .mov src dst wb => encodeF4 0#1 wb.toBit src dst
  | .swap src dst => encodeF4 1#1 0#1 src dst
  | .sra dst wb => encodeF5 0b000#3 wb.toBit dst
  | .rrc dst wb => encodeF5 0b001#3 wb.toBit dst
  | .swpb dst => encodeF5 0b011#3 0#1 dst
  | .sxt dst => encodeF5 0b100#3 0#1 dst
  | .setcc mask5 => encodeF6 0b01#2 mask5
  | .clrcc mask5 => encodeF6 0b10#2 mask5
  | .ld prpo dec inc src dst wb => encodeF7 0#1 prpo dec inc src dst wb
  | .st prpo dec inc src dst wb => encodeF7 1#1 prpo dec inc src dst wb
  | .movl imm dst => encodeF8 0b00#2 imm dst
  | .movlz imm dst => encodeF8 0b01#2 imm dst
  | .movls imm dst => encodeF8 0b10#2 imm dst
  | .movh imm dst => encodeF8 0b11#2 imm dst
  | .ldr off src dst wb => encodeF9 0#1 off src dst wb
  | .str off src dst wb => encodeF9 1#1 off src dst wb

end Sys2Proof
end

