-- ==== Sys2Proof/Machine/State.lean ====
section
/-! DEFINITION. The machine's state, everything 10_state.md and 20_memory.md give it, as plain data; the reasons a run
can stop; and the state after reset (10_state.md R40). -/

namespace Sys2Proof.Machine

/-- The two memory spaces: instruction (I) and data (D) (20_memory.md R50). -/
inductive Space where
  | instruction
  | data
  deriving DecidableEq, Repr

/-- A memory space: its non-zero bytes as (address, byte) pairs, addresses strictly rising. A byte that is not listed
holds 0x00 (R52). Its operations are in Machine/Ops.lean. Log 7. -/
abbrev Memory := List Host.Cell

/-- Register bank 0 (10_state.md R20, R21). -/
structure Regs where
  r0 : Word
  r1 : Word
  r2 : Word
  r3 : Word
  bp : Word
  lr : Word
  sp : Word
  pc : Word
  deriving DecidableEq, Repr

/-- The status word, a record of fields: it has no packed layout (10_state.md R28, 92_eei_decisions.md D32). -/
structure Psw where
  /-- carry -/
  c : Bool
  /-- zero -/
  z : Bool
  /-- negative -/
  n : Bool
  /-- overflow -/
  v : Bool
  /-- sleep -/
  slp : Bool
  /-- current priority -/
  cpri : BitVec 3
  /-- previous priority -/
  ppri : BitVec 3
  /-- fault bit -/
  flt : Bool
  deriving DecidableEq, Repr

/-- The instruction register: the injected no-op, or the word FETCH2 brought in and its address (R36). -/
inductive Ir where
  | bubble
  | word (word addr : Word)
  deriving DecidableEq, Repr

/-- The currently decoded instruction with its address (R36, R37): the injected NOP is the one without an address
(R321, R324). Log 13. -/
inductive Di where
  | injectedNop
  | fetched (decoded : Decoded) (addr : Word)
  deriving DecidableEq, Repr

/-- What a pending transfer does: a load into `dst`, or a store of the data latched at EXEC1 (R38). -/
inductive Transfer where
  | load (dst : Reg)
  | store (data : Word)
  deriving DecidableEq, Repr

/-- A pending transfer, mem2 (R38): the effective address, the bus transfer, and the deferred adjustment of post-mode
LD and ST, a register and a signed step. Its control code is `Pending.ctrl` of Machine/Ops.lean. Log 14. -/
structure Pending where
  ea : Word
  wb : Width
  kind : Transfer
  post : Option (Reg × Word)
  deriving DecidableEq, Repr

/-- Everything the CORE holds between ticks. -/
structure State where
  /-- bank 0 (R20) -/
  regs : Regs
  /-- the status word (R28) -/
  psw : Psw
  /-- the instruction space (R50) -/
  imem : Memory
  /-- the data space (R50) -/
  dmem : Memory
  /-- instruction address register (R36) -/
  imar : Word
  /-- instruction register (R36) -/
  ir : Ir
  /-- currently decoded instruction (R36) -/
  di : Di
  /-- pending transfer (R36, R38) -/
  mem2 : Option Pending
  /-- decode-bubble pending (R36) -/
  dbub : Bool
  /-- execute-bubble pending (R36) -/
  xbub : Bool
  /-- clock counter, without a width limit (R331) -/
  clk : Nat
  /-- address of the most recently retired instruction (R36, R330) -/
  retired : Option Word
  /-- the breakpoint address (R36, R302) -/
  bkpt : Option Word
  /-- set when a breakpoint matches (R36, R330) -/
  halted : Bool
  /-- the launch parameter BITNUM_OOR, fixed for a run (R9, R151). Log 8. -/
  bitnumOor : BitNumOor
  /-- the model's own: the output `unrecognized(word, addr)` of the last tick (R224, R332). Log 12. -/
  signal : Option (Word × Word)
  /-- the model's own: how many free values (ANY, R15) the run has drawn. Log 9. -/
  draws : Nat
  deriving DecidableEq, Repr

/-- Why an access stops. The CORE has no exceptions (60_exceptions.md R286): no step of the machine answers a fault. -/
inductive Fault where
  /-- An accessor call of the host with a register index, memory address or space that does not exist (R288, R349).
  Raised by the accessors of Machine/Accessors.lean only; nothing changes. Safe: the spec states this error. -/
  | outOfRange
  deriving DecidableEq, Repr

/-- Why an instruction is refused. -/
inductive Refusal where
  /-- An instruction without a meaning in this model, by its mnemonic. Raised by exec's refused arms; there is none.
  Safe. -/
  | notModelled (mnemonic : String)
  /-- LD or ST with INC = DEC = 1, raised at EXEC1: the spec's REFUSE (45_load_store.md R256, R305). Safe. Log 11. -/
  | incDecBothSet
  /-- BIT, BIC or BIS with a bit number that is not below the width, under the launch choice BITNUM_OOR = REFUSE only
  (R151). Safe. Log 8. -/
  | bitNumberOutOfRange
  deriving DecidableEq, Repr

/-- All registers zero (R40). Log 4. -/
def Regs.reset : Regs :=
  { r0 := 0#16, r1 := 0#16, r2 := 0#16, r3 := 0#16, bp := 0#16, lr := 0#16, sp := 0#16, pc := 0#16 }

/-- Every field of the status word 0 (R40; the default of the launch parameter initPSW, R9). Log 5. -/
def Psw.reset : Psw :=
  { c := false, z := false, n := false, v := false, slp := false, cpri := 0#3, ppri := 0#3, flt := false }

/-- The state after reset (R40, R310). Logs 4 to 9, 12. -/
def State.reset : State :=
  { regs := Regs.reset
    psw := Psw.reset
    imem := []
    dmem := []
    imar := 0#16
    ir := .bubble
    di := .injectedNop
    mem2 := none
    dbub := false
    xbub := false
    clk := 0
    retired := none
    bkpt := none
    halted := false
    bitnumOor := .mask
    signal := none
    draws := 0 }

end Sys2Proof.Machine
end

