-- ==== Sys2Proof/Machine/Ops.lean ====
section
/-! DEFINITION. The named operations over registers, memory, the bus and the pipeline latches. -/

namespace Sys2Proof.Machine

/-- What executing an instruction's EXEC1, or one tick, answers. -/
abbrev Result := Host.Outcome State Fault Refusal

/-! Width-mode helpers (00_scope.md R13). -/

/-- The number of bits of a mode: 16 or 8. -/
def widthBits : Width → Nat
  | .word => 16
  | .byte => 8

/-- `mask(wb)` (R13). -/
def widthMask : Width → Word
  | .word => 0xFFFF#16
  | .byte => 0x00FF#16

/-- `msb(wb, v)` (R13). -/
def msbOf : Width → Word → Bool
  | .word, v => v.getLsbD 15
  | .byte, v => v.getLsbD 7

/-- `step(wb)` (R13). -/
def widthStep : Width → Word
  | .word => 2#16
  | .byte => 1#16

/-! Registers (10_state.md R20, 00_scope.md R12). -/

/-- `x[r]` of a register file. -/
def Regs.get (f : Regs) : Reg → Word
  | .r0 => f.r0
  | .r1 => f.r1
  | .r2 => f.r2
  | .r3 => f.r3
  | .bp => f.bp
  | .lr => f.lr
  | .sp => f.sp
  | .pc => f.pc

/-- `x[r] <- v` of a register file. No register is hardwired (R21). -/
def Regs.set (f : Regs) (r : Reg) (v : Word) : Regs :=
  match r with
  | .r0 => { f with r0 := v }
  | .r1 => { f with r1 := v }
  | .r2 => { f with r2 := v }
  | .r3 => { f with r3 := v }
  | .bp => { f with bp := v }
  | .lr => { f with lr := v }
  | .sp => { f with sp := v }
  | .pc => { f with pc := v }

/-- `x[r]`; `pc` is `x[7]` (R12). -/
def State.reg (s : State) (r : Reg) : Word := s.regs.get r

/-- `x[r] <- v`. -/
def State.setReg (s : State) (r : Reg) (v : Word) : State := { s with regs := s.regs.set r v }

/-- `wr(d, r, wb)`: in byte mode only the low byte is written, and the high byte of the destination is untouched (R13).
-/
def State.writeDest (s : State) (d : Reg) (r : Word) (wb : Width) : State :=
  match wb with
  | .word => s.setReg d (r &&& 0xFFFF#16)
  | .byte => s.setReg d ((s.reg d &&& 0xFF00#16) ||| (r &&& 0x00FF#16))

/-- Replace the status word. -/
def State.setPsw (s : State) (p : Psw) : State := { s with psw := p }

/-! Memory (20_memory.md R50 to R58). -/

/-- The byte at an address; a byte that is not listed holds 0x00 (R52). -/
def Memory.read : Memory → Nat → Byte
  | [], _ => 0#8
  | (b, v) :: rest, a => if a = b then v else Memory.read rest a

/-- Write one byte, keeping the canonical form: writing 0x00 removes the entry. -/
def Memory.write : Memory → Nat → Byte → Memory
  | [], a, v => if v = 0#8 then [] else [(a, v)]
  | (b, u) :: rest, a, v =>
    if a < b then (if v = 0#8 then (b, u) :: rest else (a, v) :: (b, u) :: rest)
    else if a = b then (if v = 0#8 then rest else (a, v) :: rest)
    else (b, u) :: Memory.write rest a v

/-- The canonical form: addresses strictly rising, each inside the space (R51), and no byte equal to what an unlisted
address reads as. -/
def Memory.wf : Memory → Bool
  | [] => true
  | [(a, v)] => decide (a < 65536) && v != 0#8
  | (a, v) :: (b, u) :: rest => decide (a < b) && v != 0#8 && Memory.wf ((b, u) :: rest)

/-- The byte address a word access uses: `a & 0xFFFE` (R55, R59). -/
def alignWord (a : Word) : Word := a &&& 0xFFFE#16

/-- `MemRead` on one space (R55): little-endian words at even addresses, bytes zero-extended. -/
def Memory.readWidth (m : Memory) (a : Word) : Width → Word
  | .byte => (m.read a.toNat).zeroExtend 16
  | .word => wordOfBytes (m.read (alignWord a).toNat) (m.read ((alignWord a).toNat + 1))

/-- `MemWrite` on one space (R57). -/
def Memory.writeWidth (m : Memory) (a : Word) (wb : Width) (v : Word) : Memory :=
  match wb with
  | .byte => m.write a.toNat (v.extractLsb' 0 8)
  | .word =>
    (m.write (alignWord a).toNat (v.extractLsb' 0 8)).write ((alignWord a).toNat + 1) (v.extractLsb' 8 8)

/-- The memory of a space (R50). -/
def State.space (s : State) : Space → Memory
  | .instruction => s.imem
  | .data => s.dmem

/-- Replace the memory of a space. -/
def State.setSpace (s : State) (sp : Space) (m : Memory) : State :=
  match sp with
  | .instruction => { s with imem := m }
  | .data => { s with dmem := m }

/-- `MemRead(sp, a, wb)` (00_scope.md R14, R55). -/
def State.memRead (s : State) (sp : Space) (a : Word) (wb : Width) : Word := (s.space sp).readWidth a wb

/-- `MemWrite(sp, a, wb, v)` (R14, R57). -/
def State.memWrite (s : State) (sp : Space) (a : Word) (wb : Width) (v : Word) : State :=
  s.setSpace sp ((s.space sp).writeWidth a wb v)

/-! The bus (20_memory.md R56, R58). -/

/-- The 2-bit control code of a transfer: bit 0 is byte, bit 1 is write (R56). -/
def busCode (write : Bool) (wb : Width) : BitVec 2 :=
  match write, wb with
  | false, .word => 0b00#2
  | false, .byte => 0b01#2
  | true, .word => 0b10#2
  | true, .byte => 0b11#2

/-- `transfer(space, address, control, buffer)`: exactly one access. A read answers the new buffer (R58). -/
def State.busTransfer (s : State) (sp : Space) (a : Word) (ctrl : BitVec 2) (buffer : Word) : State × Word :=
  let wb : Width := if ctrl.getLsbD 0 then .byte else .word
  if ctrl.getLsbD 1 then (s.memWrite sp a wb buffer, buffer) else (s, s.memRead sp a wb)

/-- The control code EXEC1 stores for a pending transfer (R38, R56). -/
def Pending.ctrl (p : Pending) : BitVec 2 :=
  match p.kind with
  | .load _ => busCode false p.wb
  | .store _ => busCode true p.wb

/-! Free values (00_scope.md R15, ANY). -/

/-- The next free value, and the state that has drawn it. Log 9. -/
def State.draw (s : State) : Word × State := (Config.freeWord s.draws, { s with draws := s.draws + 1 })

/-! Branches (44_branch.md). -/

/-- The branch base, `pc - 2` (R236). -/
def State.branchBase (s : State) : Word := s.reg .pc - 2#16

/-- A taken branch: `pc <- (pc - 2) + off; dbub <- 1; xbub <- 1` (R239, R249). -/
def State.takeBranch (s : State) (off : Word) : State :=
  { s.setReg .pc (s.branchBase + off) with dbub := true, xbub := true }

/-- The template of every conditional branch: not taken, no state change (R239, R250). -/
def State.branchIf (s : State) (taken : Bool) (off : Word) : State :=
  if taken then s.takeBranch off else s

/-! The tick phases that need no instruction's meaning (70_reset_and_hazards.md). -/

/-- FETCH1 (R322): `imar <- pc; pc <- pc + 2`. -/
def State.fetch1 (s : State) : State :=
  { s.setReg .pc (s.reg .pc + 2#16) with imar := s.reg .pc }

/-- FETCH2 (R325): the word at imar in the instruction space, with its address. -/
def State.fetch2 (s : State) : State :=
  { s with ir := .word (s.memRead .instruction s.imar .word) s.imar }

/-- DECODE (R324). -/
def State.decodePhase (s : State) : State :=
  match s.ir with
  | .bubble => { s with di := .injectedNop }
  | .word w a => { s with di := .fetched (decode w) a }

/-- A post-adjustment, `x[r] <- x[r] + step` (R259). -/
def State.adjust (s : State) (post : Option (Reg × Word)) : State :=
  match post with
  | none => s
  | some (r, step) => s.setReg r (s.reg r + step)

/-- The second phase of a load (R261, R263, R265, R267): read the data space and write the destination, then the
post-adjustment. A post-mode load whose adjusted register is its destination leaves that register ANY (R268). Log 10. -/
def State.finishLoad (s : State) (p : Pending) (dst : Reg) : State :=
  let v := (s.busTransfer .data p.ea p.ctrl 0#16).2
  match p.post with
  | none => s.writeDest dst v p.wb
  | some (r, step) =>
    if r = dst then s.draw.2.setReg dst s.draw.1
    else (s.writeDest dst v p.wb).adjust (some (r, step))

/-- The second phase of a store (R262, R264, R266): write the data latched at EXEC1, then the post-adjustment. -/
def State.finishStore (s : State) (p : Pending) (data : Word) : State :=
  (s.busTransfer .data p.ea p.ctrl data).1.adjust p.post

/-- EXEC2 (R323): perform the pending transfer, if any, and clear it. -/
def State.exec2 (s : State) : State :=
  match s.mem2 with
  | none => s
  | some p =>
    match p.kind with
    | .load dst => { s.finishLoad p dst with mem2 := none }
    | .store data => { s.finishStore p data with mem2 := none }

/-- DBUB-TICK (R321): inject the no-op, clear the decode-bubble. -/
def State.dbubTick (s : State) : State := { s with ir := .bubble, di := .injectedNop, dbub := false }

/-- XBUB-TICK (R327): clear the execute-bubble. -/
def State.xbubTick (s : State) : State := { s with xbub := false }

/-- The fetch address of the decoded instruction, none for the injected NOP (R36). -/
def Di.addr : Di → Option Word
  | .injectedNop => none
  | .fetched _ a => some a

/-- What EXEC1 executes; the injected NOP has no operands, so its fields are of no account (R223). Log 13. -/
def Di.op : Di → Decoded
  | .injectedNop => .instr (.nop (.reg .r0) .word)
  | .fetched d _ => d

/-- RETIRE (R330): `retired`, and the breakpoint comparison. -/
def State.retire (s : State) : State :=
  match s.di.addr with
  | none => s
  | some a =>
    { s with
      retired := some a
      halted := s.halted || decide (s.bkpt = some a) }

/-- An UNRECOGNIZED word at EXEC1 (43_status_ops.md R224): inert, with the observation `unrecognized(word, addr)`. -/
def State.signalUnrecognized (s : State) (word : Word) : State :=
  { s with signal := s.di.addr.map fun a => (word, a) }

/-- The observation is an output of one tick: the next tick begins without it (R224, R332). Log 12. -/
def State.beginTick (s : State) : State := { s with signal := none }

/-- `clk <- clk + 1` (R331). -/
def State.endTick (s : State) : State := { s with clk := s.clk + 1 }

end Sys2Proof.Machine
end

