-- ==== Sys2Proof/Machine/Operands.lean ====
section
/-! DEFINITION. The operand forms: the constant bank, source and destination operands, bit numbers, decimal digits,
and the addressing modes of the load/store unit. -/

namespace Sys2Proof.Machine

/-- The constant bank, bank 1: eight read-only values (10_state.md R24). -/
def constBank (k : ConstIdx) : Word :=
  match k.val with
  | 0 => 0x0000#16
  | 1 => 0x0001#16
  | 2 => 0x0002#16
  | 3 => 0x0004#16
  | 4 => 0x0008#16
  | 5 => 0x0010#16
  | 6 => 0x0020#16
  | _ => 0xFFFF#16

/-- `srcval`: the register or the constant the R/C bit selects (R25). -/
def State.sourceValue (s : State) : Source → Word
  | .reg r => s.reg r
  | .const k => constBank k

/-- `S = srcval & mask(WB)` (41_arith_logic.md R150). -/
def State.sourceOperand (s : State) (src : Source) (wb : Width) : Word := s.sourceValue src &&& widthMask wb

/-- `D = x[DST] & mask(WB)` (R150). -/
def State.destOperand (s : State) (dst : Reg) (wb : Width) : Word := s.reg dst &&& widthMask wb

/-- A Bool as a word, for a carry-in. -/
def carryWord (c : Bool) : Word := if c then 1#16 else 0#16

/-! Bit numbers (R151). -/

/-- `bitnum(S, WB)` under BITNUM_OOR = mask (R151). -/
def bitNumber (src : Word) : Width → Nat
  | .word => (src &&& 0x000F#16).toNat
  | .byte => (src &&& 0x0007#16).toNat

/-- `1 << bitnum(S, WB)`. -/
def bitMask (src : Word) (wb : Width) : Word := 1#16 <<< bitNumber src wb

/-- What BIT, BIC and BIS compute from their operands, under the launch parameter BITNUM_OOR (R151). -/
inductive BitResult where
  /-- the masked result `r` -/
  | value (r : Word)
  /-- the result is a draw (BITNUM_OOR = ANY) -/
  | draw
  /-- the instruction has no meaning (BITNUM_OOR = REFUSE) -/
  | refuse
  deriving DecidableEq, Repr

/-- The result of a bit operation `f` on D and the selected bit (R151, R162 to R164). Log 8. -/
def bitResult (p : BitNumOor) (r : Word) (src : Word) (wb : Width) : BitResult :=
  if src.toNat < widthBits wb then .value r
  else
    match p with
    | .mask => .value r
    | .any => .draw
    | .refuse => .refuse

/-! Decimal addition (R152). -/

/-- One digit: the sum of two nibbles and a carry, less 10 with a carry out when it is 10 or more (R152). -/
def bcdDigit (d s : BitVec 4) (c : Bool) : BitVec 4 × Bool :=
  let t := d.toNat + s.toNat + c.toNat
  if 10 ≤ t then (BitVec.ofNat 4 ((t - 10) % 16), true) else (BitVec.ofNat 4 t, false)

/-- The digits of `n` nibbles from nibble `i` up, the carry going to the next nibble (R152, 90_conflicts.md C10). -/
def bcdChain : (n i : Nat) → (src dst : Word) → (c : Bool) → Word × Bool
  | 0, _, _, _, c => (0#16, c)
  | n + 1, i, src, dst, c =>
    let d := bcdDigit (dst.extractLsb' (4 * i) 4) (src.extractLsb' (4 * i) 4) c
    let rest := bcdChain n (i + 1) src dst d.2
    ((d.1.zeroExtend 16 <<< (4 * i)) ||| rest.1, rest.2)

/-- `bcd(S, D, cin, WB)`: four nibbles in word mode, two in byte mode (R152). -/
def bcdAdd (src dst : Word) (cin : Bool) : Width → Word × Bool
  | .word => bcdChain 4 0 src dst cin
  | .byte => bcdChain 2 0 src dst cin

/-! Addressing modes (45_load_store.md). -/

/-- The step table `STEP[WB][DEC][INC]` (R256); none is REFUSE. -/
def stepTable (wb : Width) (dec inc : Bool) : Option Word :=
  match dec, inc with
  | false, false => some 0#16
  | false, true => some (widthStep wb)
  | true, false => some (-widthStep wb)
  | true, true => none

/-- The register-indirect effective address (R257). -/
def State.indirectEa (s : State) (prpo : Bool) (r : Reg) (step : Word) : Word :=
  if prpo then s.reg r + step else s.reg r

/-- The pre-mode adjustment, written in EXEC1 (R258). -/
def State.preAdjust (s : State) (prpo : Bool) (r : Reg) (step : Word) : State :=
  if prpo then s.setReg r (s.reg r + step) else s

/-- The deferred adjustment EXEC1 records in post-mode (R259). -/
def postAdjustment (prpo : Bool) (r : Reg) (step : Word) : Option (Reg × Word) :=
  if prpo then none else if step = 0#16 then none else some (r, step)

/-- The relative effective address: base register plus the sign-extended offset, in bytes (R260). -/
def State.relativeEa (s : State) (base : Reg) (off : Word) : Word := s.reg base + off

/-- Fill mem2 (R255, R328). -/
def State.setPending (s : State) (p : Pending) : State := { s with mem2 := some p }

end Sys2Proof.Machine
end

