-- ==== Sys2Proof/Machine/Flags.lean ====
section
/-! DEFINITION. The condition-flag engine (40_flags.md): the arithmetic rule with its two truth tables, the logical
rule, RRC's carry, and the direct set and clear of SETCC and CLRCC (43_status_ops.md). -/

namespace Sys2Proof.Machine

/-- The CARRY table, keyed by the top bits of addend, destination and result (R132). -/
def carryTable : (sa sd sr : Bool) → Bool
  | false, false, false => false
  | false, false, true => false
  | false, true, false => true
  | false, true, true => false
  | true, false, false => true
  | true, false, true => false
  | true, true, false => true
  | true, true, true => true

/-- The OVERFLOW table, keyed the same way (R132). -/
def overflowTable : (sa sd sr : Bool) → Bool
  | false, false, false => false
  | false, false, true => true
  | false, true, false => false
  | false, true, true => false
  | true, false, false => false
  | true, false, true => false
  | true, true, false => true
  | true, true, true => false

/-- The arithmetic rule (R131): addend `a`, original destination `d`, result `r`, all masked. -/
def Psw.arith (p : Psw) (wb : Width) (a d r : Word) : Psw :=
  { p with
    c := carryTable (msbOf wb a) (msbOf wb d) (msbOf wb r)
    v := overflowTable (msbOf wb a) (msbOf wb d) (msbOf wb r)
    z := r == 0#16
    n := msbOf wb r }

/-- The logical rule (R133): N and Z; C and V are unchanged. -/
def Psw.logic (p : Psw) (wb : Width) (r : Word) : Psw :=
  { p with n := msbOf wb r, z := r == 0#16 }

/-- RRC's flag: C only (R135). -/
def Psw.setC (p : Psw) (c : Bool) : Psw := { p with c := c }

/-- SETCC's flags (R221), with the sleep interlock: at current priority 7, setting SLP clears it. -/
def Psw.setMask (p : Psw) (mask5 : BitVec 5) : Psw :=
  { p with
    c := p.c || mask5.getLsbD 0
    z := p.z || mask5.getLsbD 1
    n := p.n || mask5.getLsbD 2
    v := p.v || mask5.getLsbD 4
    slp := if mask5.getLsbD 3 then p.cpri != 7#3 else p.slp }

/-- CLRCC's flags (R222). -/
def Psw.clearMask (p : Psw) (mask5 : BitVec 5) : Psw :=
  { p with
    c := p.c && !mask5.getLsbD 0
    z := p.z && !mask5.getLsbD 1
    n := p.n && !mask5.getLsbD 2
    v := p.v && !mask5.getLsbD 4
    slp := p.slp && !mask5.getLsbD 3 }

/-- Write the flags of the arithmetic rule. -/
def State.arithFlags (s : State) (wb : Width) (a d r : Word) : State := s.setPsw (s.psw.arith wb a d r)

/-- Write the flags of the logical rule. -/
def State.logicFlags (s : State) (wb : Width) (r : Word) : State := s.setPsw (s.psw.logic wb r)

end Sys2Proof.Machine
end

