-- ==== Sys2Proof/Machine/Arith.lean ====
section
/-! DEFINITION. EXEC1 of the arithmetic instructions ADD, ADDC, SUB, SUBC, DADD and CMP (41_arith_logic.md R150 to R158).
-/

namespace Sys2Proof.Machine

/-- Write-back and flags of an arithmetic instruction: `wr(DST, r, WB)`, then the arithmetic rule on (a, D, r)
(R150, 40_flags.md R131). -/
def State.arithResult (s : State) (dst : Reg) (wb : Width) (a d r : Word) : State :=
  (s.writeDest dst r wb).arithFlags wb a d r

/-- The complemented source of the subtractions, `(~S) & mask(WB)` (40_flags.md R136). -/
def State.negOperand (s : State) (src : Source) (wb : Width) : Word := ~~~(s.sourceOperand src wb) &&& widthMask wb

/-- ADD (R153). Its words with DST = 7 decode to NOP (30_encoding.md R85). Log 20. -/
def execAdd (src : Source) (dst : Reg) (wb : Width) (s : State) : Result :=
  let a := s.sourceOperand src wb
  let d := s.destOperand dst wb
  .next (s.arithResult dst wb a d ((d + a) &&& widthMask wb))

/-- ADDC (R154). -/
def execAddc (src : Source) (dst : Reg) (wb : Width) (s : State) : Result :=
  let a := s.sourceOperand src wb
  let d := s.destOperand dst wb
  .next (s.arithResult dst wb a d ((d + a + carryWord s.psw.c) &&& widthMask wb))

/-- SUB (R155). -/
def execSub (src : Source) (dst : Reg) (wb : Width) (s : State) : Result :=
  let a := s.negOperand src wb
  let d := s.destOperand dst wb
  .next (s.arithResult dst wb a d ((d + a + 1#16) &&& widthMask wb))

/-- SUBC (R156): the carry-in is psw.C, 1 meaning no borrow. Log 17. -/
def execSubc (src : Source) (dst : Reg) (wb : Width) (s : State) : Result :=
  let a := s.negOperand src wb
  let d := s.destOperand dst wb
  .next (s.arithResult dst wb a d ((d + a + carryWord s.psw.c) &&& widthMask wb))

/-- DADD (R157): the decimal sum, with the flags of the arithmetic rule on (S, D, r); the carry of the nibble chain is
not written (90_conflicts.md C4). -/
def execDadd (src : Source) (dst : Reg) (wb : Width) (s : State) : Result :=
  let a := s.sourceOperand src wb
  let d := s.destOperand dst wb
  .next (s.arithResult dst wb a d (bcdAdd a d s.psw.c wb).1)

/-- CMP (R158): SUB's flags, no register written. -/
def execCmp (src : Source) (dst : Reg) (wb : Width) (s : State) : Result :=
  let a := s.negOperand src wb
  let d := s.destOperand dst wb
  .next (s.arithFlags wb a d ((d + a + 1#16) &&& widthMask wb))

end Sys2Proof.Machine
end

