-- ==== Sys2Proof/Machine/Branch.lean ====
section
/-! DEFINITION. EXEC1 of the branches (44_branch.md R235 to R254) and of SETCC and CLRCC (43_status_ops.md R220 to R222).
A branch reads flags and writes none. -/

namespace Sys2Proof.Machine

/-- BL (R237): LR gets the address of the next word, then the branch is taken. -/
def execBl (off : Word) (s : State) : Result :=
  .next ((s.setReg .lr s.branchBase).takeBranch off)

/-- BEQ (R241). -/
def execBeq (off : Word) (s : State) : Result := .next (s.branchIf s.psw.z off)

/-- BNE (R242). -/
def execBne (off : Word) (s : State) : Result := .next (s.branchIf (!s.psw.z) off)

/-- BC (R243). -/
def execBc (off : Word) (s : State) : Result := .next (s.branchIf s.psw.c off)

/-- BNC (R244). -/
def execBnc (off : Word) (s : State) : Result := .next (s.branchIf (!s.psw.c) off)

/-- BN (R245). -/
def execBn (off : Word) (s : State) : Result := .next (s.branchIf s.psw.n off)

/-- BGE (R246): negative equals overflow. -/
def execBge (off : Word) (s : State) : Result := .next (s.branchIf (s.psw.n == s.psw.v) off)

/-- BLT (R247): negative differs from overflow. -/
def execBlt (off : Word) (s : State) : Result := .next (s.branchIf (s.psw.n != s.psw.v) off)

/-- BRA (R248). -/
def execBra (off : Word) (s : State) : Result := .next (s.branchIf true off)

/-- SETCC (43_status_ops.md R221). -/
def execSetcc (mask5 : BitVec 5) (s : State) : Result := .next (s.setPsw (s.psw.setMask mask5))

/-- CLRCC (43_status_ops.md R222). -/
def execClrcc (mask5 : BitVec 5) (s : State) : Result := .next (s.setPsw (s.psw.clearMask mask5))

end Sys2Proof.Machine
end

