-- ==== Sys2Proof/Machine/LoadStore.lean ====
section
/-! DEFINITION. EXEC1 of LD, ST, LDR and STR (45_load_store.md R261 to R264): the effective address, the pre-adjustment
and the pending transfer. Their second phase is `State.exec2` of Machine/Ops.lean, in the next even tick (R255). -/

namespace Sys2Proof.Machine

/-- LD (R261). INC = DEC = 1 is REFUSE (R256). Log 11. -/
def execLd (prpo dec inc : Bool) (src dst : Reg) (wb : Width) (s : State) : Result :=
  match stepTable wb dec inc with
  | none => .refused .incDecBothSet
  | some step =>
    .next ((s.preAdjust prpo src step).setPending
      { ea := s.indirectEa prpo src step, wb := wb, kind := .load dst, post := postAdjustment prpo src step })

/-- ST (R262): the data is latched before any adjustment. INC = DEC = 1 is REFUSE (R256). Log 11. -/
def execSt (prpo dec inc : Bool) (src dst : Reg) (wb : Width) (s : State) : Result :=
  match stepTable wb dec inc with
  | none => .refused .incDecBothSet
  | some step =>
    .next ((s.preAdjust prpo dst step).setPending
      { ea := s.indirectEa prpo dst step, wb := wb, kind := .store (s.reg src), post := postAdjustment prpo dst step })

/-- LDR (R263): no register side effect in EXEC1. -/
def execLdr (off : Word) (src dst : Reg) (wb : Width) (s : State) : Result :=
  .next (s.setPending { ea := s.relativeEa src off, wb := wb, kind := .load dst, post := none })

/-- STR (R264): no register changes. -/
def execStr (off : Word) (src dst : Reg) (wb : Width) (s : State) : Result :=
  .next (s.setPending { ea := s.relativeEa dst off, wb := wb, kind := .store (s.reg src), post := none })

end Sys2Proof.Machine
end

