-- ==== Sys2Proof/Machine/Logic.lean ====
section
/-! DEFINITION. EXEC1 of the logic and bit instructions XOR, AND, OR, BIT, BIC and BIS (41_arith_logic.md R159 to R164),
and of the decoded NOP (43_status_ops.md R223). -/

namespace Sys2Proof.Machine

/-- Write-back and flags of a logic instruction: `wr(DST, r, WB)`, then the logical rule on r (R150, 40_flags.md R133).
-/
def State.logicResult (s : State) (dst : Reg) (wb : Width) (r : Word) : State :=
  (s.writeDest dst r wb).logicFlags wb r

/-- XOR (R159). -/
def execXor (src : Source) (dst : Reg) (wb : Width) (s : State) : Result :=
  .next (s.logicResult dst wb ((s.destOperand dst wb ^^^ s.sourceOperand src wb) &&& widthMask wb))

/-- AND (R160). -/
def execAnd (src : Source) (dst : Reg) (wb : Width) (s : State) : Result :=
  .next (s.logicResult dst wb ((s.destOperand dst wb &&& s.sourceOperand src wb) &&& widthMask wb))

/-- OR (R161). -/
def execOr (src : Source) (dst : Reg) (wb : Width) (s : State) : Result :=
  .next (s.logicResult dst wb ((s.destOperand dst wb ||| s.sourceOperand src wb) &&& widthMask wb))

/-- A bit instruction whose result is `r` where the bit number is defined: `finish` writes the result and the flags.
Under BITNUM_OOR = ANY an out-of-range bit number makes the result a draw (R151). Log 8. -/
def State.bitInstr (s : State) (src : Source) (wb : Width) (r : Word) (finish : State → Word → State) : Result :=
  match bitResult s.bitnumOor r (s.sourceOperand src wb) wb with
  | .value r => .next (finish s r)
  | .draw => .next (finish s.draw.2 (s.draw.1 &&& widthMask wb))
  | .refuse => .refused .bitNumberOutOfRange

/-- BIT (R162): the flags of the selected bit, no register written. -/
def execBit (src : Source) (dst : Reg) (wb : Width) (s : State) : Result :=
  s.bitInstr src wb (s.destOperand dst wb &&& bitMask (s.sourceOperand src wb) wb)
    fun t r => t.logicFlags wb r

/-- BIC (R163). -/
def execBic (src : Source) (dst : Reg) (wb : Width) (s : State) : Result :=
  s.bitInstr src wb ((s.destOperand dst wb &&& ~~~(bitMask (s.sourceOperand src wb) wb)) &&& widthMask wb)
    fun t r => t.logicResult dst wb r

/-- BIS (R164). -/
def execBis (src : Source) (dst : Reg) (wb : Width) (s : State) : Result :=
  s.bitInstr src wb ((s.destOperand dst wb ||| bitMask (s.sourceOperand src wb) wb) &&& widthMask wb)
    fun t r => t.logicResult dst wb r

/-- NOP (43_status_ops.md R223): nothing, whatever its RC, WB and SRC fields hold (30_encoding.md R85). -/
def execNop (_src : Source) (_wb : Width) (s : State) : Result := .next s

end Sys2Proof.Machine
end

