-- ==== Sys2Proof/Machine/Move.lean ====
section
/-! DEFINITION. EXEC1 of the moves, shifts, extensions and immediate loads (42_move_shift.md R190 to R200). Apart from
RRC's carry none writes a flag. A write of R7 changes the next fetch address without a bubble (R190). -/

namespace Sys2Proof.Machine

/-- MOV (R191). -/
def execMov (src dst : Reg) (wb : Width) (s : State) : Result :=
  .next (s.writeDest dst (s.reg src &&& widthMask wb) wb)

/-- SWAP (R192): the full words of both registers. Log 17. -/
def execSwap (src dst : Reg) (s : State) : Result :=
  .next ((s.setReg src (s.reg dst)).setReg dst (s.reg src))

/-- The top bit of a mode as a mask: 0x8000 or 0x0080 (R193). -/
def topMask : Width → Word
  | .word => 0x8000#16
  | .byte => 0x0080#16

/-- SRA (R193). -/
def execSra (dst : Reg) (wb : Width) (s : State) : Result :=
  let d := s.destOperand dst wb
  .next (s.writeDest dst ((d >>> 1) ||| (d &&& topMask wb)) wb)

/-- RRC (R194): the carry enters at the top, bit 0 becomes the carry; Z, N and V are unchanged (40_flags.md R135). -/
def execRrc (dst : Reg) (wb : Width) (s : State) : Result :=
  let d := s.destOperand dst wb
  .next ((s.writeDest dst ((d >>> 1) ||| (if s.psw.c then topMask wb else 0#16)) wb).setPsw
    (s.psw.setC (d.getLsbD 0)))

/-- SWPB (R195). -/
def execSwpb (dst : Reg) (s : State) : Result :=
  .next (s.setReg dst ((s.reg dst).extractLsb' 0 8 ++ (s.reg dst).extractLsb' 8 8))

/-- SXT (R196): `sext_8(x[DST][7:0])`. -/
def execSxt (dst : Reg) (s : State) : Result :=
  .next (s.setReg dst (((s.reg dst).extractLsb' 0 8).signExtend 16))

/-- MOVL (R197): the low byte; the high byte is kept. Log 17. -/
def execMovl (imm : Byte) (dst : Reg) (s : State) : Result :=
  .next (s.setReg dst ((s.reg dst &&& 0xFF00#16) ||| imm.zeroExtend 16))

/-- MOVLZ (R198): the low byte; the high byte is 0. Log 17. -/
def execMovlz (imm : Byte) (dst : Reg) (s : State) : Result :=
  .next (s.setReg dst (imm.zeroExtend 16))

/-- MOVLS (R199): the low byte; the high byte is 0xFF. Log 17. -/
def execMovls (imm : Byte) (dst : Reg) (s : State) : Result :=
  .next (s.setReg dst (0xFF00#16 ||| imm.zeroExtend 16))

/-- MOVH (R200): the high byte; the low byte is kept. Log 17. -/
def execMovh (imm : Byte) (dst : Reg) (s : State) : Result :=
  .next (s.setReg dst ((imm.zeroExtend 16 <<< 8) ||| (s.reg dst &&& 0x00FF#16)))

end Sys2Proof.Machine
end

