-- ==== Sys2Proof/Machine/Dispatch.lean ====
section
/-! DEFINITION. EXEC1 of the currently decoded instruction (70_reset_and_hazards.md R326): one arm per instruction. -/

namespace Sys2Proof.Machine

def exec (i : Instr) (s : State) : Host.Outcome State Fault Refusal :=
  match i with
  | .bl off => Sys2Proof.Machine.execBl off s
  | .beq off => Sys2Proof.Machine.execBeq off s
  | .bne off => Sys2Proof.Machine.execBne off s
  | .bc off => Sys2Proof.Machine.execBc off s
  | .bnc off => Sys2Proof.Machine.execBnc off s
  | .bn off => Sys2Proof.Machine.execBn off s
  | .bge off => Sys2Proof.Machine.execBge off s
  | .blt off => Sys2Proof.Machine.execBlt off s
  | .bra off => Sys2Proof.Machine.execBra off s
  | .add src dst wb => Sys2Proof.Machine.execAdd src dst wb s
  | .addc src dst wb => Sys2Proof.Machine.execAddc src dst wb s
  | .sub src dst wb => Sys2Proof.Machine.execSub src dst wb s
  | .subc src dst wb => Sys2Proof.Machine.execSubc src dst wb s
  | .dadd src dst wb => Sys2Proof.Machine.execDadd src dst wb s
  | .cmp src dst wb => Sys2Proof.Machine.execCmp src dst wb s
  | .xor src dst wb => Sys2Proof.Machine.execXor src dst wb s
  | .and src dst wb => Sys2Proof.Machine.execAnd src dst wb s
  | .or src dst wb => Sys2Proof.Machine.execOr src dst wb s
  | .bit src dst wb => Sys2Proof.Machine.execBit src dst wb s
  | .bic src dst wb => Sys2Proof.Machine.execBic src dst wb s
  | .bis src dst wb => Sys2Proof.Machine.execBis src dst wb s
  | .nop src wb => Sys2Proof.Machine.execNop src wb s
  | .mov src dst wb => Sys2Proof.Machine.execMov src dst wb s
  | .swap src dst => Sys2Proof.Machine.execSwap src dst s
  | .sra dst wb => Sys2Proof.Machine.execSra dst wb s
  | .rrc dst wb => Sys2Proof.Machine.execRrc dst wb s
  | .swpb dst => Sys2Proof.Machine.execSwpb dst s
  | .sxt dst => Sys2Proof.Machine.execSxt dst s
  | .setcc mask5 => Sys2Proof.Machine.execSetcc mask5 s
  | .clrcc mask5 => Sys2Proof.Machine.execClrcc mask5 s
  | .ld prpo dec inc src dst wb => Sys2Proof.Machine.execLd prpo dec inc src dst wb s
  | .st prpo dec inc src dst wb => Sys2Proof.Machine.execSt prpo dec inc src dst wb s
  | .movl imm dst => Sys2Proof.Machine.execMovl imm dst s
  | .movlz imm dst => Sys2Proof.Machine.execMovlz imm dst s
  | .movls imm dst => Sys2Proof.Machine.execMovls imm dst s
  | .movh imm dst => Sys2Proof.Machine.execMovh imm dst s
  | .ldr off src dst wb => Sys2Proof.Machine.execLdr off src dst wb s
  | .str off src dst wb => Sys2Proof.Machine.execStr off src dst wb s

end Sys2Proof.Machine
end

