-- ==== Sys2Proof/Machine/Sequencer.lean ====
section
/-! DEFINITION. The tick sequencer (70_reset_and_hazards.md R320): `advance()`, one half-cycle. Logs 1, 18. -/

namespace Sys2Proof.Machine

/-- EXEC1 (R326): the currently decoded instruction; an UNRECOGNIZED word is inert (43_status_ops.md R224). -/
def State.exec1 (s : State) : Result :=
  match s.di.op with
  | .instr i => exec i s
  | .unrecognized w => .next (s.signalUnrecognized w)

/-- An even tick: the DBUB-TICK, or FETCH1; EXEC2; DECODE (R320). -/
def State.evenTick (s : State) : State :=
  if s.dbub then s.dbubTick else s.fetch1.exec2.decodePhase

/-- An odd tick: the XBUB-TICK, or FETCH2; EXEC1; RETIRE (R320). -/
def State.oddTick (s : State) : Result :=
  if s.xbub then .next s.xbubTick
  else
    match s.fetch2.exec1 with
    | .next t => .next t.retire
    | .fault f => .fault f
    | .refused r => .refused r

/-- `advance()`: the parity of clk selects the kind of tick, and clk counts it (R320, R331). It does not look at
`halted` (R330). Log 15. -/
def State.advance (s : State) : Result :=
  if s.clk % 2 = 0 then .next s.beginTick.evenTick.endTick
  else
    match s.beginTick.oddTick with
    | .next t => .next t.endTick
    | .fault f => .fault f
    | .refused r => .refused r

/-- The state in which the next tick runs the word `w` as the first instruction of a program at the address in R7: the
word stands in the instruction space there, and the three ticks of R334 that bring a first word to its EXEC1 are
behind (FETCH1 and the empty decode, FETCH2, FETCH1 and the word's DECODE). Log 3. -/
def State.withFirstWord (s : State) (w : Word) : State :=
  { (s.memWrite .instruction (s.reg .pc) .word w).setReg .pc (s.reg .pc + 4#16) with
    imar := s.reg .pc + 2#16
    ir := .word w (s.reg .pc)
    di := .fetched (decode w) (s.reg .pc)
    mem2 := none
    dbub := false
    xbub := false
    clk := 2 * (s.clk / 2) + 3 }

end Sys2Proof.Machine
end

