-- ==== Sys2Proof/Machine/Step.lean ====
section
/-! DEFINITION. One step of the machine is one tick, one call of `advance()` (00_scope.md R16, 60_exceptions.md R303).
Log 1. -/

namespace Sys2Proof.Machine

/-- One tick (70_reset_and_hazards.md R320). -/
def step (s : State) : Host.Outcome State Fault Refusal := s.advance

/-- The state whose next step runs the table word `w` of `nbits` bits. Log 3. -/
def State.withFetchWord (s : State) (nbits w : Nat) : State := s.withFirstWord (tableWord nbits w)

end Sys2Proof.Machine
end

