-- ==== Sys2Proof/Machine/Accessors.lean ====
section
/-! DEFINITION. The host's interface (70_reset_and_hazards.md R349): the accessors, which run between ticks (R350), the
launch of a run (R9, R311) and its end (R352). `advance` is `step`. Logs 21, 22. -/

namespace Sys2Proof.Machine

/-- The bank-0 register of an index, none above 7 (R349). -/
def regOfIndex (i : Nat) : Option Reg := if i < 8 then some (Reg.ofBits (BitVec.ofNat 3 i)) else none

/-- `readReg(i)` (R349). -/
def State.readReg (s : State) (i : Nat) : Except Fault Word :=
  match regOfIndex i with
  | some r => .ok (s.reg r)
  | none => .error .outOfRange

/-- `writeReg(i, v)` (R349); a write of 7 is a non-branch PC write at this boundary (R351). -/
def State.writeReg (s : State) (i : Nat) (v : Word) : Except Fault State :=
  match regOfIndex i with
  | some r => .ok (s.setReg r v)
  | none => .error .outOfRange

/-- `readMem(sp, a)` (R349); `none` stands for a space other than I and D. -/
def State.readMem (s : State) (sp : Option Space) (a : Nat) : Except Fault Byte :=
  match sp with
  | none => .error .outOfRange
  | some sp => if a < 65536 then .ok ((s.space sp).read a) else .error .outOfRange

/-- `writeMem(sp, a, b)` (R349). -/
def State.writeMem (s : State) (sp : Option Space) (a : Nat) (b : Byte) : Except Fault State :=
  match sp with
  | none => .error .outOfRange
  | some sp => if a < 65536 then .ok (s.setSpace sp ((s.space sp).write a b)) else .error .outOfRange

/-- `readFlags()`: all of the status word (R349). -/
def State.readFlags (s : State) : Psw := s.psw

/-- `setBreakpoint(a)`: it also clears halted (R349). -/
def State.setBreakpoint (s : State) (a : Nat) : Except Fault State :=
  if a < 65536 then .ok { s with bkpt := some (BitVec.ofNat 16 a), halted := false } else .error .outOfRange

/-- `clearBreakpoint()`: it also clears halted (R349). -/
def State.clearBreakpoint (s : State) : State := { s with bkpt := none, halted := false }

/-- `lastRetired()` (R349). -/
def State.lastRetired (s : State) : Option Word := s.retired

/-- `isHalted()` (R349). -/
def State.isHalted (s : State) : Bool := s.halted

/-- The launch parameters of a run (00_scope.md R9, R352), with the spec's defaults. -/
structure Launch where
  initPC : Option Word := none
  initPsw : Psw := Psw.reset
  initMemI : List (Word × Byte) := []
  initMemD : List (Word × Byte) := []
  breakpoint : Option Word := none
  bitnumOor : BitNumOor := .mask
  deriving DecidableEq, Repr

/-- Write a loader's bytes, in order, into a memory space. -/
def Memory.load (m : Memory) (image : List (Word × Byte)) : Memory :=
  image.foldl (fun m cell => m.write cell.1.toNat cell.2) m

/-- The state before tick 0 of a run: reset, then the host's writes (R311). A PC the host does not write stays 0. -/
def State.launch (l : Launch) : State :=
  { State.reset with
    regs := Regs.reset.set .pc (l.initPC.getD 0#16)
    psw := l.initPsw
    imem := Memory.load [] l.initMemI
    dmem := Memory.load [] l.initMemD
    bkpt := l.breakpoint
    bitnumOor := l.bitnumOor }

/-- `n` ticks. -/
def runTicks : Nat → State → Result
  | 0, s => .next s
  | n + 1, s =>
    match step s with
    | .next t => runTicks n t
    | .fault f => .fault f
    | .refused r => .refused r

/-- A run to its end, the first tick boundary with halted = 1 (R352), or `n` ticks where it does not come before. -/
def runUntilHalted : Nat → State → Result
  | 0, s => .next s
  | n + 1, s =>
    if s.halted then .next s
    else
      match step s with
      | .next t => runUntilHalted n t
      | .fault f => .fault f
      | .refused r => .refused r

end Sys2Proof.Machine
end

