-- ==== Sys2Proof/Safety.lean ====
section
/-! DEFINITION. What a good state is: the invariants of 70_reset_and_hazards.md R333, the canonical form of the two
memories, and the decoder's promise about the decoded instruction; and the boundaries a claim may speak of. -/

namespace Sys2Proof.Machine

/-- The invariants of R333 at a tick boundary, in its order; the fifth (at most one pending transfer) is the type of
`mem2`. -/
structure PipelineInv (s : State) : Prop where
  /-- R333.1 -/
  odd_dbub : s.clk % 2 = 1 → s.dbub = false
  /-- R333.2 -/
  even_bubbles : s.clk % 2 = 0 → s.dbub = s.xbub
  /-- R333.3 -/
  pending_even : s.mem2 ≠ none → s.clk % 2 = 0 ∧ s.dbub = false
  /-- R333.4 -/
  odd_xbub : s.clk % 2 = 1 → s.xbub = true → s.ir = .bubble ∧ s.di = .injectedNop

/-- Both memories are in canonical form (20_memory.md R51, R52). -/
structure MemoryInv (s : State) : Prop where
  imem_wf : s.imem.wf = true
  dmem_wf : s.dmem.wf = true

/-- The decoded instruction came from the decoder: `di` holds the decoding of some word (R324). -/
def DecodedInv (s : State) : Prop := ∀ d a, s.di = .fetched d a → ∃ w, d = decode w

/-- The machine's invariant at every tick boundary. -/
structure Inv (s : State) : Prop where
  pipeline : PipelineInv s
  memory : MemoryInv s
  decoded : DecodedInv s

/-- The run is over: a breakpoint has matched (R352). A pending transfer may remain. -/
def EndOfRun (s : State) : Prop := s.halted = true

/-- A boundary at which the host may stop a run with every started instruction complete (R353). -/
def CleanBoundary (s : State) : Prop := s.mem2 = none

/-- The next tick executes instruction `i`, fetched from address `a`: an odd tick without an execute-bubble, with `i`
decoded (R320, R326). -/
structure Executes (s : State) (i : Instr) (a : Word) : Prop where
  odd : s.clk % 2 = 1
  no_bubble : s.xbub = false
  decoded : s.di = .fetched (.instr i) a

/-- At an odd boundary: the sequential path (10_state.md R27). The instruction at `a` is decoded, the word after it is
the next to fetch, and R7 reads `a + 4`. -/
structure Sequential (s : State) (a : Word) : Prop where
  odd : s.clk % 2 = 1
  no_bubbles : s.dbub = false ∧ s.xbub = false
  nothing_pending : s.mem2 = none
  decoded : ∃ d, s.di = .fetched d a
  next_fetch : s.imar = a + 2#16
  pc_ahead : s.reg .pc = a + 4#16

end Sys2Proof.Machine
end

