-- ==== Sys2Proof/Certificates/Slice0/Obligations.lean ====
section
/-! DEFINITION. The statements about the model, in the spec's own terms. The helpers of the first part say in numbers
and bits what the rules say; they do not call the meanings. -/

open Sys2Proof Sys2Proof.Machine

namespace Sys2Proof.Statements

/-! Numbers of a mode. -/

/-- 2^16 or 2^8: results are exact modulo this (41_arith_logic.md R165). -/
def modulus : Width → Nat
  | .word => 65536
  | .byte => 256

/-- The operand of a mode as an unsigned number: all 16 bits, or the low byte (R150). -/
def low (wb : Width) (v : Word) : Nat := v.toNat % modulus wb

/-- An unsigned number of the mode as a two's-complement number. -/
def signed (wb : Width) (n : Nat) : Int := if n < modulus wb / 2 then (n : Int) else (n : Int) - (modulus wb : Int)

/-- The destination register after `wr`: the result in the low part, the old high byte above it in byte mode (R13). -/
def merged (wb : Width) (old : Word) (r : Nat) : Nat := old.toNat / modulus wb * modulus wb + r

/-- A flag of the status word by name. -/
inductive Flag where
  | c
  | z
  | n
  | v
  | slp
  deriving DecidableEq, Repr

/-- Read a flag. -/
def flagOf (p : Psw) : Flag → Bool
  | .c => p.c
  | .z => p.z
  | .n => p.n
  | .v => p.v
  | .slp => p.slp

/-- The flags of an exact arithmetic result: C given, V when the exact signed result `i` is outside the signed range,
Z and N from the result `r` of the mode (40_flags.md R131, R137). -/
structure FlagsOf (t : State) (wb : Width) (r : Nat) (carry : Bool) (i : Int) : Prop where
  c : t.psw.c = carry
  v : t.psw.v = decide (i < -((modulus wb : Int) / 2) ∨ (modulus wb : Int) / 2 ≤ i)
  z : t.psw.z = decide (r = 0)
  n : t.psw.n = decide (modulus wb / 2 ≤ r)

/-! What an instruction's EXEC1 may write, from the rules' "Operands" and "Flags" lines. -/

/-- The registers EXEC1 writes. -/
def destRegs : Instr → List Reg
  | .bl _ => [.lr, .pc]
  | .beq _ | .bne _ | .bc _ | .bnc _ | .bn _ | .bge _ | .blt _ | .bra _ => [.pc]
  | .add _ dst _ | .addc _ dst _ | .sub _ dst _ | .subc _ dst _ | .dadd _ dst _ => [dst]
  | .xor _ dst _ | .and _ dst _ | .or _ dst _ | .bic _ dst _ | .bis _ dst _ => [dst]
  | .cmp _ _ _ | .bit _ _ _ | .nop _ _ | .setcc _ | .clrcc _ => []
  | .mov _ dst _ | .sra dst _ | .rrc dst _ | .swpb dst | .sxt dst => [dst]
  | .swap src dst => [src, dst]
  | .movl _ dst | .movlz _ dst | .movls _ dst | .movh _ dst => [dst]
  | .ld prpo _ _ src _ _ => if prpo then [src] else []
  | .st prpo _ _ _ dst _ => if prpo then [dst] else []
  | .ldr _ _ _ _ | .str _ _ _ _ => []

/-- The flags an instruction writes (40_flags.md R130, 43_status_ops.md R221, R222). -/
def flagsWritten : Instr → List Flag
  | .add _ _ _ | .addc _ _ _ | .sub _ _ _ | .subc _ _ _ | .dadd _ _ _ | .cmp _ _ _ => [.c, .z, .n, .v]
  | .xor _ _ _ | .and _ _ _ | .or _ _ _ | .bit _ _ _ | .bic _ _ _ | .bis _ _ _ => [.z, .n]
  | .rrc _ _ => [.c]
  | .setcc m | .clrcc m =>
    (if m.getLsbD 0 then [.c] else []) ++ (if m.getLsbD 1 then [.z] else []) ++ (if m.getLsbD 2 then [.n] else []) ++
      (if m.getLsbD 4 then [.v] else []) ++ (if m.getLsbD 3 then [.slp] else [])
  | .bl _ | .beq _ | .bne _ | .bc _ | .bnc _ | .bn _ | .bge _ | .blt _ | .bra _ => []
  | .nop _ _ | .mov _ _ _ | .swap _ _ | .sra _ _ | .swpb _ | .sxt _ => []
  | .movl _ _ | .movlz _ _ | .movls _ _ | .movh _ _ => []
  | .ld _ _ _ _ _ _ | .st _ _ _ _ _ _ | .ldr _ _ _ _ | .str _ _ _ _ => []

/-- ADD, ADDC, SUB, SUBC, DADD, CMP. -/
def isArithmetic : Instr → Bool
  | .add _ _ _ | .addc _ _ _ | .sub _ _ _ | .subc _ _ _ | .dadd _ _ _ | .cmp _ _ _ => true
  | _ => false

/-- XOR, AND, OR, BIT, BIC, BIS. -/
def isLogic : Instr → Bool
  | .xor _ _ _ | .and _ _ _ | .or _ _ _ | .bit _ _ _ | .bic _ _ _ | .bis _ _ _ => true
  | _ => false

/-- MOV, SWAP, SRA, RRC, SWPB, SXT, the immediate loads, SETCC, CLRCC and NOP: register or flag only. -/
def isMove : Instr → Bool
  | .mov _ _ _ | .swap _ _ | .sra _ _ | .rrc _ _ | .swpb _ | .sxt _ => true
  | .movl _ _ | .movlz _ _ | .movls _ _ | .movh _ _ => true
  | .setcc _ | .clrcc _ | .nop _ _ => true
  | _ => false

/-- BL and the conditional branches. -/
def isBranch : Instr → Bool
  | .bl _ | .beq _ | .bne _ | .bc _ | .bnc _ | .bn _ | .bge _ | .blt _ | .bra _ => true
  | _ => false

/-- The two-phase memory instructions. -/
def isMemory : Instr → Bool
  | .ld _ _ _ _ _ _ | .st _ _ _ _ _ _ | .ldr _ _ _ _ | .str _ _ _ _ => true
  | _ => false

/-- BIT, BIC, BIS. -/
def isBitOp : Instr → Bool
  | .bit _ _ _ | .bic _ _ _ | .bis _ _ _ => true
  | _ => false

/-- What no EXEC1 changes: registers and flags outside the instruction's own, the priority and fault fields, every byte
of both memories, and the fetch, decode, clock, breakpoint and launch state. -/
structure Frame (i : Instr) (s t : State) : Prop where
  regs : ∀ r, r ∉ destRegs i → t.reg r = s.reg r
  flags : ∀ f, f ∉ flagsWritten i → flagOf t.psw f = flagOf s.psw f
  priority : t.psw.cpri = s.psw.cpri ∧ t.psw.ppri = s.psw.ppri ∧ t.psw.flt = s.psw.flt
  memory : ∀ sp a, (t.space sp).read a = (s.space sp).read a
  fetch : t.imar = s.imar ∧ t.ir = s.ir ∧ t.di = s.di
  control : t.clk = s.clk ∧ t.retired = s.retired ∧ t.bkpt = s.bkpt ∧ t.halted = s.halted
  launch : t.bitnumOor = s.bitnumOor ∧ t.signal = s.signal

/-- The condition of a branch (44_branch.md R238, R237): it is taken. -/
def taken (p : Psw) : Instr → Bool
  | .bl _ | .bra _ => true
  | .beq _ => p.z
  | .bne _ => !p.z
  | .bc _ => p.c
  | .bnc _ => !p.c
  | .bn _ => p.n
  | .bge _ => p.n == p.v
  | .blt _ => p.n != p.v
  | _ => false

/-- The displacement of a branch. -/
def branchOffset : Instr → Word
  | .bl off | .beq off | .bne off | .bc off | .bnc off | .bn off | .bge off | .blt off | .bra off => off
  | _ => 0#16

/-- The signed step of a register-indirect access whose bits are not both set (45_load_store.md R256). -/
def signedStep (wb : Width) (dec inc : Bool) : Int :=
  let size : Int := match wb with
    | .word => 2
    | .byte => 1
  if inc then size else if dec then -size else 0

/-- The word a register holds after adding a signed number modulo 2^16 (R11). -/
def plus (v : Word) (k : Int) : Word := v + BitVec.ofInt 16 k

/-- The effective address EXEC1 of a memory instruction computes in a state (45_load_store.md R257, R260). -/
def effectiveAddress (s : State) : Instr → Word
  | .ld prpo dec inc src _ wb => if prpo then plus (s.reg src) (signedStep wb dec inc) else s.reg src
  | .st prpo dec inc _ dst wb => if prpo then plus (s.reg dst) (signedStep wb dec inc) else s.reg dst
  | .ldr off src _ _ => s.reg src + off
  | .str off _ dst _ => s.reg dst + off
  | _ => 0#16

/-- The data register of a word store, none for the other instructions (R262, R264). -/
def wordStoreData : Instr → Option Reg
  | .st _ _ _ src _ .word | .str _ src _ .word => some src
  | _ => none

/-- The destination of a word load, none for the other instructions (R261, R263). -/
def wordLoadDest : Instr → Option Reg
  | .ld _ _ _ _ dst .word | .ldr _ _ dst .word => some dst
  | _ => none

/-- The destination and width of a load, none for the other instructions (R261, R263). -/
def loadDest : Instr → Option (Reg × Width)
  | .ld _ _ _ _ dst wb | .ldr _ _ dst wb => some (dst, wb)
  | _ => none

/-- The forms of LD and ST that are REFUSE (R256, R305). -/
def bothSteps : Instr → Bool
  | .ld _ dec inc _ _ _ | .st _ dec inc _ _ _ => dec && inc
  | _ => false

/-- A post-mode LD that adjusts its own destination, which R268 leaves ANY (log 10: with a step, INC or DEC). -/
def adjustsOwnDest : Instr → Bool
  | .ld prpo dec inc src dst _ => !prpo && (dec || inc) && src == dst
  | _ => false

/-- A pre-mode LD whose address register is its destination: EXEC1 already writes that register (R258). -/
def preAdjustsOwnDest : Instr → Bool
  | .ld prpo _ _ src dst _ => prpo && src == dst
  | _ => false

/-- The even address of a word access (20_memory.md R55). -/
def evenBase (a : Word) : Nat := a.toNat / 2 * 2

/-- What a load of `m` at `ea` leaves in a register that held `old` (R55, R267). -/
def loaded (m : Memory) (ea : Word) (wb : Width) (old : Word) : Nat :=
  match wb with
  | .word => (m.read (evenBase ea)).toNat + 256 * (m.read (evenBase ea + 1)).toNat
  | .byte => old.toNat / 256 * 256 + (m.read ea.toNat).toNat

/-- The byte at address `a` after a store of `data` at `ea` in `m` (R57). -/
def storedByte (m : Memory) (ea : Word) (wb : Width) (data : Word) (a : Nat) : Byte :=
  match wb with
  | .word =>
    if a = evenBase ea then data.extractLsb' 0 8
    else if a = evenBase ea + 1 then data.extractLsb' 8 8 else m.read a
  | .byte => if a = ea.toNat then data.extractLsb' 0 8 else m.read a

/-- The source operand of BIT, BIC and BIS with the mode, none for the other instructions. -/
def bitSource : Instr → Option (Source × Width)
  | .bit src _ wb | .bic src _ wb | .bis src _ wb => some (src, wb)
  | _ => none

/-- The unrecognized words, as the ranges of 30_encoding.md R102. -/
def inUnrecognizedSpace (n : Nat) : Prop :=
  (0x4CC0 ≤ n ∧ n ≤ 0x4CFF) ∨ (0x4D10 ≤ n ∧ n ≤ 0x4D17) ∨ (0x4D28 ≤ n ∧ n ≤ 0x4D3F) ∨ (0x4D50 ≤ n ∧ n ≤ 0x4D7F) ∨
    (0x4D80 ≤ n ∧ n ≤ 0x4D9F) ∨ (0x4DE0 ≤ n ∧ n ≤ 0x4DFF) ∨ (0x4E00 ≤ n ∧ n ≤ 0x4FFF) ∨
    (0x5000 ≤ n ∧ n ≤ 0x53FF) ∨ (0x5400 ≤ n ∧ n ≤ 0x57FF)

/-- A decimal digit in nibble `i`. -/
def digit (v : Word) (i : Nat) : Nat := v.toNat / 16 ^ i % 16

/-- The decimal number of the low `n` nibbles. -/
def decimal (v : Word) : Nat → Nat
  | 0 => 0
  | n + 1 => decimal v n + digit v n * 10 ^ n

/-- 4 or 2: the nibbles of a mode (41_arith_logic.md R152). -/
def nibbles : Width → Nat
  | .word => 4
  | .byte => 2

/-- The values of the constant bank (10_state.md R24). -/
def constants : List Word := [0#16, 1#16, 2#16, 4#16, 8#16, 16#16, 32#16, 0xFFFF#16]

/-- The same two-operand instruction with another source operand, none for the other instructions. -/
def withSource (src : Source) : Instr → Option Instr
  | .add _ d w => some (.add src d w)
  | .addc _ d w => some (.addc src d w)
  | .sub _ d w => some (.sub src d w)
  | .subc _ d w => some (.subc src d w)
  | .dadd _ d w => some (.dadd src d w)
  | .cmp _ d w => some (.cmp src d w)
  | .xor _ d w => some (.xor src d w)
  | .and _ d w => some (.and src d w)
  | .or _ d w => some (.or src d w)
  | .bit _ d w => some (.bit src d w)
  | .bic _ d w => some (.bic src d w)
  | .bis _ d w => some (.bis src d w)
  | _ => none

/-- The bit number BIT, BIC and BIS use where it is defined: the source number modulo the width (R151). -/
def selectedBit (wb : Width) (src : Word) : Nat :=
  match wb with
  | .word => src.toNat % 16
  | .byte => src.toNat % 8

/-- The bit number is below the width (R151). -/
def bitInRange (wb : Width) (src : Word) : Prop :=
  match wb with
  | .word => src.toNat < 16
  | .byte => src.toNat % 256 < 8

/-- The top bit of a mode: 15 or 7 (40_flags.md R131). -/
def topBit : Width → Nat
  | .word => 15
  | .byte => 7

end Sys2Proof.Statements

open Sys2Proof.Statements

/-! Encoding. -/

/-- Words of the spec's vectors decode to the instruction they stand for: one for each family (95_test_vectors.md). -/
def Obligations.SpecVectorWordsDecode : Prop :=
  decode 0x1FFF#16 = .instr (.bl (BitVec.ofInt 16 (-2))) ∧
  decode 0x27FE#16 = .instr (.bne (BitVec.ofInt 16 (-4))) ∧
  decode 0x40B9#16 = .instr (.add (.const 7) .r1 .word) ∧
  decode 0x40FF#16 = .instr (.nop (.const 7) .byte) ∧
  decode 0x4BFF#16 = .instr (.bis (.const 7) .pc .byte) ∧
  decode 0x4C91#16 = .instr (.swap .r2 .r1) ∧
  decode 0x4D48#16 = .instr (.rrc .r0 .byte) ∧
  decode 0x4DB7#16 = .instr (.setcc 0b10111#5) ∧
  decode 0x5F2E#16 = .instr (.st true true false .lr .sp .word) ∧
  decode 0x7FFF#16 = .instr (.movh 0xFF#8 .pc) ∧
  decode 0xBFFF#16 = .instr (.ldr (BitVec.ofInt 16 (-1)) .pc .pc .byte) ∧
  decode 0x4D58#16 = .unrecognized 0x4D58#16

/-- R104: decoding an instruction's word gives back the instruction with all its operand fields exactly when its
displacement is in range and, for a branch, even (and it is no ADD to PC, whose words are NOP's, R85). -/
def Obligations.DecodeOfEncodeGivesInstruction : Prop :=
  ∀ i : Instr, decode (encode i) = .instr i ↔ i.wellFormed = true

/-- R103, R104, the other direction: a word decodes only to a well-formed instruction whose encoding it is, so each word
has one meaning. -/
def Obligations.EncodeOfDecodeGivesWord : Prop :=
  ∀ (iw : Word) (i : Instr), decode iw = .instr i → i.wellFormed = true ∧ encode i = iw

/-- R102: the words that decode to UNRECOGNIZED are exactly those of the nine ranges, and each carries itself. -/
def Obligations.UnrecognizedWordsAreTheListedRanges : Prop :=
  ∀ iw w : Word, decode iw = .unrecognized w ↔ w = iw ∧ inUnrecognizedSpace iw.toNat

/-- R85: a word decodes to NOP exactly when it is an ADD word with destination field 7, and no word decodes to an ADD
with destination PC. -/
def Obligations.AddToPcDecodesToNop : Prop :=
  ∀ iw : Word,
    ((∃ src wb, decode iw = .instr (.nop src wb)) ↔ iw.toNat / 256 = 0x40 ∧ iw.toNat % 8 = 7) ∧
    (∀ src wb, decode iw ≠ .instr (.add src .pc wb))

/-- R95 to R97: the displacement a decoded instruction carries, from the word's own bits: BL's 13 bits and a
conditional branch's 10 bits, signed, times 2; LDR's and STR's 7 bits at 13:7, signed, not scaled. -/
def Obligations.DecodedOffsetsAreSignedFields : Prop :=
  ∀ (iw off : Word),
    (decode iw = .instr (.bl off) →
      off.toInt = 2 * (iw.extractLsb' 0 13).toInt ∧ -8192 ≤ off.toInt ∧ off.toInt ≤ 8190) ∧
    (∀ i, isBranch i = true → (∀ o, i ≠ .bl o) → decode iw = .instr i →
      (branchOffset i).toInt = 2 * (iw.extractLsb' 0 10).toInt ∧
      -1024 ≤ (branchOffset i).toInt ∧ (branchOffset i).toInt ≤ 1022) ∧
    (∀ src dst wb, decode iw = .instr (.ldr off src dst wb) ∨ decode iw = .instr (.str off src dst wb) →
      off.toInt = (iw.extractLsb' 7 7).toInt ∧ -64 ≤ off.toInt ∧ off.toInt ≤ 63)

/-! Arithmetic and logic. -/

/-- R153, R154, R137: ADD and ADDC complete; the result is the exact sum modulo the width, C its carry, V its signed
overflow, Z and N from the result, the high byte kept in byte mode. (ADD with destination PC is no ADD: R85.) -/
def Obligations.AddResults : Prop :=
  ∀ (s : State) (src : Source) (dst : Reg) (wb : Width),
    let d := low wb (s.reg dst)
    let a := low wb (s.sourceValue src)
    let cin := s.psw.c.toNat
    (dst ≠ .pc → ∃ t, exec (.add src dst wb) s = .next t ∧
      (t.reg dst).toNat = merged wb (s.reg dst) ((d + a) % modulus wb) ∧
      FlagsOf t wb ((d + a) % modulus wb) (decide (modulus wb ≤ d + a)) (signed wb d + signed wb a)) ∧
    (∃ t, exec (.addc src dst wb) s = .next t ∧
      (t.reg dst).toNat = merged wb (s.reg dst) ((d + a + cin) % modulus wb) ∧
      FlagsOf t wb ((d + a + cin) % modulus wb) (decide (modulus wb ≤ d + a + cin))
        (signed wb d + signed wb a + cin))

/-- R155, R156, R158, R137: SUB, SUBC and CMP complete; the exact difference modulo the width, C = 1 when there is no
borrow, V the signed overflow; CMP writes no register. -/
def Obligations.SubtractResults : Prop :=
  ∀ (s : State) (src : Source) (dst : Reg) (wb : Width),
    let d := low wb (s.reg dst)
    let a := low wb (s.sourceValue src)
    let b := 1 - s.psw.c.toNat
    (∃ t, exec (.sub src dst wb) s = .next t ∧
      (t.reg dst).toNat = merged wb (s.reg dst) ((d + modulus wb - a) % modulus wb) ∧
      FlagsOf t wb ((d + modulus wb - a) % modulus wb) (decide (a ≤ d)) (signed wb d - signed wb a)) ∧
    (∃ t, exec (.subc src dst wb) s = .next t ∧
      (t.reg dst).toNat = merged wb (s.reg dst) ((d + modulus wb - a - b) % modulus wb) ∧
      FlagsOf t wb ((d + modulus wb - a - b) % modulus wb) (decide (a + b ≤ d))
        (signed wb d - signed wb a - (b : Int))) ∧
    (∃ t, exec (.cmp src dst wb) s = .next t ∧ t.regs = s.regs ∧
      FlagsOf t wb ((d + modulus wb - a) % modulus wb) (decide (a ≤ d)) (signed wb d - signed wb a))

/-- R152, R157, R131, R132: DADD completes; each digit is the sum of the two nibbles and the carry, less 10 with a carry
to the next digit when it is 10 or more (kept to 4 bits), the first carry being psw.C; the high byte is kept in byte
mode; Z and N come from the result, C and V from the truth tables on the top bits of source, destination and result. -/
def Obligations.DaddDigitsAndFlags : Prop :=
  ∀ (s : State) (src : Source) (dst : Reg) (wb : Width),
    ∃ t, exec (.dadd src dst wb) s = .next t ∧
      (∃ carry : Nat → Bool, carry 0 = s.psw.c ∧
        ∀ k < nibbles wb,
          let sum := digit (s.reg dst) k + digit (s.sourceValue src) k + (carry k).toNat
          carry (k + 1) = decide (10 ≤ sum) ∧
          digit (t.reg dst) k = if 10 ≤ sum then (sum - 10) % 16 else sum) ∧
      (t.reg dst).toNat / modulus wb = (s.reg dst).toNat / modulus wb ∧
      (let sa := (s.sourceValue src).getLsbD (topBit wb)
       let sd := (s.reg dst).getLsbD (topBit wb)
       let sr := (t.reg dst).getLsbD (topBit wb)
       t.psw.z = decide (low wb (t.reg dst) = 0) ∧ t.psw.n = sr ∧
       t.psw.c = ((sa && sd) || ((sa || sd) && !sr)) ∧
       t.psw.v = ((sa == sd) && (sa != sr)))

/-- R152: on decimal operands DADD adds decimal numbers, modulo 10^4 or 10^2. -/
def Obligations.DaddAddsDecimalNumbers : Prop :=
  ∀ (s : State) (src : Source) (dst : Reg) (wb : Width),
    (∀ k < nibbles wb, digit (s.reg dst) k ≤ 9 ∧ digit (s.sourceValue src) k ≤ 9) →
    ∃ t, exec (.dadd src dst wb) s = .next t ∧
      decimal (t.reg dst) (nibbles wb) =
        (decimal (s.reg dst) (nibbles wb) + decimal (s.sourceValue src) (nibbles wb) + s.psw.c.toNat)
          % 10 ^ nibbles wb

/-- R159 to R161: XOR, AND and OR complete, bit by bit below the width; the bits above it are kept. -/
def Obligations.BitwiseResults : Prop :=
  ∀ (s : State) (src : Source) (dst : Reg) (wb : Width),
    let d := s.reg dst
    let a := s.sourceValue src
    (∃ t, exec (.xor src dst wb) s = .next t ∧
      ∀ k, (t.reg dst).getLsbD k = if k ≤ topBit wb then d.getLsbD k ^^ a.getLsbD k else d.getLsbD k) ∧
    (∃ t, exec (.and src dst wb) s = .next t ∧
      ∀ k, (t.reg dst).getLsbD k = if k ≤ topBit wb then d.getLsbD k && a.getLsbD k else d.getLsbD k) ∧
    (∃ t, exec (.or src dst wb) s = .next t ∧
      ∀ k, (t.reg dst).getLsbD k = if k ≤ topBit wb then d.getLsbD k || a.getLsbD k else d.getLsbD k)

/-- R162 to R164 with R151 under BITNUM_OOR = mask, or with a bit number below the width under any BITNUM_OOR: BIT
sets Z from the selected bit and N when it is the top bit and set, and writes no register; BIC clears the bit, BIS sets
it, every other bit is kept. -/
def Obligations.BitInstructionResults : Prop :=
  ∀ (s : State) (src : Source) (dst : Reg) (wb : Width),
    s.bitnumOor = .mask ∨ bitInRange wb (s.sourceValue src) →
    let k := selectedBit wb (s.sourceValue src)
    let d := s.reg dst
    (∃ t, exec (.bit src dst wb) s = .next t ∧ t.regs = s.regs ∧ t.psw.z = !d.getLsbD k ∧
      t.psw.n = (d.getLsbD k && decide (k = topBit wb))) ∧
    (∃ t, exec (.bic src dst wb) s = .next t ∧
      ∀ j, (t.reg dst).getLsbD j = (d.getLsbD j && !decide (j = k))) ∧
    (∃ t, exec (.bis src dst wb) s = .next t ∧
      ∀ j, (t.reg dst).getLsbD j = (d.getLsbD j || decide (j = k)))

/-- R151 with the launch choices ANY and REFUSE, and a bit number that is not below the width: under ANY the
instruction completes with a free value (whatever it is) as its masked result, the low bits BIC and BIS write, and N and
Z follow that result (R133, R162 to R164); BIT writes no register. Under REFUSE it is refused. R151 says only that ANY
makes the written low bits and N and Z a draw: that one drawn result gives both is the model's choice (log 8), and so is
the counter `draws` that each draw advances, so that a later draw reads the next one (log 9). -/
def Obligations.BitNumberOutOfRangeDrawsOrRefuses : Prop :=
  ∀ (s : State) (src : Source) (dst : Reg) (wb : Width), ¬ bitInRange wb (s.sourceValue src) →
    let x := low wb (Config.freeWord s.draws)
    (s.bitnumOor = .any →
      (∃ t, exec (.bit src dst wb) s = .next t ∧ t.regs = s.regs ∧ t.draws = s.draws + 1 ∧
        t.psw.z = decide (x = 0) ∧ t.psw.n = decide (modulus wb / 2 ≤ x)) ∧
      (∀ i, i = .bic src dst wb ∨ i = .bis src dst wb →
        ∃ t, exec i s = .next t ∧ (t.reg dst).toNat = merged wb (s.reg dst) x ∧ t.draws = s.draws + 1 ∧
          t.psw.z = decide (x = 0) ∧ t.psw.n = decide (modulus wb / 2 ≤ x))) ∧
    (s.bitnumOor = .refuse →
      ∀ i, i = .bit src dst wb ∨ i = .bic src dst wb ∨ i = .bis src dst wb →
        exec i s = .refused .bitNumberOutOfRange)

/-- R133: the logical rule. XOR, AND, OR, BIC and BIS set N to the top bit of the result and Z when the whole masked
result is 0, and leave C and V; for BIT, where its bit number is defined, Z = 1 exactly when the tested bit is 0, N is
that bit when it is the top one, and C and V are left. That BIC and BIS keep the rule where their result is a draw (a bit
number out of range under BITNUM_OOR = ANY, R151) is the model's choice (log 8). -/
def Obligations.LogicalRuleSetsNandZ : Prop :=
  ∀ (s t : State) (src : Source) (dst : Reg) (wb : Width),
    (∀ i, i = .xor src dst wb ∨ i = .and src dst wb ∨ i = .or src dst wb ∨ i = .bic src dst wb ∨ i = .bis src dst wb →
      exec i s = .next t →
      t.psw.n = (t.reg dst).getLsbD (topBit wb) ∧ t.psw.z = decide (low wb (t.reg dst) = 0) ∧
        t.psw.c = s.psw.c ∧ t.psw.v = s.psw.v) ∧
    (exec (.bit src dst wb) s = .next t →
      (s.bitnumOor = .mask ∨ bitInRange wb (s.sourceValue src) →
        (t.psw.z = true ↔ (s.reg dst).getLsbD (selectedBit wb (s.sourceValue src)) = false) ∧
        (t.psw.n = true ↔
          selectedBit wb (s.sourceValue src) = topBit wb ∧ (s.reg dst).getLsbD (topBit wb) = true)) ∧
      t.psw.c = s.psw.c ∧ t.psw.v = s.psw.v)

/-- R138, R150: in byte mode only low bytes count. Two states that agree on the low byte of every register, on the status
word and on the launch and free-value fields give the same flags and the same low byte of the destination. Where a bit
number is out of range under BITNUM_OOR = ANY, that the two states draw the same free value is the model's choice
(log 9: one value for each count of draws), not the spec's. -/
def Obligations.ByteModeIgnoresHighBytes : Prop :=
  ∀ (s s' : State) (i : Instr) (src : Source) (dst : Reg),
    (i = .add src dst .byte ∨ i = .addc src dst .byte ∨ i = .sub src dst .byte ∨ i = .subc src dst .byte ∨
      i = .dadd src dst .byte ∨ i = .cmp src dst .byte ∨ i = .xor src dst .byte ∨ i = .and src dst .byte ∨
      i = .or src dst .byte ∨ i = .bit src dst .byte ∨ i = .bic src dst .byte ∨ i = .bis src dst .byte) →
    (∀ r, low .byte (s.reg r) = low .byte (s'.reg r)) → s.psw = s'.psw → s.bitnumOor = s'.bitnumOor →
    s.draws = s'.draws → ∀ t, exec i s = .next t →
      ∃ t', exec i s' = .next t' ∧ t.psw = t'.psw ∧ low .byte (t.reg dst) = low .byte (t'.reg dst)

/-- R24, R25: with R/C = 1 a two-operand instruction does what it does with a register that holds the constant the
index names in the list 0, 1, 2, 4, 8, 16, 32, 0xFFFF. Where both draw a free value (a bit number out of range under
BITNUM_OOR = ANY), that it is the same one is the model's choice (log 9), not the spec's. -/
def Obligations.ConstantSourceActsAsItsValue : Prop :=
  ∀ (s : State) (r : Reg) (k : ConstIdx) (i j : Instr),
    constants[k.val]? = some (s.reg r) → withSource (.const k) i = some i → withSource (.reg r) i = some j →
    exec i s = exec j s

/-- R158, R137, R241 to R244, R246, R247: after `CMP S,D` the equal, unsigned and signed branches are taken exactly when
the numbers compare that way. -/
def Obligations.CompareThenBranchTests : Prop :=
  ∀ (s : State) (src : Source) (dst : Reg) (wb : Width), ∃ t, exec (.cmp src dst wb) s = .next t ∧
    let d := low wb (s.reg dst)
    let a := low wb (s.sourceValue src)
    ∀ off : Word, ∃ u, exec (.bra off) t = .next u ∧
      exec (.beq off) t = .next (if d = a then u else t) ∧
      exec (.bne off) t = .next (if d = a then t else u) ∧
      exec (.bc off) t = .next (if a ≤ d then u else t) ∧
      exec (.bnc off) t = .next (if a ≤ d then t else u) ∧
      exec (.bge off) t = .next (if signed wb a ≤ signed wb d then u else t) ∧
      exec (.blt off) t = .next (if signed wb a ≤ signed wb d then t else u)

/-! Moves, shifts, immediate loads, flags. -/

/-- R191, R192: MOV and SWAP complete with their registers' values, MOV in byte mode keeping the high byte. -/
def Obligations.MoveAndSwapResults : Prop :=
  ∀ (s : State) (src dst : Reg) (wb : Width),
    (∃ t, exec (.mov src dst wb) s = .next t ∧
      (t.reg dst).toNat = merged wb (s.reg dst) (low wb (s.reg src)) ∧ t.psw = s.psw) ∧
    (∃ t, exec (.swap src dst) s = .next t ∧ t.reg src = s.reg dst ∧ t.reg dst = s.reg src ∧ t.psw = s.psw)

/-- R193: SRA completes: half of the signed operand, rounded down; the high byte is kept in byte mode; no flag. -/
def Obligations.SraHalvesSignedOperand : Prop :=
  ∀ (s : State) (dst : Reg) (wb : Width), ∃ t, exec (.sra dst wb) s = .next t ∧
    signed wb (low wb (t.reg dst)) = signed wb (low wb (s.reg dst)) / 2 ∧
    (t.reg dst).toNat / modulus wb = (s.reg dst).toNat / modulus wb ∧ t.psw = s.psw

/-- R194, R135: RRC completes: each bit moves down by one, the carry enters at the top of the mode, bit 0 becomes the
carry, the bits above the mode are kept; Z, N and V are unchanged. -/
def Obligations.RrcRotatesThroughCarry : Prop :=
  ∀ (s : State) (dst : Reg) (wb : Width), ∃ t, exec (.rrc dst wb) s = .next t ∧
    (∀ k, (t.reg dst).getLsbD k =
      if k < topBit wb then (s.reg dst).getLsbD (k + 1)
      else if k = topBit wb then s.psw.c else (s.reg dst).getLsbD k) ∧
    t.psw = { s.psw with c := (s.reg dst).getLsbD 0 }

/-- R195 to R200: SWPB, SXT and the four immediate loads complete with the word their rules give; no flag. -/
def Obligations.ByteAndImmediateResults : Prop :=
  ∀ (s : State) (dst : Reg) (imm : Byte),
    let lo := (s.reg dst).toNat % 256
    let hi := (s.reg dst).toNat / 256
    (∃ t, exec (.swpb dst) s = .next t ∧ (t.reg dst).toNat = lo * 256 + hi ∧ t.psw = s.psw) ∧
    (∃ t, exec (.sxt dst) s = .next t ∧ (t.reg dst).toInt = signed .byte lo ∧ t.psw = s.psw) ∧
    (∃ t, exec (.movl imm dst) s = .next t ∧ (t.reg dst).toNat = hi * 256 + imm.toNat ∧ t.psw = s.psw) ∧
    (∃ t, exec (.movlz imm dst) s = .next t ∧ (t.reg dst).toNat = imm.toNat ∧ t.psw = s.psw) ∧
    (∃ t, exec (.movls imm dst) s = .next t ∧ (t.reg dst).toNat = 0xFF00 + imm.toNat ∧ t.psw = s.psw) ∧
    (∃ t, exec (.movh imm dst) s = .next t ∧ (t.reg dst).toNat = imm.toNat * 256 + lo ∧ t.psw = s.psw)

/-- R220 to R222: SETCC and CLRCC complete. SETCC sets the selected flags, SLP with the interlock that clears it at
current priority 7; CLRCC clears the selected flags; an unselected flag, the priorities and the fault bit are unchanged,
and so is everything but the status word. -/
def Obligations.SetAndClearFlagResults : Prop :=
  ∀ (s : State) (m : BitVec 5),
    (∃ p, exec (.setcc m) s = .next { s with psw := p } ∧
      p.c = (if m.getLsbD 0 then true else s.psw.c) ∧ p.z = (if m.getLsbD 1 then true else s.psw.z) ∧
      p.n = (if m.getLsbD 2 then true else s.psw.n) ∧ p.v = (if m.getLsbD 4 then true else s.psw.v) ∧
      p.slp = (if m.getLsbD 3 then decide (s.psw.cpri ≠ 7#3) else s.psw.slp) ∧
      p.cpri = s.psw.cpri ∧ p.ppri = s.psw.ppri ∧ p.flt = s.psw.flt) ∧
    (∃ p, exec (.clrcc m) s = .next { s with psw := p } ∧
      p.c = (if m.getLsbD 0 then false else s.psw.c) ∧ p.z = (if m.getLsbD 1 then false else s.psw.z) ∧
      p.n = (if m.getLsbD 2 then false else s.psw.n) ∧ p.v = (if m.getLsbD 4 then false else s.psw.v) ∧
      p.slp = (if m.getLsbD 3 then false else s.psw.slp) ∧
      p.cpri = s.psw.cpri ∧ p.ppri = s.psw.ppri ∧ p.flt = s.psw.flt)

/-- R223, R224: NOP, whatever its fields, changes nothing. An UNRECOGNIZED word in the decode latch is inert: its tick
completes and changes no register, flag or memory, it retires, and the tick's output is `unrecognized(word, addr)`.
That the output stands in State until the next tick is the model's choice (log 12). -/
def Obligations.NopAndUnrecognizedAreInert : Prop :=
  (∀ (s : State) (src : Source) (wb : Width), exec (.nop src wb) s = .next s) ∧
  (∀ (s : State) (w a : Word), s.clk % 2 = 1 → s.xbub = false → s.di = .fetched (.unrecognized w) a →
    ∃ t, step s = .next t ∧ t.regs = s.regs ∧ t.psw = s.psw ∧ t.imem = s.imem ∧ t.dmem = s.dmem ∧
      t.mem2 = s.mem2 ∧ t.dbub = s.dbub ∧ t.xbub = false ∧ t.retired = some a ∧ t.signal = some (w, a))

/-! Branches. -/

/-- R237: BL completes: LR gets the address of the word after it, PC goes to that address plus the displacement, both
bubbles are requested; nothing else changes. -/
def Obligations.BranchWithLinkResult : Prop :=
  ∀ (s : State) (off : Word), ∃ t, exec (.bl off) s = .next t ∧
    t.reg .lr = s.reg .pc - 2#16 ∧ t.reg .pc = s.reg .pc - 2#16 + off ∧
    (∀ r, r ≠ .lr → r ≠ .pc → t.reg r = s.reg r) ∧
    t = { s with regs := t.regs, dbub := true, xbub := true }

/-- R238, R239, R241 to R248, R250: every conditional branch completes. Taken exactly on its predicate: PC goes to
pc - 2 plus the displacement and both bubbles are requested; not taken: no state change. -/
def Obligations.ConditionalBranchResults : Prop :=
  ∀ (s : State) (i : Instr), isBranch i = true → (∀ off, i ≠ .bl off) →
    (taken s.psw i = true → ∃ t, exec i s = .next t ∧ t.reg .pc = s.reg .pc - 2#16 + branchOffset i ∧
      (∀ r, r ≠ .pc → t.reg r = s.reg r) ∧ t = { s with regs := t.regs, dbub := true, xbub := true }) ∧
    (taken s.psw i = false → exec i s = .next s)

/-! Loads and stores. -/

/-- R256 to R259, R261, R262: EXEC1 of LD and ST. INC = DEC = 1 is refused; otherwise it completes: the effective
address is the address register, adjusted first in pre-mode, where the register gets the adjusted value now; in
post-mode with a step other than 0 the adjustment is left to the second phase; a store's data is the register's value
before any adjustment. -/
def Obligations.IndirectFirstPhase : Prop :=
  ∀ (s : State) (prpo dec inc : Bool) (src dst : Reg) (wb : Width),
    let k := signedStep wb dec inc
    let post := fun r => if prpo = false ∧ k ≠ 0 then some (r, BitVec.ofInt 16 k) else none
    (dec = true ∧ inc = true →
      exec (.ld prpo dec inc src dst wb) s = .refused .incDecBothSet ∧
      exec (.st prpo dec inc src dst wb) s = .refused .incDecBothSet) ∧
    (¬ (dec = true ∧ inc = true) →
      (∃ t, exec (.ld prpo dec inc src dst wb) s = .next t ∧
        t.mem2 = some { ea := if prpo then plus (s.reg src) k else s.reg src, wb := wb, kind := .load dst,
                        post := post src } ∧
        t.reg src = (if prpo then plus (s.reg src) k else s.reg src)) ∧
      (∃ t, exec (.st prpo dec inc src dst wb) s = .next t ∧
        t.mem2 = some { ea := if prpo then plus (s.reg dst) k else s.reg dst, wb := wb, kind := .store (s.reg src),
                        post := post dst } ∧
        t.reg dst = (if prpo then plus (s.reg dst) k else s.reg dst)))

/-- R260: the relative effective address is the base register (SRC for LDR, DST for STR) plus the sign-extended 7-bit
offset; EXEC1 completes, changes no register, and leaves the transfer to the second phase without an adjustment. -/
def Obligations.RelativeFirstPhase : Prop :=
  ∀ (s : State) (off7 : BitVec 7) (src dst : Reg) (wb : Width),
    exec (.ldr (off7.signExtend 16) src dst wb) s =
      .next { s with mem2 := some { ea := plus (s.reg src) off7.toInt, wb := wb, kind := .load dst, post := none } } ∧
    exec (.str (off7.signExtend 16) src dst wb) s =
      .next { s with mem2 := some { ea := plus (s.reg dst) off7.toInt, wb := wb, kind := .store (s.reg src),
                                    post := none } }

/-- R265, R267, R259, R268, R323: the tick after a load's EXEC1. It completes and clears mem2. Without a deferred
adjustment of the destination itself, the destination gets the loaded word, or the loaded byte below its old high byte,
and an adjusted register its step; with it, the destination is a free value, whatever that is (log 10), and the model's
counter of draws advances (log 9). All over a PC that FETCH1 has advanced; no other register, no flag and no byte of
memory changes. -/
def Obligations.LoadSecondPhase : Prop :=
  ∀ (s : State) (ea : Word) (wb : Width) (dst : Reg) (post : Option (Reg × Word)),
    s.clk % 2 = 0 → s.dbub = false → s.mem2 = some { ea := ea, wb := wb, kind := .load dst, post := post } →
    ∃ t, step s = .next t ∧ t.mem2 = none ∧ t.psw = s.psw ∧ t.imem = s.imem ∧ t.dmem = s.dmem ∧
      let old := fun r => if r = Reg.pc then s.reg .pc + 2#16 else s.reg r
      (∀ k, post = some (dst, k) → t.reg dst = Config.freeWord s.draws ∧ t.draws = s.draws + 1) ∧
      ((∀ k, post ≠ some (dst, k)) → (t.reg dst).toNat = loaded s.dmem ea wb (old dst) ∧ t.draws = s.draws) ∧
      (∀ r k, post = some (r, k) → r ≠ dst → t.reg r = old r + k) ∧
      (∀ r, r ≠ dst → (∀ k, post ≠ some (r, k)) → t.reg r = old r)

/-- R266, R57, R259, R323: the tick after a store's EXEC1. It completes and clears mem2. Every byte of the data space
is as the store of the latched data at the effective address leaves it, and every other byte is unchanged; an adjusted
register gets its step; no other register than PC (FETCH1) and no flag changes. -/
def Obligations.StoreSecondPhase : Prop :=
  ∀ (s : State) (ea : Word) (wb : Width) (data : Word) (post : Option (Reg × Word)),
    s.clk % 2 = 0 → s.dbub = false → s.mem2 = some { ea := ea, wb := wb, kind := .store data, post := post } →
    s.dmem.wf = true →
    ∃ t, step s = .next t ∧ t.mem2 = none ∧ t.psw = s.psw ∧ t.imem = s.imem ∧ t.draws = s.draws ∧
      (∀ a, t.dmem.read a = storedByte s.dmem ea wb data a) ∧
      let old := fun r => if r = Reg.pc then s.reg .pc + 2#16 else s.reg r
      (∀ r k, post = some (r, k) → t.reg r = old r + k) ∧
      (∀ r, (∀ k, post ≠ some (r, k)) → t.reg r = old r)

/-- R265, R343: no load-use hazard. A load, LD in any addressing mode the spec gives a meaning or LDR, leaves its
destination at EXEC1 as it was, but for the pre-adjustment of an address register that is the destination (R258); after
the next tick, before the next instruction's EXEC1, the destination holds the loaded value and the next instruction
stands decoded. A byte load keeps the high byte, PC's as FETCH1 left it. A post-mode LD that adjusts its own destination
leaves a free value there instead (R268, logs 9 and 10). -/
def Obligations.LoadIsVisibleToNextInstruction : Prop :=
  ∀ (s : State) (i : Instr) (a : Word) (dst : Reg) (wb : Width), Inv s → Executes s i a →
    loadDest i = some (dst, wb) → bothSteps i = false →
    ∃ t u, step s = .next t ∧ step t = .next u ∧
      t.reg dst = (if preAdjustsOwnDest i then effectiveAddress s i else s.reg dst) ∧
      (adjustsOwnDest i = false → (u.reg dst).toNat =
        loaded s.dmem (effectiveAddress s i) wb (if dst = .pc then t.reg dst + 2#16 else t.reg dst)) ∧
      (adjustsOwnDest i = true → u.reg dst = Config.freeWord s.draws) ∧
      u.di = .fetched (decode (s.memRead .instruction s.imar .word)) s.imar ∧ u.clk % 2 = 1 ∧ u.xbub = false

/-- R266: a word load, LD or LDR, by the instruction right after a word store, ST or STR, to the same word: two ticks
after its EXEC1 began its destination holds the data the store latched, in every addressing mode the spec gives the two
a meaning in; a post-mode LD that adjusts its own destination leaves a free value there instead (R268, logs 9 and 10). -/
def Obligations.StoreThenLoadReturnsData : Prop :=
  ∀ (s t u : State) (i j : Instr) (a a' : Word) (src dst : Reg),
    Inv s → Executes s i a → wordStoreData i = some src → step s = .next t → step t = .next u →
    Executes u j a' → wordLoadDest j = some dst → bothSteps j = false →
    evenBase (effectiveAddress u j) = evenBase (effectiveAddress s i) →
    ∃ w, runTicks 2 u = .next w ∧
      w.reg dst = if adjustsOwnDest j then Config.freeWord u.draws else s.reg src

/-- R54, R55, R57, R59, R61: bytes and words of a space. A byte write changes exactly the byte at its address, at any
address; a word write changes exactly the two bytes of the aligned word at or below its address, low byte first, also
at an odd address; a read takes the bytes back the same way, a byte zero-extended. -/
def Obligations.MemoryAccessesAreLittleEndian : Prop :=
  ∀ (m : Memory) (a v : Word) (wb : Width), m.wf = true →
    (∀ b, (m.writeWidth a wb v).read b = storedByte m a wb v b) ∧
    (m.readWidth a .byte).toNat = (m.read a.toNat).toNat ∧
    (m.readWidth a .word).toNat = (m.read (evenBase a)).toNat + 256 * (m.read (evenBase a + 1)).toNat ∧
    (m.writeWidth a wb v).wf = true

/-! Frames of EXEC1. The clauses about `draws` are about the model's own counter (log 9). -/

/-- What ADD, ADDC, SUB, SUBC, DADD and CMP leave unchanged (R150, R130): everything but the destination register
(none for CMP) and C, Z, N, V. -/
def Obligations.ArithmeticFrame : Prop :=
  ∀ (i : Instr) (s t : State), isArithmetic i = true → exec i s = .next t →
    Frame i s t ∧ t.mem2 = s.mem2 ∧ t.dbub = s.dbub ∧ t.xbub = s.xbub ∧ t.draws = s.draws

/-- What XOR, AND, OR, BIT, BIC and BIS leave unchanged (R150, R133): everything but the destination register (none for
BIT) and N, Z; a free value is drawn only under BITNUM_OOR = ANY by a bit instruction (R151, log 9). -/
def Obligations.LogicFrame : Prop :=
  ∀ (i : Instr) (s t : State), isLogic i = true → exec i s = .next t →
    Frame i s t ∧ t.mem2 = s.mem2 ∧ t.dbub = s.dbub ∧ t.xbub = s.xbub ∧
      (isBitOp i = false ∨ s.bitnumOor ≠ .any → t.draws = s.draws)

/-- What MOV, SWAP, SRA, RRC, SWPB, SXT, MOVL, MOVLZ, MOVLS, MOVH, SETCC, CLRCC and NOP leave unchanged: everything but
their destination registers and the flags their rules name; no bubble is set when R7 is written (R340). -/
def Obligations.MoveFrame : Prop :=
  ∀ (i : Instr) (s t : State), isMove i = true → exec i s = .next t →
    Frame i s t ∧ t.mem2 = s.mem2 ∧ t.dbub = s.dbub ∧ t.xbub = s.xbub ∧ t.draws = s.draws

/-- What BL and the conditional branches leave unchanged (R235): all but PC, LR for BL, and the bubble flags. -/
def Obligations.BranchFrame : Prop :=
  ∀ (i : Instr) (s t : State), isBranch i = true → exec i s = .next t →
    Frame i s t ∧ t.mem2 = s.mem2 ∧ t.draws = s.draws

/-- What EXEC1 of LD, ST, LDR and STR leaves unchanged (R255): all but mem2 and, in pre-mode, the address register; no
byte of memory, which the second phase accesses. -/
def Obligations.MemoryFirstPhaseFrame : Prop :=
  ∀ (i : Instr) (s t : State), isMemory i = true → exec i s = .next t →
    Frame i s t ∧ t.dbub = s.dbub ∧ t.xbub = s.xbub ∧ t.draws = s.draws

/-- R134: the instructions of the no-flag group (R130) leave the whole status word unchanged, a memory instruction in
both its phases. -/
def Obligations.NoFlagGroupKeepsStatusWord : Prop :=
  (∀ (i : Instr) (s t : State), isBranch i = true ∨ isMemory i = true ∨
      (isMove i = true ∧ (∀ d w, i ≠ .rrc d w) ∧ (∀ m, i ≠ .setcc m) ∧ (∀ m, i ≠ .clrcc m)) →
    exec i s = .next t → t.psw = s.psw) ∧
  (∀ (s t : State) (w a : Word), s.clk % 2 = 1 → s.di = .fetched (.unrecognized w) a → step s = .next t →
    t.psw = s.psw) ∧
  (∀ s t : State, s.clk % 2 = 0 → step s = .next t → t.psw = s.psw)

/-! The tick sequencer. -/

/-- R320, R326, R330: an odd tick without an execute-bubble runs the decoded instruction on the state FETCH2 leaves
(the word at imar, read from the instruction space, in ir), then retires it at its address and counts the tick; where
the instruction is refused, so is the tick. -/
def Obligations.StepRunsDecodedInstruction : Prop :=
  ∀ (s : State) (i : Instr) (a : Word), Executes s i a →
    let f : State := { s with signal := none, ir := .word (s.memRead .instruction s.imar .word) s.imar }
    (∀ t, exec i f = .next t → step s =
      .next { t with retired := some a, halted := t.halted || decide (t.bkpt = some a), clk := t.clk + 1 }) ∧
    (∀ r, exec i f = .refused r → step s = .refused r)

/-- R322, R324, R320: an even tick without a decode-bubble completes: it latches PC in imar and decodes the word in ir,
whatever it is, or the injected no-op from BUBBLE. PC advances by 2, modulo 2^16, unless a pending transfer writes it
after that; with nothing pending the tick changes nothing else but the clock and the output. -/
def Obligations.EvenTickFetchesAndDecodes : Prop :=
  ∀ s : State, s.clk % 2 = 0 → s.dbub = false →
    ∃ t, step s = .next t ∧ t.imar = s.reg .pc ∧
      t.di = (match s.ir with
        | .bubble => .injectedNop
        | .word w a => .fetched (decode w) a) ∧
      ((∀ p, s.mem2 = some p → p.kind ≠ .load .pc ∧ ∀ k, p.post ≠ some (.pc, k)) →
        (t.reg .pc).toNat = ((s.reg .pc).toNat + 2) % 65536) ∧
      (s.mem2 = none → (∀ r, r ≠ .pc → t.reg r = s.reg r) ∧
        t = { s with regs := t.regs, imar := t.imar, di := t.di, clk := s.clk + 1, signal := none })

/-- R321, R327: the bubble ticks. An even tick with a decode-bubble writes BUBBLE and the injected NOP and clears the
flag, without advancing PC; an odd tick with an execute-bubble only clears the flag. -/
def Obligations.BubbleTicksSuppressFetch : Prop :=
  (∀ s : State, s.clk % 2 = 0 → s.dbub = true →
    step s = .next { s with ir := .bubble, di := .injectedNop, dbub := false, clk := s.clk + 1, signal := none }) ∧
  (∀ s : State, s.clk % 2 = 1 → s.xbub = true →
    step s = .next { s with xbub := false, clk := s.clk + 1, signal := none })

/-- R329: dbub and xbub are set only by a taken branch or BL in EXEC1, which sets both; the DBUB-TICK clears dbub and
the XBUB-TICK xbub. -/
def Obligations.BubblesAreSetOnlyByTakenBranches : Prop :=
  ∀ s t : State, step s = .next t →
    ((t.dbub = true ∧ s.dbub = false) ∨ (t.xbub = true ∧ s.xbub = false) →
      ∃ i a, Executes s i a ∧ taken s.psw i = true) ∧
    (∀ i a, Executes s i a → taken s.psw i = true → t.dbub = true ∧ t.xbub = true) ∧
    (s.clk % 2 = 0 → s.dbub = true → t.dbub = false) ∧
    (s.clk % 2 = 1 → s.xbub = true → t.xbub = false)

/-- R330: RETIRE. After an odd tick that executed a fetched word, `retired` is its address and `halted` is set if that
is the breakpoint, else kept; every other tick keeps both. -/
def Obligations.RetireAndBreakpoint : Prop :=
  ∀ s t : State, step s = .next t →
    (∀ d a, s.clk % 2 = 1 → s.xbub = false → s.di = .fetched d a →
      t.retired = some a ∧ (t.halted = true ↔ s.halted = true ∨ s.bkpt = some a)) ∧
    ((s.clk % 2 = 0 ∨ s.xbub = true ∨ s.di = .injectedNop) → t.retired = s.retired ∧ t.halted = s.halted)

/-- R322, R324, R325: a fetched word runs unchanged. Where a tick is even without a decode-bubble, the word at PC in
the instruction space is decoded at its address three ticks later, if no branch is taken in between. -/
def Obligations.WordAtPcStandsDecodedAfterThreeTicks : Prop :=
  ∀ s t u v : State, Inv s → s.clk % 2 = 0 → s.dbub = false → step s = .next t → step t = .next u →
    u.dbub = false → step u = .next v →
    v.di = .fetched (decode (s.memRead .instruction (s.reg .pc) .word)) (s.reg .pc) ∧ v.clk % 2 = 1 ∧ v.xbub = false

/-- R334, with log 3: a program's first word. From reset with the word at the address in R7, three ticks bring it to
its EXEC1: the state then is the one `withFetchWord` makes, the first instruction reads pc = P + 4, and its tick runs
it. -/
def Obligations.FirstWordRunsInTickThree : Prop :=
  ∀ (p w : Word), let s := (State.reset.setReg .pc p).memWrite .instruction p .word w
    runTicks 3 s = .next ((State.reset.setReg .pc p).withFetchWord 16 w.toNat) ∧
    ((State.reset.setReg .pc p).withFetchWord 16 w.toNat).reg .pc = p + 4#16 ∧
    (∀ i, decode w = .instr i → Executes ((State.reset.setReg .pc p).withFetchWord 16 w.toNat) i p)

/-- R27, R341: the sequential path. From a sequential boundary at `a`, an instruction that takes no branch, writes no
PC and leaves no transfer that writes PC is followed by the word at `a + 2`, which reads pc = a + 2 + 4. -/
def Obligations.SequentialInstructionReadsPcPlusFour : Prop :=
  ∀ (s t : State) (a : Word), Sequential s a → step s = .next t → t.dbub = false → t.xbub = false →
    t.reg .pc = s.reg .pc →
    (∀ p, t.mem2 = some p → p.kind ≠ .load .pc ∧ ∀ k, p.post ≠ some (.pc, k)) →
    ∃ u, step t = .next u ∧ Sequential u (a + 2#16) ∧
      u.di = .fetched (decode (s.memRead .instruction (a + 2#16) .word)) (a + 2#16)

/-- R342, R249, R253: the taken-branch sequence. Six ticks after a taken branch at `a` began its EXEC1, the word at the
target stands decoded and reads pc = target + 4; the word after the branch never executed: no register but PC (and LR
for BL), no flag and no memory changed, and nothing retired after the branch. -/
def Obligations.TakenBranchCostsSixTicks : Prop :=
  ∀ (s : State) (i : Instr) (a : Word), Inv s → Executes s i a → taken s.psw i = true →
    let target := s.reg .pc - 2#16 + branchOffset i
    ∃ u, runTicks 6 s = .next u ∧ u.clk = s.clk + 6 ∧ u.xbub = false ∧
      u.di = .fetched (decode (s.memRead .instruction target .word)) target ∧
      u.reg .pc = target + 4#16 ∧ (∀ r, r ≠ .pc → r ∉ destRegs i → u.reg r = s.reg r) ∧
      u.psw = s.psw ∧ u.dmem = s.dmem ∧ u.mem2 = none ∧ u.retired = some a

/-- R340, R341: a write of PC that is not a branch (a destination, or the address register of a pre-mode LD or ST).
With N the PC after an odd tick that set no bubble and left no transfer that writes PC, the next tick latches N and
decodes the word fetched before, which then reads pc = N + 2 (the delay slot); if that one sets no bubble either, the
word at N is decoded after it. -/
def Obligations.NonBranchPcWriteHasOneDelaySlot : Prop :=
  ∀ s t : State, Inv s → s.clk % 2 = 1 → s.xbub = false → step s = .next t → t.dbub = false →
    (∀ p, t.mem2 = some p → p.kind ≠ .load .pc ∧ ∀ k, p.post ≠ some (.pc, k)) →
    ∃ u, step t = .next u ∧ u.imar = t.reg .pc ∧ u.reg .pc = t.reg .pc + 2#16 ∧
      u.di = .fetched (decode (s.memRead .instruction s.imar .word)) s.imar ∧
      ∀ v, step u = .next v → v.dbub = false →
        ∃ w, step v = .next w ∧
          w.di = .fetched (decode (s.memRead .instruction (t.reg .pc) .word)) (t.reg .pc) ∧
          w.clk % 2 = 1 ∧ w.xbub = false

/-- R345, R341: a load into PC, of either width, with or without a post-adjustment. The tick that completes it leaves
imar at the address FETCH1 latched before and in PC the loaded value L, a byte load keeping PC's high byte (ANY where the
LD adjusts PC itself, R268, log 9); the word fetched before stands decoded, the first slot, which reads pc = L. If that slot
sets no bubble, leaves no transfer that writes PC and writes no PC, the second slot, the word at that imar, reads
pc = L + 2, with L next to fetch; and if that one sets no bubble either, the word at L is decoded after it. -/
def Obligations.LoadIntoPcHasTwoSlots : Prop :=
  ∀ (s t : State) (ea : Word) (wb : Width) (post : Option (Reg × Word)), Inv s → s.clk % 2 = 0 →
    s.mem2 = some { ea := ea, wb := wb, kind := .load .pc, post := post } → step s = .next t →
    t.imar = s.reg .pc ∧
    t.di = (match s.ir with
      | .bubble => .injectedNop
      | .word w a => .fetched (decode w) a) ∧
    ((∀ k, post ≠ some (.pc, k)) → (t.reg .pc).toNat = loaded s.dmem ea wb (s.reg .pc + 2#16)) ∧
    (∀ k, post = some (.pc, k) → t.reg .pc = Config.freeWord s.draws) ∧
    ∀ u, step t = .next u → u.dbub = false → u.reg .pc = t.reg .pc →
      (∀ p, u.mem2 = some p → p.kind ≠ .load .pc ∧ ∀ k, p.post ≠ some (.pc, k)) →
      ∃ v, step u = .next v ∧ v.imar = t.reg .pc ∧ v.reg .pc = t.reg .pc + 2#16 ∧
        v.di = .fetched (decode (s.memRead .instruction (s.reg .pc) .word)) (s.reg .pc) ∧
        ∀ w, step v = .next w → w.dbub = false →
          ∃ x, step w = .next x ∧
            x.di = .fetched (decode (s.memRead .instruction (t.reg .pc) .word)) (t.reg .pc) ∧
            x.clk % 2 = 1 ∧ x.xbub = false

/-! Whole-machine rules. -/

/-- The invariant holds at reset (R40, R333). -/
def Obligations.InvariantHoldsAtReset : Prop := Inv State.reset

/-- R333: from every state that meets the invariant (the pipeline's own, both memories canonical, the decode latch from
the decoder), a tick that completes leaves a state that meets it. -/
def Obligations.EveryStepKeepsInvariant : Prop :=
  ∀ s t : State, Inv s → step s = .next t → Inv t

/-- R289, R286, R305: no tick faults; a tick is refused only at the EXEC1 of LD or ST with INC = DEC = 1, or of a bit
instruction whose bit number is not below the width (R151) under the launch choice BITNUM_OOR = REFUSE. -/
def Obligations.TicksStopOnlyOnRefuse : Prop :=
  ∀ s : State,
    (∀ f, step s ≠ .fault f) ∧
    (∀ r, step s = .refused r →
      ∃ i a, Executes s i a ∧
        ((r = .incDecBothSet ∧ ∃ p src dst wb, i = .ld p true true src dst wb ∨ i = .st p true true src dst wb) ∨
         (r = .bitNumberOutOfRange ∧ s.bitnumOor = .refuse ∧
           ∃ src wb, bitSource i = some (src, wb) ∧ ¬ bitInRange wb (s.sourceValue src))))

/-- R53, R71: no tick writes the instruction space, and the data space changes only in a tick that performs a pending
store. -/
def Obligations.OnlyPendingStoresWriteMemory : Prop :=
  ∀ s t : State, step s = .next t → t.imem = s.imem ∧
    (t.dmem ≠ s.dmem → s.clk % 2 = 0 ∧ s.dbub = false ∧ ∃ p data, s.mem2 = some p ∧ p.kind = .store data)

/-- R34, R35, R331, R302: every tick keeps the priorities, the fault bit, the breakpoint and the launch parameter, and
counts itself. -/
def Obligations.TicksKeepPriorityAndCountClock : Prop :=
  ∀ s t : State, step s = .next t →
    t.psw.cpri = s.psw.cpri ∧ t.psw.ppri = s.psw.ppri ∧ t.psw.flt = s.psw.flt ∧ t.bkpt = s.bkpt ∧
      t.bitnumOor = s.bitnumOor ∧ t.clk = s.clk + 1

/-- R33: psw.SLP changes only in the EXEC1 of a SETCC or CLRCC that selects it, and a state with another SLP does the
same tick: what SLP holds stops, slows and changes nothing else. That the two ticks draw the same free value, where they
draw one, is the model's choice (log 9), not the spec's. -/
def Obligations.SleepFlagHasNoOtherEffect : Prop :=
  (∀ s t : State, step s = .next t → t.psw.slp ≠ s.psw.slp →
    ∃ m a, (Executes s (.setcc m) a ∨ Executes s (.clrcc m) a) ∧ m.getLsbD 3 = true) ∧
  (∀ (s t : State) (b : Bool), step s = .next t →
    ∃ b', step { s with psw := { s.psw with slp := b } } = .next { t with psw := { t.psw with slp := b' } })

/-- R349, R288: the accessors. An index out of range is the error OutOfRange; in range, a register or memory write is
read back and changes nothing else of its kind, and both breakpoint accessors clear halted. -/
def Obligations.HostAccessors : Prop :=
  ∀ s : State,
    (∀ i v, 8 ≤ i → s.readReg i = .error .outOfRange ∧ s.writeReg i v = .error .outOfRange) ∧
    (∀ i v, i < 8 → ∃ t, s.writeReg i v = .ok t ∧ t.readReg i = .ok v ∧
      (∀ j, j ≠ i → t.readReg j = s.readReg j) ∧ t = { s with regs := t.regs }) ∧
    (∀ sp a b, 65536 ≤ a ∨ sp = none → s.readMem sp a = .error .outOfRange ∧ s.writeMem sp a b = .error .outOfRange) ∧
    (∀ sp a b, MemoryInv s → a < 65536 → ∃ t, s.writeMem (some sp) a b = .ok t ∧ t.readMem (some sp) a = .ok b ∧
      (∀ sp' a', sp' ≠ sp ∨ a' ≠ a → t.readMem (some sp') a' = s.readMem (some sp') a') ∧ MemoryInv t) ∧
    (∀ a, 65536 ≤ a → s.setBreakpoint a = .error .outOfRange) ∧
    (∀ a, a < 65536 → ∃ t, s.setBreakpoint a = .ok t ∧ t.bkpt = some (BitVec.ofNat 16 a) ∧ t.halted = false) ∧
    s.clearBreakpoint.bkpt = none ∧ s.clearBreakpoint.halted = false
end

