-- ==== Sys2Proof/Laws/Decode.lean ====
section
/-! SUPPORT. The fields of an encoded word, format by format (30_encoding.md R86 to R94), the operand fields read back
from their bits, and the offsets read back from theirs (R95 to R97). A proof about decode or encode cites these. -/

namespace Sys2Proof

/-! Registers, modes, sources. -/

@[simp] theorem Reg.ofBits_toBits (r : Reg) : Reg.ofBits r.toBits = r := by
  cases r <;> rfl

@[simp] theorem Reg.toBits_ofBits (b : BitVec 3) : (Reg.ofBits b).toBits = b := by
  revert b
  decide

theorem Reg.toBits_eq_seven {r : Reg} : r.toBits = 7#3 ↔ r = .pc := by
  cases r <;> decide

@[simp] theorem Width.ofBit_toBit (w : Width) : Width.ofBit (decide (w.toBit = 1#1)) = w := by
  cases w <;> rfl

/-- A one-bit vector as its bit. -/
theorem getElem_zero_of_one (b : BitVec 1) : b[0] = decide (b = 1#1) := by
  revert b
  decide

@[simp] theorem bitOf_eq_one (b : Bool) : decide (bitOf b = 1#1) = b := by
  cases b <;> rfl

/-- The source operand read from an RC bit and an index (R100). -/
@[simp] theorem Source.ofFields (src : Source) :
    (if src.rcBit = 1#1 then Source.const src.index.toFin else Source.reg (Reg.ofBits src.index)) = src := by
  cases src <;> simp [Source.rcBit, Source.index]

/-! Fields of a word of each format. -/

theorem fields_F1 (off : Word) : let w := encodeF1 off
    bitAt w 15 = false ∧ field w 13 2 = 0b00#2 ∧ field w 0 13 = off.extractLsb' 1 13 := by
  refine ⟨?_, ?_, ?_⟩
  · simp only [bitAt, encodeF1, asWord, BitVec.getLsbD_cast, BitVec.getLsbD_append, -Nat.reduceAdd]
    simp
  all_goals
    unfold field encodeF1 asWord
    ext i hi
    rw [BitVec.getElem_extractLsb']
    simp only [BitVec.getLsbD_cast, BitVec.getLsbD_append, -Nat.reduceAdd]
    interval_cases i <;> simp

theorem fields_F2 (cond : BitVec 3) (off : Word) : let w := encodeF2 cond off
    bitAt w 15 = false ∧ field w 13 2 = 0b01#2 ∧ field w 10 3 = cond ∧ field w 0 10 = off.extractLsb' 1 10 := by
  refine ⟨?_, ?_, ?_, ?_⟩
  · simp only [bitAt, encodeF2, asWord, BitVec.getLsbD_cast, BitVec.getLsbD_append, -Nat.reduceAdd]
    simp
  all_goals
    unfold field encodeF2 asWord
    ext i hi
    rw [BitVec.getElem_extractLsb']
    simp only [BitVec.getLsbD_cast, BitVec.getLsbD_append, -Nat.reduceAdd]
    interval_cases i <;> simp [BitVec.getLsbD_eq_getElem]

theorem fields_F3 (opc : BitVec 4) (src : Source) (dst : Reg) (wb : Width) : let w := encodeF3 opc src dst wb
    bitAt w 15 = false ∧ bitAt w 12 = false ∧ bitAt w 7 = decide (src.rcBit = 1#1) ∧
      bitAt w 6 = decide (wb.toBit = 1#1) ∧ field w 13 2 = 0b10#2 ∧ field w 8 4 = opc ∧ field w 3 3 = src.index ∧
      field w 0 3 = dst.toBits := by
  refine ⟨?_, ?_, ?_, ?_, ?_, ?_, ?_, ?_⟩
  iterate 4
    · simp only [bitAt, encodeF3, asWord, BitVec.getLsbD_cast, BitVec.getLsbD_append, -Nat.reduceAdd]
      simp [getElem_zero_of_one]
  all_goals
    unfold field encodeF3 asWord
    ext i hi
    rw [BitVec.getElem_extractLsb']
    simp only [BitVec.getLsbD_cast, BitVec.getLsbD_append, -Nat.reduceAdd]
    interval_cases i <;> simp [BitVec.getLsbD_eq_getElem]

theorem fields_F4 (b7 b6 : BitVec 1) (src dst : Reg) : let w := encodeF4 b7 b6 src dst
    bitAt w 15 = false ∧ bitAt w 12 = false ∧ bitAt w 7 = decide (b7 = 1#1) ∧ bitAt w 6 = decide (b6 = 1#1) ∧
      field w 13 2 = 0b10#2 ∧ field w 8 4 = 0b1100#4 ∧ field w 3 3 = src.toBits ∧ field w 0 3 = dst.toBits := by
  refine ⟨?_, ?_, ?_, ?_, ?_, ?_, ?_, ?_⟩
  iterate 4
    · simp only [bitAt, encodeF4, asWord, BitVec.getLsbD_cast, BitVec.getLsbD_append, -Nat.reduceAdd]
      simp [getElem_zero_of_one]
  all_goals
    unfold field encodeF4 asWord
    ext i hi
    rw [BitVec.getElem_extractLsb']
    simp only [BitVec.getLsbD_cast, BitVec.getLsbD_append, -Nat.reduceAdd]
    interval_cases i <;> simp [BitVec.getLsbD_eq_getElem]

theorem fields_F5 (sel : BitVec 3) (b6 : BitVec 1) (dst : Reg) : let w := encodeF5 sel b6 dst
    bitAt w 15 = false ∧ bitAt w 12 = false ∧ bitAt w 7 = false ∧ bitAt w 6 = decide (b6 = 1#1) ∧
      field w 13 2 = 0b10#2 ∧ field w 8 4 = 0b1101#4 ∧ field w 3 3 = sel ∧ field w 0 3 = dst.toBits := by
  refine ⟨?_, ?_, ?_, ?_, ?_, ?_, ?_, ?_⟩
  iterate 4
    · simp only [bitAt, encodeF5, asWord, BitVec.getLsbD_cast, BitVec.getLsbD_append, -Nat.reduceAdd]
      simp [getElem_zero_of_one]
  all_goals
    unfold field encodeF5 asWord
    ext i hi
    rw [BitVec.getElem_extractLsb']
    simp only [BitVec.getLsbD_cast, BitVec.getLsbD_append, -Nat.reduceAdd]
    interval_cases i <;> simp [BitVec.getLsbD_eq_getElem]

theorem fields_F6 (sel : BitVec 2) (mask5 : BitVec 5) : let w := encodeF6 sel mask5
    bitAt w 15 = false ∧ bitAt w 12 = false ∧ bitAt w 7 = true ∧ field w 13 2 = 0b10#2 ∧
      field w 8 4 = 0b1101#4 ∧ field w 5 2 = sel ∧ field w 0 5 = mask5 := by
  refine ⟨?_, ?_, ?_, ?_, ?_, ?_, ?_⟩
  iterate 3
    · simp only [bitAt, encodeF6, asWord, BitVec.getLsbD_cast, BitVec.getLsbD_append, -Nat.reduceAdd]
      simp
  all_goals
    unfold field encodeF6 asWord
    ext i hi
    rw [BitVec.getElem_extractLsb']
    simp only [BitVec.getLsbD_cast, BitVec.getLsbD_append, -Nat.reduceAdd]
    interval_cases i <;> simp [BitVec.getLsbD_eq_getElem]

theorem fields_F7 (store : BitVec 1) (prpo dec inc : Bool) (src dst : Reg) (wb : Width) :
    let w := encodeF7 store prpo dec inc src dst wb
    bitAt w 15 = false ∧ bitAt w 12 = true ∧ bitAt w 9 = prpo ∧ bitAt w 8 = dec ∧ bitAt w 7 = inc ∧
      bitAt w 6 = decide (wb.toBit = 1#1) ∧ field w 13 2 = 0b10#2 ∧ field w 10 2 = (if store = 1#1 then 0b11#2 else 0b10#2) ∧
      field w 3 3 = src.toBits ∧ field w 0 3 = dst.toBits := by
  refine ⟨?_, ?_, ?_, ?_, ?_, ?_, ?_, ?_, ?_, ?_⟩
  iterate 6
    · simp only [bitAt, encodeF7, asWord, BitVec.getLsbD_cast, BitVec.getLsbD_append, -Nat.reduceAdd]
      simp [getElem_zero_of_one]
  all_goals
    unfold field encodeF7 asWord
    ext i hi
    rw [BitVec.getElem_extractLsb']
    simp only [BitVec.getLsbD_cast, BitVec.getLsbD_append, -Nat.reduceAdd]
    rcases BitVec.eq_zero_or_eq_one store with rfl | rfl <;>
      interval_cases i <;> simp [BitVec.getLsbD_eq_getElem]

theorem fields_F8 (op2 : BitVec 2) (imm : Byte) (dst : Reg) : let w := encodeF8 op2 imm dst
    bitAt w 15 = false ∧ field w 13 2 = 0b11#2 ∧ field w 11 2 = op2 ∧ field w 3 8 = imm ∧
      field w 0 3 = dst.toBits := by
  refine ⟨?_, ?_, ?_, ?_, ?_⟩
  · simp only [bitAt, encodeF8, asWord, BitVec.getLsbD_cast, BitVec.getLsbD_append, -Nat.reduceAdd]
    simp
  all_goals
    unfold field encodeF8 asWord
    ext i hi
    rw [BitVec.getElem_extractLsb']
    simp only [BitVec.getLsbD_cast, BitVec.getLsbD_append, -Nat.reduceAdd]
    interval_cases i <;> simp [BitVec.getLsbD_eq_getElem]

theorem fields_F9 (store : BitVec 1) (off : Word) (src dst : Reg) (wb : Width) :
    let w := encodeF9 store off src dst wb
    bitAt w 15 = true ∧ bitAt w 14 = decide (store = 1#1) ∧ bitAt w 6 = decide (wb.toBit = 1#1) ∧
      field w 7 7 = off.extractLsb' 0 7 ∧ field w 3 3 = src.toBits ∧ field w 0 3 = dst.toBits := by
  refine ⟨?_, ?_, ?_, ?_, ?_, ?_⟩
  iterate 3
    · simp only [bitAt, encodeF9, asWord, BitVec.getLsbD_cast, BitVec.getLsbD_append, -Nat.reduceAdd]
      simp [getElem_zero_of_one]
  all_goals
    unfold field encodeF9 asWord
    ext i hi
    rw [BitVec.getElem_extractLsb']
    simp only [BitVec.getLsbD_cast, BitVec.getLsbD_append, -Nat.reduceAdd]
    interval_cases i <;> simp [BitVec.getLsbD_eq_getElem]

/-! Offsets. -/

/-- A displacement in BL's range comes back from its 13 bits (R95). -/
theorem off13_roundtrip {off : Word} (h : blOffsetOk off = true) :
    (off.extractLsb' 1 13).signExtend 16 <<< 1 = off := by
  simp only [blOffsetOk, Bool.and_eq_true, beq_iff_eq, decide_eq_true_eq] at h
  have hlt := off.isLt
  rw [BitVec.toInt_eq_toNat_cond] at h
  apply BitVec.eq_of_toNat_eq
  rw [BitVec.toNat_shiftLeft, BitVec.toNat_signExtend, BitVec.toNat_setWidth, BitVec.msb_eq_decide,
    BitVec.extractLsb'_toNat, Nat.shiftRight_eq_div_pow, Nat.shiftLeft_eq]
  simp only [decide_eq_true_eq]
  split <;> omega

/-- A displacement in a conditional branch's range comes back from its 10 bits (R96). -/
theorem off10_roundtrip {off : Word} (h : branchOffsetOk off = true) :
    (off.extractLsb' 1 10).signExtend 16 <<< 1 = off := by
  simp only [branchOffsetOk, Bool.and_eq_true, beq_iff_eq, decide_eq_true_eq] at h
  have hlt := off.isLt
  rw [BitVec.toInt_eq_toNat_cond] at h
  apply BitVec.eq_of_toNat_eq
  rw [BitVec.toNat_shiftLeft, BitVec.toNat_signExtend, BitVec.toNat_setWidth, BitVec.msb_eq_decide,
    BitVec.extractLsb'_toNat, Nat.shiftRight_eq_div_pow, Nat.shiftLeft_eq]
  simp only [decide_eq_true_eq]
  split <;> omega

/-- A displacement in LDR's and STR's range comes back from its 7 bits (R97). -/
theorem off7_roundtrip {off : Word} (h : relOffsetOk off = true) : (off.extractLsb' 0 7).signExtend 16 = off := by
  simp only [relOffsetOk, Bool.and_eq_true, decide_eq_true_eq] at h
  have hlt := off.isLt
  rw [BitVec.toInt_eq_toNat_cond] at h
  apply BitVec.eq_of_toNat_eq
  rw [BitVec.toNat_signExtend, BitVec.toNat_setWidth, BitVec.msb_eq_decide, BitVec.extractLsb'_toNat,
    Nat.shiftRight_eq_div_pow]
  simp only [decide_eq_true_eq]
  split <;> omega

end Sys2Proof
end

