-- ==== Sys2Proof/Laws/State.lean ====
section
/-! SUPPORT. The small lemmas of State's updates: one per field per update, so that no proof unfolds a record update;
and what reading a register after writing one gives. -/

namespace Sys2Proof.Machine

/-! Registers. -/

@[simp] theorem Regs.get_set (f : Regs) (r q : Reg) (v : Word) :
    (f.set r v).get q = if q = r then v else f.get q := by
  cases r <;> cases q <;> rfl

theorem Regs.ext_get {f g : Regs} (h : ∀ r, f.get r = g.get r) : f = g := by
  cases f
  cases g
  simp only [Regs.mk.injEq]
  exact ⟨h .r0, h .r1, h .r2, h .r3, h .bp, h .lr, h .sp, h .pc⟩

@[simp] theorem Regs.set_get_self (f : Regs) (r : Reg) : f.set r (f.get r) = f := by
  cases r <;> rfl

@[simp] theorem State.reg_setReg (s : State) (r q : Reg) (v : Word) :
    (s.setReg r v).reg q = if q = r then v else s.reg q := Regs.get_set s.regs r q v

/-- A state whose registers are `s`'s reads as `s`. -/
theorem State.reg_congr {s t : State} (h : t.regs = s.regs) (q : Reg) : t.reg q = s.reg q := by
  unfold State.reg
  rw [h]

/-! `setReg`. -/

@[simp] theorem State.setReg_regs (s : State) (r : Reg) (v : Word) : (s.setReg r v).regs = s.regs.set r v := rfl

@[simp] theorem State.setReg_psw (s : State) (r : Reg) (v : Word) : (s.setReg r v).psw = s.psw := rfl

@[simp] theorem State.setReg_imem (s : State) (r : Reg) (v : Word) : (s.setReg r v).imem = s.imem := rfl

@[simp] theorem State.setReg_dmem (s : State) (r : Reg) (v : Word) : (s.setReg r v).dmem = s.dmem := rfl

@[simp] theorem State.setReg_imar (s : State) (r : Reg) (v : Word) : (s.setReg r v).imar = s.imar := rfl

@[simp] theorem State.setReg_ir (s : State) (r : Reg) (v : Word) : (s.setReg r v).ir = s.ir := rfl

@[simp] theorem State.setReg_di (s : State) (r : Reg) (v : Word) : (s.setReg r v).di = s.di := rfl

@[simp] theorem State.setReg_mem2 (s : State) (r : Reg) (v : Word) : (s.setReg r v).mem2 = s.mem2 := rfl

@[simp] theorem State.setReg_dbub (s : State) (r : Reg) (v : Word) : (s.setReg r v).dbub = s.dbub := rfl

@[simp] theorem State.setReg_xbub (s : State) (r : Reg) (v : Word) : (s.setReg r v).xbub = s.xbub := rfl

@[simp] theorem State.setReg_clk (s : State) (r : Reg) (v : Word) : (s.setReg r v).clk = s.clk := rfl

@[simp] theorem State.setReg_retired (s : State) (r : Reg) (v : Word) : (s.setReg r v).retired = s.retired := rfl

@[simp] theorem State.setReg_bkpt (s : State) (r : Reg) (v : Word) : (s.setReg r v).bkpt = s.bkpt := rfl

@[simp] theorem State.setReg_halted (s : State) (r : Reg) (v : Word) : (s.setReg r v).halted = s.halted := rfl

@[simp] theorem State.setReg_bitnumOor (s : State) (r : Reg) (v : Word) : (s.setReg r v).bitnumOor = s.bitnumOor := rfl

@[simp] theorem State.setReg_signal (s : State) (r : Reg) (v : Word) : (s.setReg r v).signal = s.signal := rfl

@[simp] theorem State.setReg_draws (s : State) (r : Reg) (v : Word) : (s.setReg r v).draws = s.draws := rfl

/-! `writeDest`. -/

@[simp] theorem State.writeDest_psw (s : State) (d : Reg) (v : Word) (wb : Width) : (s.writeDest d v wb).psw = s.psw := by cases wb <;> rfl

@[simp] theorem State.writeDest_imem (s : State) (d : Reg) (v : Word) (wb : Width) : (s.writeDest d v wb).imem = s.imem := by cases wb <;> rfl

@[simp] theorem State.writeDest_dmem (s : State) (d : Reg) (v : Word) (wb : Width) : (s.writeDest d v wb).dmem = s.dmem := by cases wb <;> rfl

@[simp] theorem State.writeDest_imar (s : State) (d : Reg) (v : Word) (wb : Width) : (s.writeDest d v wb).imar = s.imar := by cases wb <;> rfl

@[simp] theorem State.writeDest_ir (s : State) (d : Reg) (v : Word) (wb : Width) : (s.writeDest d v wb).ir = s.ir := by cases wb <;> rfl

@[simp] theorem State.writeDest_di (s : State) (d : Reg) (v : Word) (wb : Width) : (s.writeDest d v wb).di = s.di := by cases wb <;> rfl

@[simp] theorem State.writeDest_mem2 (s : State) (d : Reg) (v : Word) (wb : Width) : (s.writeDest d v wb).mem2 = s.mem2 := by cases wb <;> rfl

@[simp] theorem State.writeDest_dbub (s : State) (d : Reg) (v : Word) (wb : Width) : (s.writeDest d v wb).dbub = s.dbub := by cases wb <;> rfl

@[simp] theorem State.writeDest_xbub (s : State) (d : Reg) (v : Word) (wb : Width) : (s.writeDest d v wb).xbub = s.xbub := by cases wb <;> rfl

@[simp] theorem State.writeDest_clk (s : State) (d : Reg) (v : Word) (wb : Width) : (s.writeDest d v wb).clk = s.clk := by cases wb <;> rfl

@[simp] theorem State.writeDest_retired (s : State) (d : Reg) (v : Word) (wb : Width) : (s.writeDest d v wb).retired = s.retired := by cases wb <;> rfl

@[simp] theorem State.writeDest_bkpt (s : State) (d : Reg) (v : Word) (wb : Width) : (s.writeDest d v wb).bkpt = s.bkpt := by cases wb <;> rfl

@[simp] theorem State.writeDest_halted (s : State) (d : Reg) (v : Word) (wb : Width) : (s.writeDest d v wb).halted = s.halted := by cases wb <;> rfl

@[simp] theorem State.writeDest_bitnumOor (s : State) (d : Reg) (v : Word) (wb : Width) : (s.writeDest d v wb).bitnumOor = s.bitnumOor := by cases wb <;> rfl

@[simp] theorem State.writeDest_signal (s : State) (d : Reg) (v : Word) (wb : Width) : (s.writeDest d v wb).signal = s.signal := by cases wb <;> rfl

@[simp] theorem State.writeDest_draws (s : State) (d : Reg) (v : Word) (wb : Width) : (s.writeDest d v wb).draws = s.draws := by cases wb <;> rfl

/-! `setPsw`. -/

@[simp] theorem State.setPsw_regs (s : State) (p : Psw) : (s.setPsw p).regs = s.regs := rfl

@[simp] theorem State.setPsw_psw (s : State) (p : Psw) : (s.setPsw p).psw = p := rfl

@[simp] theorem State.setPsw_imem (s : State) (p : Psw) : (s.setPsw p).imem = s.imem := rfl

@[simp] theorem State.setPsw_dmem (s : State) (p : Psw) : (s.setPsw p).dmem = s.dmem := rfl

@[simp] theorem State.setPsw_imar (s : State) (p : Psw) : (s.setPsw p).imar = s.imar := rfl

@[simp] theorem State.setPsw_ir (s : State) (p : Psw) : (s.setPsw p).ir = s.ir := rfl

@[simp] theorem State.setPsw_di (s : State) (p : Psw) : (s.setPsw p).di = s.di := rfl

@[simp] theorem State.setPsw_mem2 (s : State) (p : Psw) : (s.setPsw p).mem2 = s.mem2 := rfl

@[simp] theorem State.setPsw_dbub (s : State) (p : Psw) : (s.setPsw p).dbub = s.dbub := rfl

@[simp] theorem State.setPsw_xbub (s : State) (p : Psw) : (s.setPsw p).xbub = s.xbub := rfl

@[simp] theorem State.setPsw_clk (s : State) (p : Psw) : (s.setPsw p).clk = s.clk := rfl

@[simp] theorem State.setPsw_retired (s : State) (p : Psw) : (s.setPsw p).retired = s.retired := rfl

@[simp] theorem State.setPsw_bkpt (s : State) (p : Psw) : (s.setPsw p).bkpt = s.bkpt := rfl

@[simp] theorem State.setPsw_halted (s : State) (p : Psw) : (s.setPsw p).halted = s.halted := rfl

@[simp] theorem State.setPsw_bitnumOor (s : State) (p : Psw) : (s.setPsw p).bitnumOor = s.bitnumOor := rfl

@[simp] theorem State.setPsw_signal (s : State) (p : Psw) : (s.setPsw p).signal = s.signal := rfl

@[simp] theorem State.setPsw_draws (s : State) (p : Psw) : (s.setPsw p).draws = s.draws := rfl

@[simp] theorem State.setPsw_reg (s : State) (p : Psw) (q : Reg) : (s.setPsw p).reg q = s.reg q := rfl

/-! `setSpace`. -/

@[simp] theorem State.setSpace_regs (s : State) (sp : Space) (m : Memory) : (s.setSpace sp m).regs = s.regs := by cases sp <;> rfl

@[simp] theorem State.setSpace_psw (s : State) (sp : Space) (m : Memory) : (s.setSpace sp m).psw = s.psw := by cases sp <;> rfl

@[simp] theorem State.setSpace_imar (s : State) (sp : Space) (m : Memory) : (s.setSpace sp m).imar = s.imar := by cases sp <;> rfl

@[simp] theorem State.setSpace_ir (s : State) (sp : Space) (m : Memory) : (s.setSpace sp m).ir = s.ir := by cases sp <;> rfl

@[simp] theorem State.setSpace_di (s : State) (sp : Space) (m : Memory) : (s.setSpace sp m).di = s.di := by cases sp <;> rfl

@[simp] theorem State.setSpace_mem2 (s : State) (sp : Space) (m : Memory) : (s.setSpace sp m).mem2 = s.mem2 := by cases sp <;> rfl

@[simp] theorem State.setSpace_dbub (s : State) (sp : Space) (m : Memory) : (s.setSpace sp m).dbub = s.dbub := by cases sp <;> rfl

@[simp] theorem State.setSpace_xbub (s : State) (sp : Space) (m : Memory) : (s.setSpace sp m).xbub = s.xbub := by cases sp <;> rfl

@[simp] theorem State.setSpace_clk (s : State) (sp : Space) (m : Memory) : (s.setSpace sp m).clk = s.clk := by cases sp <;> rfl

@[simp] theorem State.setSpace_retired (s : State) (sp : Space) (m : Memory) : (s.setSpace sp m).retired = s.retired := by cases sp <;> rfl

@[simp] theorem State.setSpace_bkpt (s : State) (sp : Space) (m : Memory) : (s.setSpace sp m).bkpt = s.bkpt := by cases sp <;> rfl

@[simp] theorem State.setSpace_halted (s : State) (sp : Space) (m : Memory) : (s.setSpace sp m).halted = s.halted := by cases sp <;> rfl

@[simp] theorem State.setSpace_bitnumOor (s : State) (sp : Space) (m : Memory) : (s.setSpace sp m).bitnumOor = s.bitnumOor := by cases sp <;> rfl

@[simp] theorem State.setSpace_signal (s : State) (sp : Space) (m : Memory) : (s.setSpace sp m).signal = s.signal := by cases sp <;> rfl

@[simp] theorem State.setSpace_draws (s : State) (sp : Space) (m : Memory) : (s.setSpace sp m).draws = s.draws := by cases sp <;> rfl

@[simp] theorem State.setSpace_reg (s : State) (sp : Space) (m : Memory) (q : Reg) : (s.setSpace sp m).reg q = s.reg q := by cases sp <;> rfl

/-! `memWrite`. -/

@[simp] theorem State.memWrite_regs (s : State) (sp : Space) (a : Word) (wb : Width) (v : Word) : (s.memWrite sp a wb v).regs = s.regs := by cases sp <;> rfl

@[simp] theorem State.memWrite_psw (s : State) (sp : Space) (a : Word) (wb : Width) (v : Word) : (s.memWrite sp a wb v).psw = s.psw := by cases sp <;> rfl

@[simp] theorem State.memWrite_imar (s : State) (sp : Space) (a : Word) (wb : Width) (v : Word) : (s.memWrite sp a wb v).imar = s.imar := by cases sp <;> rfl

@[simp] theorem State.memWrite_ir (s : State) (sp : Space) (a : Word) (wb : Width) (v : Word) : (s.memWrite sp a wb v).ir = s.ir := by cases sp <;> rfl

@[simp] theorem State.memWrite_di (s : State) (sp : Space) (a : Word) (wb : Width) (v : Word) : (s.memWrite sp a wb v).di = s.di := by cases sp <;> rfl

@[simp] theorem State.memWrite_mem2 (s : State) (sp : Space) (a : Word) (wb : Width) (v : Word) : (s.memWrite sp a wb v).mem2 = s.mem2 := by cases sp <;> rfl

@[simp] theorem State.memWrite_dbub (s : State) (sp : Space) (a : Word) (wb : Width) (v : Word) : (s.memWrite sp a wb v).dbub = s.dbub := by cases sp <;> rfl

@[simp] theorem State.memWrite_xbub (s : State) (sp : Space) (a : Word) (wb : Width) (v : Word) : (s.memWrite sp a wb v).xbub = s.xbub := by cases sp <;> rfl

@[simp] theorem State.memWrite_clk (s : State) (sp : Space) (a : Word) (wb : Width) (v : Word) : (s.memWrite sp a wb v).clk = s.clk := by cases sp <;> rfl

@[simp] theorem State.memWrite_retired (s : State) (sp : Space) (a : Word) (wb : Width) (v : Word) : (s.memWrite sp a wb v).retired = s.retired := by cases sp <;> rfl

@[simp] theorem State.memWrite_bkpt (s : State) (sp : Space) (a : Word) (wb : Width) (v : Word) : (s.memWrite sp a wb v).bkpt = s.bkpt := by cases sp <;> rfl

@[simp] theorem State.memWrite_halted (s : State) (sp : Space) (a : Word) (wb : Width) (v : Word) : (s.memWrite sp a wb v).halted = s.halted := by cases sp <;> rfl

@[simp] theorem State.memWrite_bitnumOor (s : State) (sp : Space) (a : Word) (wb : Width) (v : Word) : (s.memWrite sp a wb v).bitnumOor = s.bitnumOor := by cases sp <;> rfl

@[simp] theorem State.memWrite_signal (s : State) (sp : Space) (a : Word) (wb : Width) (v : Word) : (s.memWrite sp a wb v).signal = s.signal := by cases sp <;> rfl

@[simp] theorem State.memWrite_draws (s : State) (sp : Space) (a : Word) (wb : Width) (v : Word) : (s.memWrite sp a wb v).draws = s.draws := by cases sp <;> rfl

@[simp] theorem State.memWrite_reg (s : State) (sp : Space) (a : Word) (wb : Width) (v : Word) (q : Reg) : (s.memWrite sp a wb v).reg q = s.reg q := by cases sp <;> rfl

/-! `draw`. -/

@[simp] theorem State.draw_regs (s : State) : (s.draw.2).regs = s.regs := rfl

@[simp] theorem State.draw_psw (s : State) : (s.draw.2).psw = s.psw := rfl

@[simp] theorem State.draw_imem (s : State) : (s.draw.2).imem = s.imem := rfl

@[simp] theorem State.draw_dmem (s : State) : (s.draw.2).dmem = s.dmem := rfl

@[simp] theorem State.draw_imar (s : State) : (s.draw.2).imar = s.imar := rfl

@[simp] theorem State.draw_ir (s : State) : (s.draw.2).ir = s.ir := rfl

@[simp] theorem State.draw_di (s : State) : (s.draw.2).di = s.di := rfl

@[simp] theorem State.draw_mem2 (s : State) : (s.draw.2).mem2 = s.mem2 := rfl

@[simp] theorem State.draw_dbub (s : State) : (s.draw.2).dbub = s.dbub := rfl

@[simp] theorem State.draw_xbub (s : State) : (s.draw.2).xbub = s.xbub := rfl

@[simp] theorem State.draw_clk (s : State) : (s.draw.2).clk = s.clk := rfl

@[simp] theorem State.draw_retired (s : State) : (s.draw.2).retired = s.retired := rfl

@[simp] theorem State.draw_bkpt (s : State) : (s.draw.2).bkpt = s.bkpt := rfl

@[simp] theorem State.draw_halted (s : State) : (s.draw.2).halted = s.halted := rfl

@[simp] theorem State.draw_bitnumOor (s : State) : (s.draw.2).bitnumOor = s.bitnumOor := rfl

@[simp] theorem State.draw_signal (s : State) : (s.draw.2).signal = s.signal := rfl

@[simp] theorem State.draw_draws (s : State) : (s.draw.2).draws = s.draws + 1 := rfl

@[simp] theorem State.draw_reg (s : State) (q : Reg) : (s.draw.2).reg q = s.reg q := rfl

/-! `setPending`. -/

@[simp] theorem State.setPending_regs (s : State) (p : Pending) : (s.setPending p).regs = s.regs := rfl

@[simp] theorem State.setPending_psw (s : State) (p : Pending) : (s.setPending p).psw = s.psw := rfl

@[simp] theorem State.setPending_imem (s : State) (p : Pending) : (s.setPending p).imem = s.imem := rfl

@[simp] theorem State.setPending_dmem (s : State) (p : Pending) : (s.setPending p).dmem = s.dmem := rfl

@[simp] theorem State.setPending_imar (s : State) (p : Pending) : (s.setPending p).imar = s.imar := rfl

@[simp] theorem State.setPending_ir (s : State) (p : Pending) : (s.setPending p).ir = s.ir := rfl

@[simp] theorem State.setPending_di (s : State) (p : Pending) : (s.setPending p).di = s.di := rfl

@[simp] theorem State.setPending_mem2 (s : State) (p : Pending) : (s.setPending p).mem2 = some p := rfl

@[simp] theorem State.setPending_dbub (s : State) (p : Pending) : (s.setPending p).dbub = s.dbub := rfl

@[simp] theorem State.setPending_xbub (s : State) (p : Pending) : (s.setPending p).xbub = s.xbub := rfl

@[simp] theorem State.setPending_clk (s : State) (p : Pending) : (s.setPending p).clk = s.clk := rfl

@[simp] theorem State.setPending_retired (s : State) (p : Pending) : (s.setPending p).retired = s.retired := rfl

@[simp] theorem State.setPending_bkpt (s : State) (p : Pending) : (s.setPending p).bkpt = s.bkpt := rfl

@[simp] theorem State.setPending_halted (s : State) (p : Pending) : (s.setPending p).halted = s.halted := rfl

@[simp] theorem State.setPending_bitnumOor (s : State) (p : Pending) : (s.setPending p).bitnumOor = s.bitnumOor := rfl

@[simp] theorem State.setPending_signal (s : State) (p : Pending) : (s.setPending p).signal = s.signal := rfl

@[simp] theorem State.setPending_draws (s : State) (p : Pending) : (s.setPending p).draws = s.draws := rfl

@[simp] theorem State.setPending_reg (s : State) (p : Pending) (q : Reg) : (s.setPending p).reg q = s.reg q := rfl

/-! `takeBranch`. -/

@[simp] theorem State.takeBranch_regs (s : State) (off : Word) : (s.takeBranch off).regs = s.regs.set .pc (s.branchBase + off) := rfl

@[simp] theorem State.takeBranch_psw (s : State) (off : Word) : (s.takeBranch off).psw = s.psw := rfl

@[simp] theorem State.takeBranch_imem (s : State) (off : Word) : (s.takeBranch off).imem = s.imem := rfl

@[simp] theorem State.takeBranch_dmem (s : State) (off : Word) : (s.takeBranch off).dmem = s.dmem := rfl

@[simp] theorem State.takeBranch_imar (s : State) (off : Word) : (s.takeBranch off).imar = s.imar := rfl

@[simp] theorem State.takeBranch_ir (s : State) (off : Word) : (s.takeBranch off).ir = s.ir := rfl

@[simp] theorem State.takeBranch_di (s : State) (off : Word) : (s.takeBranch off).di = s.di := rfl

@[simp] theorem State.takeBranch_mem2 (s : State) (off : Word) : (s.takeBranch off).mem2 = s.mem2 := rfl

@[simp] theorem State.takeBranch_dbub (s : State) (off : Word) : (s.takeBranch off).dbub = true := rfl

@[simp] theorem State.takeBranch_xbub (s : State) (off : Word) : (s.takeBranch off).xbub = true := rfl

@[simp] theorem State.takeBranch_clk (s : State) (off : Word) : (s.takeBranch off).clk = s.clk := rfl

@[simp] theorem State.takeBranch_retired (s : State) (off : Word) : (s.takeBranch off).retired = s.retired := rfl

@[simp] theorem State.takeBranch_bkpt (s : State) (off : Word) : (s.takeBranch off).bkpt = s.bkpt := rfl

@[simp] theorem State.takeBranch_halted (s : State) (off : Word) : (s.takeBranch off).halted = s.halted := rfl

@[simp] theorem State.takeBranch_bitnumOor (s : State) (off : Word) : (s.takeBranch off).bitnumOor = s.bitnumOor := rfl

@[simp] theorem State.takeBranch_signal (s : State) (off : Word) : (s.takeBranch off).signal = s.signal := rfl

@[simp] theorem State.takeBranch_draws (s : State) (off : Word) : (s.takeBranch off).draws = s.draws := rfl

/-! `preAdjust`. -/

@[simp] theorem State.preAdjust_psw (s : State) (b : Bool) (r : Reg) (k : Word) : (s.preAdjust b r k).psw = s.psw := by cases b <;> rfl

@[simp] theorem State.preAdjust_imem (s : State) (b : Bool) (r : Reg) (k : Word) : (s.preAdjust b r k).imem = s.imem := by cases b <;> rfl

@[simp] theorem State.preAdjust_dmem (s : State) (b : Bool) (r : Reg) (k : Word) : (s.preAdjust b r k).dmem = s.dmem := by cases b <;> rfl

@[simp] theorem State.preAdjust_imar (s : State) (b : Bool) (r : Reg) (k : Word) : (s.preAdjust b r k).imar = s.imar := by cases b <;> rfl

@[simp] theorem State.preAdjust_ir (s : State) (b : Bool) (r : Reg) (k : Word) : (s.preAdjust b r k).ir = s.ir := by cases b <;> rfl

@[simp] theorem State.preAdjust_di (s : State) (b : Bool) (r : Reg) (k : Word) : (s.preAdjust b r k).di = s.di := by cases b <;> rfl

@[simp] theorem State.preAdjust_mem2 (s : State) (b : Bool) (r : Reg) (k : Word) : (s.preAdjust b r k).mem2 = s.mem2 := by cases b <;> rfl

@[simp] theorem State.preAdjust_dbub (s : State) (b : Bool) (r : Reg) (k : Word) : (s.preAdjust b r k).dbub = s.dbub := by cases b <;> rfl

@[simp] theorem State.preAdjust_xbub (s : State) (b : Bool) (r : Reg) (k : Word) : (s.preAdjust b r k).xbub = s.xbub := by cases b <;> rfl

@[simp] theorem State.preAdjust_clk (s : State) (b : Bool) (r : Reg) (k : Word) : (s.preAdjust b r k).clk = s.clk := by cases b <;> rfl

@[simp] theorem State.preAdjust_retired (s : State) (b : Bool) (r : Reg) (k : Word) : (s.preAdjust b r k).retired = s.retired := by cases b <;> rfl

@[simp] theorem State.preAdjust_bkpt (s : State) (b : Bool) (r : Reg) (k : Word) : (s.preAdjust b r k).bkpt = s.bkpt := by cases b <;> rfl

@[simp] theorem State.preAdjust_halted (s : State) (b : Bool) (r : Reg) (k : Word) : (s.preAdjust b r k).halted = s.halted := by cases b <;> rfl

@[simp] theorem State.preAdjust_bitnumOor (s : State) (b : Bool) (r : Reg) (k : Word) : (s.preAdjust b r k).bitnumOor = s.bitnumOor := by cases b <;> rfl

@[simp] theorem State.preAdjust_signal (s : State) (b : Bool) (r : Reg) (k : Word) : (s.preAdjust b r k).signal = s.signal := by cases b <;> rfl

@[simp] theorem State.preAdjust_draws (s : State) (b : Bool) (r : Reg) (k : Word) : (s.preAdjust b r k).draws = s.draws := by cases b <;> rfl

/-! `adjust`. -/

@[simp] theorem State.adjust_psw (s : State) (post : Option (Reg × Word)) : (s.adjust post).psw = s.psw := by cases post <;> rfl

@[simp] theorem State.adjust_imem (s : State) (post : Option (Reg × Word)) : (s.adjust post).imem = s.imem := by cases post <;> rfl

@[simp] theorem State.adjust_dmem (s : State) (post : Option (Reg × Word)) : (s.adjust post).dmem = s.dmem := by cases post <;> rfl

@[simp] theorem State.adjust_imar (s : State) (post : Option (Reg × Word)) : (s.adjust post).imar = s.imar := by cases post <;> rfl

@[simp] theorem State.adjust_ir (s : State) (post : Option (Reg × Word)) : (s.adjust post).ir = s.ir := by cases post <;> rfl

@[simp] theorem State.adjust_di (s : State) (post : Option (Reg × Word)) : (s.adjust post).di = s.di := by cases post <;> rfl

@[simp] theorem State.adjust_mem2 (s : State) (post : Option (Reg × Word)) : (s.adjust post).mem2 = s.mem2 := by cases post <;> rfl

@[simp] theorem State.adjust_dbub (s : State) (post : Option (Reg × Word)) : (s.adjust post).dbub = s.dbub := by cases post <;> rfl

@[simp] theorem State.adjust_xbub (s : State) (post : Option (Reg × Word)) : (s.adjust post).xbub = s.xbub := by cases post <;> rfl

@[simp] theorem State.adjust_clk (s : State) (post : Option (Reg × Word)) : (s.adjust post).clk = s.clk := by cases post <;> rfl

@[simp] theorem State.adjust_retired (s : State) (post : Option (Reg × Word)) : (s.adjust post).retired = s.retired := by cases post <;> rfl

@[simp] theorem State.adjust_bkpt (s : State) (post : Option (Reg × Word)) : (s.adjust post).bkpt = s.bkpt := by cases post <;> rfl

@[simp] theorem State.adjust_halted (s : State) (post : Option (Reg × Word)) : (s.adjust post).halted = s.halted := by cases post <;> rfl

@[simp] theorem State.adjust_bitnumOor (s : State) (post : Option (Reg × Word)) : (s.adjust post).bitnumOor = s.bitnumOor := by cases post <;> rfl

@[simp] theorem State.adjust_signal (s : State) (post : Option (Reg × Word)) : (s.adjust post).signal = s.signal := by cases post <;> rfl

@[simp] theorem State.adjust_draws (s : State) (post : Option (Reg × Word)) : (s.adjust post).draws = s.draws := by cases post <;> rfl

/-! `fetch1`. -/

@[simp] theorem State.fetch1_regs (s : State) : (s.fetch1).regs = s.regs.set .pc (s.reg .pc + 2#16) := rfl

@[simp] theorem State.fetch1_psw (s : State) : (s.fetch1).psw = s.psw := rfl

@[simp] theorem State.fetch1_imem (s : State) : (s.fetch1).imem = s.imem := rfl

@[simp] theorem State.fetch1_dmem (s : State) : (s.fetch1).dmem = s.dmem := rfl

@[simp] theorem State.fetch1_imar (s : State) : (s.fetch1).imar = s.reg .pc := rfl

@[simp] theorem State.fetch1_ir (s : State) : (s.fetch1).ir = s.ir := rfl

@[simp] theorem State.fetch1_di (s : State) : (s.fetch1).di = s.di := rfl

@[simp] theorem State.fetch1_mem2 (s : State) : (s.fetch1).mem2 = s.mem2 := rfl

@[simp] theorem State.fetch1_dbub (s : State) : (s.fetch1).dbub = s.dbub := rfl

@[simp] theorem State.fetch1_xbub (s : State) : (s.fetch1).xbub = s.xbub := rfl

@[simp] theorem State.fetch1_clk (s : State) : (s.fetch1).clk = s.clk := rfl

@[simp] theorem State.fetch1_retired (s : State) : (s.fetch1).retired = s.retired := rfl

@[simp] theorem State.fetch1_bkpt (s : State) : (s.fetch1).bkpt = s.bkpt := rfl

@[simp] theorem State.fetch1_halted (s : State) : (s.fetch1).halted = s.halted := rfl

@[simp] theorem State.fetch1_bitnumOor (s : State) : (s.fetch1).bitnumOor = s.bitnumOor := rfl

@[simp] theorem State.fetch1_signal (s : State) : (s.fetch1).signal = s.signal := rfl

@[simp] theorem State.fetch1_draws (s : State) : (s.fetch1).draws = s.draws := rfl

/-! `fetch2`. -/

@[simp] theorem State.fetch2_regs (s : State) : (s.fetch2).regs = s.regs := rfl

@[simp] theorem State.fetch2_psw (s : State) : (s.fetch2).psw = s.psw := rfl

@[simp] theorem State.fetch2_imem (s : State) : (s.fetch2).imem = s.imem := rfl

@[simp] theorem State.fetch2_dmem (s : State) : (s.fetch2).dmem = s.dmem := rfl

@[simp] theorem State.fetch2_imar (s : State) : (s.fetch2).imar = s.imar := rfl

@[simp] theorem State.fetch2_ir (s : State) : (s.fetch2).ir = .word (s.memRead .instruction s.imar .word) s.imar := rfl

@[simp] theorem State.fetch2_di (s : State) : (s.fetch2).di = s.di := rfl

@[simp] theorem State.fetch2_mem2 (s : State) : (s.fetch2).mem2 = s.mem2 := rfl

@[simp] theorem State.fetch2_dbub (s : State) : (s.fetch2).dbub = s.dbub := rfl

@[simp] theorem State.fetch2_xbub (s : State) : (s.fetch2).xbub = s.xbub := rfl

@[simp] theorem State.fetch2_clk (s : State) : (s.fetch2).clk = s.clk := rfl

@[simp] theorem State.fetch2_retired (s : State) : (s.fetch2).retired = s.retired := rfl

@[simp] theorem State.fetch2_bkpt (s : State) : (s.fetch2).bkpt = s.bkpt := rfl

@[simp] theorem State.fetch2_halted (s : State) : (s.fetch2).halted = s.halted := rfl

@[simp] theorem State.fetch2_bitnumOor (s : State) : (s.fetch2).bitnumOor = s.bitnumOor := rfl

@[simp] theorem State.fetch2_signal (s : State) : (s.fetch2).signal = s.signal := rfl

@[simp] theorem State.fetch2_draws (s : State) : (s.fetch2).draws = s.draws := rfl

@[simp] theorem State.fetch2_reg (s : State) (q : Reg) : (s.fetch2).reg q = s.reg q := rfl

/-! `decodePhase`. -/

@[simp] theorem State.decodePhase_regs (s : State) : (s.decodePhase).regs = s.regs := by unfold State.decodePhase; split <;> rfl

@[simp] theorem State.decodePhase_psw (s : State) : (s.decodePhase).psw = s.psw := by unfold State.decodePhase; split <;> rfl

@[simp] theorem State.decodePhase_imem (s : State) : (s.decodePhase).imem = s.imem := by unfold State.decodePhase; split <;> rfl

@[simp] theorem State.decodePhase_dmem (s : State) : (s.decodePhase).dmem = s.dmem := by unfold State.decodePhase; split <;> rfl

@[simp] theorem State.decodePhase_imar (s : State) : (s.decodePhase).imar = s.imar := by unfold State.decodePhase; split <;> rfl

@[simp] theorem State.decodePhase_ir (s : State) : (s.decodePhase).ir = s.ir := by unfold State.decodePhase; split <;> rfl

@[simp] theorem State.decodePhase_mem2 (s : State) : (s.decodePhase).mem2 = s.mem2 := by unfold State.decodePhase; split <;> rfl

@[simp] theorem State.decodePhase_dbub (s : State) : (s.decodePhase).dbub = s.dbub := by unfold State.decodePhase; split <;> rfl

@[simp] theorem State.decodePhase_xbub (s : State) : (s.decodePhase).xbub = s.xbub := by unfold State.decodePhase; split <;> rfl

@[simp] theorem State.decodePhase_clk (s : State) : (s.decodePhase).clk = s.clk := by unfold State.decodePhase; split <;> rfl

@[simp] theorem State.decodePhase_retired (s : State) : (s.decodePhase).retired = s.retired := by unfold State.decodePhase; split <;> rfl

@[simp] theorem State.decodePhase_bkpt (s : State) : (s.decodePhase).bkpt = s.bkpt := by unfold State.decodePhase; split <;> rfl

@[simp] theorem State.decodePhase_halted (s : State) : (s.decodePhase).halted = s.halted := by unfold State.decodePhase; split <;> rfl

@[simp] theorem State.decodePhase_bitnumOor (s : State) : (s.decodePhase).bitnumOor = s.bitnumOor := by unfold State.decodePhase; split <;> rfl

@[simp] theorem State.decodePhase_signal (s : State) : (s.decodePhase).signal = s.signal := by unfold State.decodePhase; split <;> rfl

@[simp] theorem State.decodePhase_draws (s : State) : (s.decodePhase).draws = s.draws := by unfold State.decodePhase; split <;> rfl

@[simp] theorem State.decodePhase_reg (s : State) (q : Reg) : (s.decodePhase).reg q = s.reg q := by unfold State.decodePhase; split <;> rfl

/-! `dbubTick`. -/

@[simp] theorem State.dbubTick_regs (s : State) : (s.dbubTick).regs = s.regs := rfl

@[simp] theorem State.dbubTick_psw (s : State) : (s.dbubTick).psw = s.psw := rfl

@[simp] theorem State.dbubTick_imem (s : State) : (s.dbubTick).imem = s.imem := rfl

@[simp] theorem State.dbubTick_dmem (s : State) : (s.dbubTick).dmem = s.dmem := rfl

@[simp] theorem State.dbubTick_imar (s : State) : (s.dbubTick).imar = s.imar := rfl

@[simp] theorem State.dbubTick_ir (s : State) : (s.dbubTick).ir = .bubble := rfl

@[simp] theorem State.dbubTick_di (s : State) : (s.dbubTick).di = .injectedNop := rfl

@[simp] theorem State.dbubTick_mem2 (s : State) : (s.dbubTick).mem2 = s.mem2 := rfl

@[simp] theorem State.dbubTick_dbub (s : State) : (s.dbubTick).dbub = false := rfl

@[simp] theorem State.dbubTick_xbub (s : State) : (s.dbubTick).xbub = s.xbub := rfl

@[simp] theorem State.dbubTick_clk (s : State) : (s.dbubTick).clk = s.clk := rfl

@[simp] theorem State.dbubTick_retired (s : State) : (s.dbubTick).retired = s.retired := rfl

@[simp] theorem State.dbubTick_bkpt (s : State) : (s.dbubTick).bkpt = s.bkpt := rfl

@[simp] theorem State.dbubTick_halted (s : State) : (s.dbubTick).halted = s.halted := rfl

@[simp] theorem State.dbubTick_bitnumOor (s : State) : (s.dbubTick).bitnumOor = s.bitnumOor := rfl

@[simp] theorem State.dbubTick_signal (s : State) : (s.dbubTick).signal = s.signal := rfl

@[simp] theorem State.dbubTick_draws (s : State) : (s.dbubTick).draws = s.draws := rfl

@[simp] theorem State.dbubTick_reg (s : State) (q : Reg) : (s.dbubTick).reg q = s.reg q := rfl

/-! `xbubTick`. -/

@[simp] theorem State.xbubTick_regs (s : State) : (s.xbubTick).regs = s.regs := rfl

@[simp] theorem State.xbubTick_psw (s : State) : (s.xbubTick).psw = s.psw := rfl

@[simp] theorem State.xbubTick_imem (s : State) : (s.xbubTick).imem = s.imem := rfl

@[simp] theorem State.xbubTick_dmem (s : State) : (s.xbubTick).dmem = s.dmem := rfl

@[simp] theorem State.xbubTick_imar (s : State) : (s.xbubTick).imar = s.imar := rfl

@[simp] theorem State.xbubTick_ir (s : State) : (s.xbubTick).ir = s.ir := rfl

@[simp] theorem State.xbubTick_di (s : State) : (s.xbubTick).di = s.di := rfl

@[simp] theorem State.xbubTick_mem2 (s : State) : (s.xbubTick).mem2 = s.mem2 := rfl

@[simp] theorem State.xbubTick_dbub (s : State) : (s.xbubTick).dbub = s.dbub := rfl

@[simp] theorem State.xbubTick_xbub (s : State) : (s.xbubTick).xbub = false := rfl

@[simp] theorem State.xbubTick_clk (s : State) : (s.xbubTick).clk = s.clk := rfl

@[simp] theorem State.xbubTick_retired (s : State) : (s.xbubTick).retired = s.retired := rfl

@[simp] theorem State.xbubTick_bkpt (s : State) : (s.xbubTick).bkpt = s.bkpt := rfl

@[simp] theorem State.xbubTick_halted (s : State) : (s.xbubTick).halted = s.halted := rfl

@[simp] theorem State.xbubTick_bitnumOor (s : State) : (s.xbubTick).bitnumOor = s.bitnumOor := rfl

@[simp] theorem State.xbubTick_signal (s : State) : (s.xbubTick).signal = s.signal := rfl

@[simp] theorem State.xbubTick_draws (s : State) : (s.xbubTick).draws = s.draws := rfl

@[simp] theorem State.xbubTick_reg (s : State) (q : Reg) : (s.xbubTick).reg q = s.reg q := rfl

/-! `retire`. -/

@[simp] theorem State.retire_regs (s : State) : (s.retire).regs = s.regs := by unfold State.retire; split <;> rfl

@[simp] theorem State.retire_psw (s : State) : (s.retire).psw = s.psw := by unfold State.retire; split <;> rfl

@[simp] theorem State.retire_imem (s : State) : (s.retire).imem = s.imem := by unfold State.retire; split <;> rfl

@[simp] theorem State.retire_dmem (s : State) : (s.retire).dmem = s.dmem := by unfold State.retire; split <;> rfl

@[simp] theorem State.retire_imar (s : State) : (s.retire).imar = s.imar := by unfold State.retire; split <;> rfl

@[simp] theorem State.retire_ir (s : State) : (s.retire).ir = s.ir := by unfold State.retire; split <;> rfl

@[simp] theorem State.retire_di (s : State) : (s.retire).di = s.di := by unfold State.retire; split <;> rfl

@[simp] theorem State.retire_mem2 (s : State) : (s.retire).mem2 = s.mem2 := by unfold State.retire; split <;> rfl

@[simp] theorem State.retire_dbub (s : State) : (s.retire).dbub = s.dbub := by unfold State.retire; split <;> rfl

@[simp] theorem State.retire_xbub (s : State) : (s.retire).xbub = s.xbub := by unfold State.retire; split <;> rfl

@[simp] theorem State.retire_clk (s : State) : (s.retire).clk = s.clk := by unfold State.retire; split <;> rfl

@[simp] theorem State.retire_bkpt (s : State) : (s.retire).bkpt = s.bkpt := by unfold State.retire; split <;> rfl

@[simp] theorem State.retire_bitnumOor (s : State) : (s.retire).bitnumOor = s.bitnumOor := by unfold State.retire; split <;> rfl

@[simp] theorem State.retire_signal (s : State) : (s.retire).signal = s.signal := by unfold State.retire; split <;> rfl

@[simp] theorem State.retire_draws (s : State) : (s.retire).draws = s.draws := by unfold State.retire; split <;> rfl

@[simp] theorem State.retire_reg (s : State) (q : Reg) : (s.retire).reg q = s.reg q := by unfold State.retire; split <;> rfl

/-! `signalUnrecognized`. -/

@[simp] theorem State.signalUnrecognized_regs (s : State) (w : Word) : (s.signalUnrecognized w).regs = s.regs := rfl

@[simp] theorem State.signalUnrecognized_psw (s : State) (w : Word) : (s.signalUnrecognized w).psw = s.psw := rfl

@[simp] theorem State.signalUnrecognized_imem (s : State) (w : Word) : (s.signalUnrecognized w).imem = s.imem := rfl

@[simp] theorem State.signalUnrecognized_dmem (s : State) (w : Word) : (s.signalUnrecognized w).dmem = s.dmem := rfl

@[simp] theorem State.signalUnrecognized_imar (s : State) (w : Word) : (s.signalUnrecognized w).imar = s.imar := rfl

@[simp] theorem State.signalUnrecognized_ir (s : State) (w : Word) : (s.signalUnrecognized w).ir = s.ir := rfl

@[simp] theorem State.signalUnrecognized_di (s : State) (w : Word) : (s.signalUnrecognized w).di = s.di := rfl

@[simp] theorem State.signalUnrecognized_mem2 (s : State) (w : Word) : (s.signalUnrecognized w).mem2 = s.mem2 := rfl

@[simp] theorem State.signalUnrecognized_dbub (s : State) (w : Word) : (s.signalUnrecognized w).dbub = s.dbub := rfl

@[simp] theorem State.signalUnrecognized_xbub (s : State) (w : Word) : (s.signalUnrecognized w).xbub = s.xbub := rfl

@[simp] theorem State.signalUnrecognized_clk (s : State) (w : Word) : (s.signalUnrecognized w).clk = s.clk := rfl

@[simp] theorem State.signalUnrecognized_retired (s : State) (w : Word) : (s.signalUnrecognized w).retired = s.retired := rfl

@[simp] theorem State.signalUnrecognized_bkpt (s : State) (w : Word) : (s.signalUnrecognized w).bkpt = s.bkpt := rfl

@[simp] theorem State.signalUnrecognized_halted (s : State) (w : Word) : (s.signalUnrecognized w).halted = s.halted := rfl

@[simp] theorem State.signalUnrecognized_bitnumOor (s : State) (w : Word) : (s.signalUnrecognized w).bitnumOor = s.bitnumOor := rfl

@[simp] theorem State.signalUnrecognized_signal (s : State) (w : Word) : (s.signalUnrecognized w).signal = s.di.addr.map fun a => (w, a) := rfl

@[simp] theorem State.signalUnrecognized_draws (s : State) (w : Word) : (s.signalUnrecognized w).draws = s.draws := rfl

@[simp] theorem State.signalUnrecognized_reg (s : State) (w : Word) (q : Reg) : (s.signalUnrecognized w).reg q = s.reg q := rfl

/-! `beginTick`. -/

@[simp] theorem State.beginTick_regs (s : State) : (s.beginTick).regs = s.regs := rfl

@[simp] theorem State.beginTick_psw (s : State) : (s.beginTick).psw = s.psw := rfl

@[simp] theorem State.beginTick_imem (s : State) : (s.beginTick).imem = s.imem := rfl

@[simp] theorem State.beginTick_dmem (s : State) : (s.beginTick).dmem = s.dmem := rfl

@[simp] theorem State.beginTick_imar (s : State) : (s.beginTick).imar = s.imar := rfl

@[simp] theorem State.beginTick_ir (s : State) : (s.beginTick).ir = s.ir := rfl

@[simp] theorem State.beginTick_di (s : State) : (s.beginTick).di = s.di := rfl

@[simp] theorem State.beginTick_mem2 (s : State) : (s.beginTick).mem2 = s.mem2 := rfl

@[simp] theorem State.beginTick_dbub (s : State) : (s.beginTick).dbub = s.dbub := rfl

@[simp] theorem State.beginTick_xbub (s : State) : (s.beginTick).xbub = s.xbub := rfl

@[simp] theorem State.beginTick_clk (s : State) : (s.beginTick).clk = s.clk := rfl

@[simp] theorem State.beginTick_retired (s : State) : (s.beginTick).retired = s.retired := rfl

@[simp] theorem State.beginTick_bkpt (s : State) : (s.beginTick).bkpt = s.bkpt := rfl

@[simp] theorem State.beginTick_halted (s : State) : (s.beginTick).halted = s.halted := rfl

@[simp] theorem State.beginTick_bitnumOor (s : State) : (s.beginTick).bitnumOor = s.bitnumOor := rfl

@[simp] theorem State.beginTick_signal (s : State) : (s.beginTick).signal = none := rfl

@[simp] theorem State.beginTick_draws (s : State) : (s.beginTick).draws = s.draws := rfl

@[simp] theorem State.beginTick_reg (s : State) (q : Reg) : (s.beginTick).reg q = s.reg q := rfl

/-! `endTick`. -/

@[simp] theorem State.endTick_regs (s : State) : (s.endTick).regs = s.regs := rfl

@[simp] theorem State.endTick_psw (s : State) : (s.endTick).psw = s.psw := rfl

@[simp] theorem State.endTick_imem (s : State) : (s.endTick).imem = s.imem := rfl

@[simp] theorem State.endTick_dmem (s : State) : (s.endTick).dmem = s.dmem := rfl

@[simp] theorem State.endTick_imar (s : State) : (s.endTick).imar = s.imar := rfl

@[simp] theorem State.endTick_ir (s : State) : (s.endTick).ir = s.ir := rfl

@[simp] theorem State.endTick_di (s : State) : (s.endTick).di = s.di := rfl

@[simp] theorem State.endTick_mem2 (s : State) : (s.endTick).mem2 = s.mem2 := rfl

@[simp] theorem State.endTick_dbub (s : State) : (s.endTick).dbub = s.dbub := rfl

@[simp] theorem State.endTick_xbub (s : State) : (s.endTick).xbub = s.xbub := rfl

@[simp] theorem State.endTick_clk (s : State) : (s.endTick).clk = s.clk + 1 := rfl

@[simp] theorem State.endTick_retired (s : State) : (s.endTick).retired = s.retired := rfl

@[simp] theorem State.endTick_bkpt (s : State) : (s.endTick).bkpt = s.bkpt := rfl

@[simp] theorem State.endTick_halted (s : State) : (s.endTick).halted = s.halted := rfl

@[simp] theorem State.endTick_bitnumOor (s : State) : (s.endTick).bitnumOor = s.bitnumOor := rfl

@[simp] theorem State.endTick_signal (s : State) : (s.endTick).signal = s.signal := rfl

@[simp] theorem State.endTick_draws (s : State) : (s.endTick).draws = s.draws := rfl

@[simp] theorem State.endTick_reg (s : State) (q : Reg) : (s.endTick).reg q = s.reg q := rfl

/-! What the compound updates do to registers. -/

@[simp] theorem State.fetch1_reg (s : State) (q : Reg) :
    s.fetch1.reg q = if q = .pc then s.reg .pc + 2#16 else s.reg q := State.reg_setReg s .pc q _

@[simp] theorem State.takeBranch_reg (s : State) (off : Word) (q : Reg) :
    (s.takeBranch off).reg q = if q = .pc then s.branchBase + off else s.reg q := State.reg_setReg s .pc q _

@[simp] theorem State.preAdjust_reg (s : State) (b : Bool) (r q : Reg) (k : Word) :
    (s.preAdjust b r k).reg q = if b = true ∧ q = r then s.reg r + k else s.reg q := by
  cases b <;> simp [State.preAdjust]

/-- Only the register of the adjustment changes, by its step (45_load_store.md R259). -/
@[simp] theorem State.adjust_reg (s : State) (post : Option (Reg × Word)) (q : Reg) :
    (s.adjust post).reg q = match post with
      | none => s.reg q
      | some (r, k) => if q = r then s.reg r + k else s.reg q := by
  cases post <;> simp [State.adjust]

/-- `wr` changes the destination only (00_scope.md R13). -/
@[simp] theorem State.writeDest_reg_of_ne (s : State) (d q : Reg) (v : Word) (wb : Width) (h : q ≠ d) :
    (s.writeDest d v wb).reg q = s.reg q := by
  cases wb <;> simp [State.writeDest, h]

/-- `wr` in word mode writes the value. -/
@[simp] theorem State.writeDest_word (s : State) (d : Reg) (v : Word) : s.writeDest d v .word = s.setReg d v := by
  have h : v &&& 0xFFFF#16 = v := BitVec.and_allOnes
  simp [State.writeDest, h]

/-! `space` reads the memory it names. -/

@[simp] theorem State.space_setSpace (s : State) (sp sq : Space) (m : Memory) :
    (s.setSpace sp m).space sq = if sq = sp then m else s.space sq := by
  cases sp <;> cases sq <;> rfl

end Sys2Proof.Machine
end

