-- ==== Sys2Proof/Laws/Memory.lean ====
section
/-! SUPPORT. The laws of memory: a read after a write, the canonical form kept by every operation, equal memories from
equal bytes, and the bytes of a word. -/

namespace Sys2Proof.Machine

/-- Every listed address of a memory in canonical form is at least the first one's. -/
theorem Memory.wf_tail {c : Host.Cell} {m : Memory} (h : Memory.wf (c :: m) = true) : Memory.wf m = true := by
  cases m with
  | nil => rfl
  | cons d rest =>
    obtain ⟨a, v⟩ := c
    obtain ⟨b, u⟩ := d
    simp only [Memory.wf, Bool.and_eq_true] at h
    exact h.2

/-- The head of a canonical memory: a byte other than 0 at an address inside the space. -/
theorem Memory.wf_head {a : Nat} {v : Byte} {m : Memory} (h : Memory.wf ((a, v) :: m) = true) :
    a < 65536 ∧ v ≠ 0#8 := by
  induction m generalizing a v with
  | nil =>
    simpa [Memory.wf] using h
  | cons d rest ih =>
    obtain ⟨b, u⟩ := d
    have ht := ih (Memory.wf_tail h)
    simp only [Memory.wf, Bool.and_eq_true, decide_eq_true_eq, bne_iff_ne, ne_eq] at h
    exact ⟨by omega, h.1.2⟩

/-- Below the first listed address a canonical memory reads 0. -/
theorem Memory.read_below {a b : Nat} {v : Byte} {m : Memory} (h : Memory.wf ((b, v) :: m) = true) (hab : a < b) :
    Memory.read ((b, v) :: m) a = 0#8 := by
  induction m generalizing b v with
  | nil =>
    simp only [Memory.read, if_neg (Nat.ne_of_lt hab)]
  | cons d rest ih =>
    obtain ⟨c, u⟩ := d
    have hbc : b < c := by
      simp only [Memory.wf, Bool.and_eq_true, decide_eq_true_eq] at h
      exact h.1.1
    rw [Memory.read, if_neg (Nat.ne_of_lt hab)]
    exact ih (Memory.wf_tail h) (Nat.lt_trans hab hbc)

/-- The rest of a canonical memory reads 0 up to its first address. -/
theorem Memory.read_tail_le {a b : Nat} {v : Byte} {m : Memory} (h : Memory.wf ((b, v) :: m) = true) (hab : a ≤ b) :
    Memory.read m a = 0#8 := by
  cases m with
  | nil => rfl
  | cons d rest =>
    obtain ⟨c, u⟩ := d
    have hbc : b < c := by
      simp only [Memory.wf, Bool.and_eq_true, decide_eq_true_eq] at h
      exact h.1.1
    exact Memory.read_below (Memory.wf_tail h) (by omega)

/-- A canonical memory may be extended at the front by a smaller address. -/
theorem Memory.wf_cons {a : Nat} {v : Byte} {m : Memory} (hm : Memory.wf m = true) (ha : a < 65536) (hv : v ≠ 0#8)
    (hlt : ∀ c ∈ m.head?, a < c.1) : Memory.wf ((a, v) :: m) = true := by
  cases m with
  | nil => simp [Memory.wf, ha, hv]
  | cons d rest =>
    obtain ⟨b, u⟩ := d
    have : a < b := hlt (b, u) rfl
    simp only [Memory.wf, Bool.and_eq_true, decide_eq_true_eq, bne_iff_ne, ne_eq]
    exact ⟨⟨this, hv⟩, hm⟩

/-- The first address of what a write leaves is not below the smaller of the old first and the written address. -/
theorem Memory.write_head {m : Memory} {a k : Nat} {v : Byte} (hm : Memory.wf m = true) (hk : k < a)
    (hlt : ∀ c ∈ m.head?, k < c.1) : ∀ c ∈ (Memory.write m a v).head?, k < c.1 := by
  cases m with
  | nil =>
    intro c hc
    unfold Memory.write at hc
    split at hc
    · simp at hc
    · simp only [List.head?_cons, Option.mem_def, Option.some.injEq] at hc
      exact hc ▸ hk
  | cons d rest =>
    obtain ⟨b, u⟩ := d
    have hkb : k < b := hlt (b, u) rfl
    intro c hc
    unfold Memory.write at hc
    split at hc
    · split at hc <;> simp only [List.head?_cons, Option.mem_def, Option.some.injEq] at hc <;> subst hc <;> assumption
    · split at hc
      · split at hc
        · cases rest with
          | nil => simp at hc
          | cons e rest' =>
            obtain ⟨e1, e2⟩ := e
            have : b < e1 := by
              simp only [Memory.wf, Bool.and_eq_true, decide_eq_true_eq] at hm
              exact hm.1.1
            simp only [List.head?_cons, Option.mem_def, Option.some.injEq] at hc
            subst hc
            exact Nat.lt_trans hkb this
        · simp only [List.head?_cons, Option.mem_def, Option.some.injEq] at hc
          subst hc
          exact hk
      · simp only [List.head?_cons, Option.mem_def, Option.some.injEq] at hc
        subst hc
        exact hkb

/-- A write keeps the canonical form. -/
theorem Memory.wf_write {m : Memory} {a : Nat} {v : Byte} (hm : Memory.wf m = true) (ha : a < 65536) :
    Memory.wf (Memory.write m a v) = true := by
  induction m with
  | nil =>
    unfold Memory.write
    split
    · rfl
    · exact Memory.wf_cons rfl ha ‹_› (by simp)
  | cons d rest ih =>
    obtain ⟨b, u⟩ := d
    have hrest := Memory.wf_tail hm
    have hhead := Memory.wf_head hm
    have hlt : ∀ c ∈ rest.head?, b < c.1 := by
      intro c hc
      cases rest with
      | nil => simp at hc
      | cons e rest' =>
        obtain ⟨e1, e2⟩ := e
        simp only [List.head?_cons, Option.mem_def, Option.some.injEq] at hc
        subst hc
        simp only [Memory.wf, Bool.and_eq_true, decide_eq_true_eq] at hm
        exact hm.1.1
    unfold Memory.write
    split
    · split
      · exact hm
      · exact Memory.wf_cons hm ha ‹_› (by simpa using ‹a < b›)
    · split
      · split
        · exact hrest
        · exact Memory.wf_cons hrest ha ‹_› (by intro c hc; have := hlt c hc; omega)
      · exact Memory.wf_cons (ih hrest) hhead.1 hhead.2 (Memory.write_head hrest (by omega) hlt)

/-- A read after a write: the written byte at its address, every other byte as before. -/
theorem Memory.read_write {m : Memory} (hm : Memory.wf m = true) (a b : Nat) (v : Byte) :
    Memory.read (Memory.write m a v) b = if b = a then v else Memory.read m b := by
  induction m with
  | nil =>
    unfold Memory.write
    split
    · subst v
      simp [Memory.read]
    · simp [Memory.read]
  | cons d rest ih =>
    obtain ⟨c, u⟩ := d
    have ih := ih (Memory.wf_tail hm)
    unfold Memory.write
    split
    · split
      · split
        · subst b v
          exact Memory.read_below hm ‹_›
        · rfl
      · rw [Memory.read]
    · split
      · subst c
        split
        · split
          · subst b v
            exact Memory.read_tail_le hm (Nat.le_refl _)
          · rw [Memory.read, if_neg ‹_›]
        · simp only [Memory.read]
          split <;> rfl
      · simp only [Memory.read, ih]
        split
        · rw [if_neg (by omega)]
        · rfl

/-- Canonical memories with the same bytes are the same list. -/
theorem Memory.ext_read {m n : Memory} (hm : Memory.wf m = true) (hn : Memory.wf n = true)
    (h : ∀ a, Memory.read m a = Memory.read n a) : m = n := by
  induction m generalizing n with
  | nil =>
    cases n with
    | nil => rfl
    | cons d rest =>
      obtain ⟨b, u⟩ := d
      have := h b
      simp only [Memory.read, if_true] at this
      exact absurd this.symm (Memory.wf_head hn).2
  | cons d rest ih =>
    obtain ⟨a, v⟩ := d
    cases n with
    | nil =>
      have := h a
      simp only [Memory.read, if_true] at this
      exact absurd this (Memory.wf_head hm).2
    | cons e rest' =>
      obtain ⟨b, u⟩ := e
      have hab : a = b := by
        rcases Nat.lt_trichotomy a b with hlt | heq | hgt
        · have := h a
          rw [Memory.read_below hn hlt] at this
          simp only [Memory.read, if_true] at this
          exact absurd this (Memory.wf_head hm).2
        · exact heq
        · have := h b
          rw [Memory.read_below hm hgt] at this
          simp only [Memory.read, if_true] at this
          exact absurd this.symm (Memory.wf_head hn).2
      subst hab
      have hvu : v = u := by
        have := h a
        simpa only [Memory.read, if_true] using this
      subst hvu
      congr 1
      refine ih (Memory.wf_tail hm) (Memory.wf_tail hn) fun c => ?_
      by_cases hc : c = a
      · subst hc
        rw [Memory.read_tail_le hm (Nat.le_refl _), Memory.read_tail_le hn (Nat.le_refl _)]
      · have := h c
        simpa only [Memory.read, if_neg hc] using this

/-! Words. -/

/-- The aligned address as a number (20_memory.md R55). -/
theorem alignWord_toNat (a : Word) : (alignWord a).toNat = a.toNat / 2 * 2 := by
  have h : alignWord a = (a >>> 1) <<< 1 := by
    have key : ∀ i : Fin 16, (0xFFFE#16)[i] = decide (0 < i.val) := by decide
    unfold alignWord
    ext i hi
    have : (0xFFFE#16)[i] = decide (0 < i) := key ⟨i, hi⟩
    simp only [BitVec.getElem_and, this, BitVec.getElem_shiftLeft]
    rcases i with _ | j
    · simp
    · simp [BitVec.getLsbD_eq_getElem hi, Nat.add_comm 1 j]
  rw [h, BitVec.toNat_shiftLeft, BitVec.toNat_ushiftRight]
  have := a.isLt
  simp only [Nat.shiftRight_eq_div_pow, Nat.shiftLeft_eq, Nat.pow_one]
  omega

/-- A word access stays inside the space (20_memory.md R64). -/
theorem alignWord_succ_lt (a : Word) : (alignWord a).toNat + 1 < 65536 := by
  have := a.isLt
  rw [alignWord_toNat]
  omega

@[simp] theorem wordOfBytes_toNat (lo hi : Byte) : (wordOfBytes lo hi).toNat = hi.toNat * 256 + lo.toNat := by
  unfold wordOfBytes
  have := lo.isLt
  rw [BitVec.toNat_append, ← Nat.shiftLeft_add_eq_or_of_lt this, Nat.shiftLeft_eq]

/-- The bytes of a word make the word (20_memory.md R54). -/
@[simp] theorem wordOfBytes_split (v : Word) : wordOfBytes (v.extractLsb' 0 8) (v.extractLsb' 8 8) = v := by
  unfold wordOfBytes
  ext i hi
  simp only [BitVec.getElem_append, BitVec.getElem_extractLsb']
  split
  · simp [BitVec.getLsbD_eq_getElem hi]
  · have : 8 + (i - 8) = i := by omega
    simp [this, BitVec.getLsbD_eq_getElem hi]

/-- A bit of a word, from its bytes (20_memory.md R54). -/
theorem wordOfBytes_getElem (lo hi : Byte) (i : Nat) (h : i < 16) :
    (wordOfBytes lo hi)[i] = if i < 8 then lo.getLsbD i else hi.getLsbD (i - 8) := by
  unfold wordOfBytes
  rw [← BitVec.getLsbD_eq_getElem, BitVec.getLsbD_append]

/-- The two parts of a byte write-back are the two bytes of a word (00_scope.md R13). -/
theorem byteMerge_eq (x v : Word) :
    (x &&& 0xFF00#16) ||| (v &&& 0x00FF#16) = wordOfBytes (v.extractLsb' 0 8) (x.extractLsb' 8 8) := by
  ext i hi
  rw [wordOfBytes_getElem]
  simp only [BitVec.getElem_or, BitVec.getElem_and]
  interval_cases i <;> simp

/-- The written destination as a number: the low byte replaced in byte mode (00_scope.md R13). -/
theorem State.writeDest_toNat (s : State) (d : Reg) (v : Word) (wb : Width) :
    ((s.writeDest d v wb).reg d).toNat =
      match wb with
      | .word => v.toNat
      | .byte => (s.reg d).toNat / 256 * 256 + v.toNat % 256 := by
  cases wb
  · simp
  · simp only [State.writeDest, State.reg_setReg, if_true]
    rw [byteMerge_eq, wordOfBytes_toNat, BitVec.extractLsb'_toNat, BitVec.extractLsb'_toNat]
    have := (s.reg d).isLt
    simp only [Nat.shiftRight_eq_div_pow]
    omega

/-- A word read as a number (20_memory.md R55). -/
theorem Memory.readWidth_word_toNat (m : Memory) (a : Word) :
    (m.readWidth a .word).toNat =
      (m.read (a.toNat / 2 * 2)).toNat + 256 * (m.read (a.toNat / 2 * 2 + 1)).toNat := by
  simp only [Memory.readWidth, wordOfBytes_toNat, alignWord_toNat]
  omega

/-- A byte read as a number: zero-extended (20_memory.md R55). -/
theorem Memory.readWidth_byte_toNat (m : Memory) (a : Word) :
    (m.readWidth a .byte).toNat = (m.read a.toNat).toNat := by
  have := (m.read a.toNat).isLt
  simp only [Memory.readWidth, BitVec.truncate_eq_setWidth, BitVec.toNat_setWidth]
  omega

/-- A byte write, read byte by byte (20_memory.md R57). -/
theorem Memory.read_writeWidth_byte {m : Memory} (hm : Memory.wf m = true) (a v : Word) (b : Nat) :
    Memory.read (Memory.writeWidth m a .byte v) b = if b = a.toNat then v.extractLsb' 0 8 else Memory.read m b :=
  Memory.read_write hm _ _ _

/-- A word write, read byte by byte (20_memory.md R57). -/
theorem Memory.read_writeWidth_word {m : Memory} (hm : Memory.wf m = true) (a v : Word) (b : Nat) :
    Memory.read (Memory.writeWidth m a .word v) b =
      if b = (alignWord a).toNat then v.extractLsb' 0 8
      else if b = (alignWord a).toNat + 1 then v.extractLsb' 8 8 else Memory.read m b := by
  have h1 := alignWord_succ_lt a
  unfold Memory.writeWidth
  rw [Memory.read_write (Memory.wf_write hm (by omega)), Memory.read_write hm]
  split
  · rw [if_neg (by omega)]
  · rfl

/-- A word read back at any address of the word it was written at is that word (20_memory.md R55). -/
theorem Memory.readWidth_writeWidth_word {m : Memory} (hm : Memory.wf m = true) {a b : Word}
    (h : a.toNat / 2 * 2 = b.toNat / 2 * 2) (v : Word) : (m.writeWidth b .word v).readWidth a .word = v := by
  have hab : alignWord a = alignWord b := by
    apply BitVec.eq_of_toNat_eq
    simpa only [alignWord_toNat] using h
  simp [Memory.readWidth, hab, Memory.read_writeWidth_word hm]

/-- A write of either width keeps the canonical form. -/
theorem Memory.wf_writeWidth {m : Memory} (hm : Memory.wf m = true) (a : Word) (wb : Width) (v : Word) :
    Memory.wf (Memory.writeWidth m a wb v) = true := by
  have h1 := alignWord_succ_lt a
  cases wb with
  | byte => exact Memory.wf_write hm a.isLt
  | word => exact Memory.wf_write (Memory.wf_write hm (by omega)) h1

/-- A loader's image keeps the canonical form. -/
theorem Memory.wf_load {m : Memory} (hm : Memory.wf m = true) (image : List (Word × Byte)) :
    Memory.wf (Memory.load m image) = true := by
  unfold Memory.load
  induction image generalizing m with
  | nil => exact hm
  | cons c rest ih => exact ih (Memory.wf_write hm c.1.isLt)

end Sys2Proof.Machine
end

