-- ==== Sys2Proof/Laws/Exec.lean ====
section
/-! SUPPORT. What the shared operations of the meanings can do, and from it what EXEC1 of any instruction can do: which
fields it never touches, when it refuses, and that it never faults. -/

namespace Sys2Proof.Machine

/-! Results of the shared operations. -/

/-- An arithmetic result: the written destination, then the arithmetic rule (R150, R131). -/
@[simp] theorem State.arithResult_eq (s : State) (dst : Reg) (wb : Width) (a d r : Word) :
    s.arithResult dst wb a d r = (s.writeDest dst r wb).setPsw (s.psw.arith wb a d r) := by
  simp [State.arithResult, State.arithFlags]

/-- A logic result: the written destination, then the logical rule (R150, R133). -/
@[simp] theorem State.logicResult_eq (s : State) (dst : Reg) (wb : Width) (r : Word) :
    s.logicResult dst wb r = (s.writeDest dst r wb).setPsw (s.psw.logic wb r) := by
  simp [State.logicResult, State.logicFlags]

/-- A bit instruction completes with its result, or, under BITNUM_OOR = ANY with an out-of-range bit number, with a
draw (R151). -/
theorem State.bitInstr_next {s t : State} {src : Source} {wb : Width} {r : Word} {finish : State → Word → State}
    (h : s.bitInstr src wb r finish = .next t) :
    t = finish s r ∨
      (s.bitnumOor = .any ∧ widthBits wb ≤ (s.sourceOperand src wb).toNat ∧
        t = finish s.draw.2 (s.draw.1 &&& widthMask wb)) := by
  unfold State.bitInstr bitResult at h
  split at h
  · next hr =>
    simp only [Host.Outcome.next.injEq] at h
    left
    split at hr
    · simp only [BitResult.value.injEq] at hr
      rw [← h, hr]
    · split at hr <;> simp only [BitResult.value.injEq, reduceCtorEq] at hr
      rw [← h, hr]
  · next hr =>
    simp only [Host.Outcome.next.injEq] at h
    right
    split at hr
    · simp at hr
    · next hlt =>
      split at hr <;> simp only [reduceCtorEq] at hr
      next hany => exact ⟨hany, Nat.le_of_not_lt hlt, h.symm⟩
  · simp at h

/-- Where the bit number is defined, a bit instruction completes with its result (R151). -/
theorem State.bitInstr_defined {s : State} {src : Source} {wb : Width} (r : Word) (finish : State → Word → State)
    (h : s.bitnumOor = .mask ∨ (s.sourceOperand src wb).toNat < widthBits wb) :
    s.bitInstr src wb r finish = .next (finish s r) := by
  unfold State.bitInstr bitResult
  rcases h with h | h
  · simp [h]
  · simp [h]

/-- With an out-of-range bit number, ANY draws the result (R151). -/
theorem State.bitInstr_any {s : State} {src : Source} {wb : Width} (r : Word) (finish : State → Word → State)
    (hany : s.bitnumOor = .any) (h : widthBits wb ≤ (s.sourceOperand src wb).toNat) :
    s.bitInstr src wb r finish = .next (finish s.draw.2 (s.draw.1 &&& widthMask wb)) := by
  unfold State.bitInstr bitResult
  simp [hany, Nat.not_lt.mpr h]

/-- With an out-of-range bit number, REFUSE refuses (R151). -/
theorem State.bitInstr_refuse {s : State} {src : Source} {wb : Width} (r : Word) (finish : State → Word → State)
    (hr : s.bitnumOor = .refuse) (h : widthBits wb ≤ (s.sourceOperand src wb).toNat) :
    s.bitInstr src wb r finish = .refused .bitNumberOutOfRange := by
  unfold State.bitInstr bitResult
  simp [hr, Nat.not_lt.mpr h]

/-- A bit instruction is refused with an out-of-range bit number under BITNUM_OOR = REFUSE only, and never faults. -/
theorem State.bitInstr_stops {s : State} {src : Source} {wb : Width} {r : Word} {finish : State → Word → State} :
    (∀ f, s.bitInstr src wb r finish ≠ .fault f) ∧
      (∀ q, s.bitInstr src wb r finish = .refused q → q = .bitNumberOutOfRange ∧ s.bitnumOor = .refuse ∧
        widthBits wb ≤ (s.sourceOperand src wb).toNat) := by
  unfold State.bitInstr bitResult
  constructor
  · intro f h
    split at h <;> simp at h
  · intro q h
    split at h
    · simp at h
    · simp at h
    · next hr =>
      simp only [Host.Outcome.refused.injEq] at h
      split at hr
      · simp at hr
      · next hlt =>
        split at hr <;> simp only [reduceCtorEq] at hr
        next hp => exact ⟨h.symm, hp, Nat.le_of_not_lt hlt⟩

/-- The step table's only gap is INC = DEC = 1 (R256). -/
theorem stepTable_eq_none {wb : Width} {dec inc : Bool} : stepTable wb dec inc = none ↔ dec = true ∧ inc = true := by
  cases dec <;> cases inc <;> simp [stepTable]

/-! EXEC1 of any instruction. -/

/-- The fields EXEC1 of no instruction touches: both memories, the fetch and decode latches, the clock, the retirement
and breakpoint state, the launch parameter, the tick's output, the priorities and the fault bit. -/
structure ExecKeeps (s t : State) : Prop where
  imem : t.imem = s.imem
  dmem : t.dmem = s.dmem
  imar : t.imar = s.imar
  ir : t.ir = s.ir
  di : t.di = s.di
  clk : t.clk = s.clk
  retired : t.retired = s.retired
  bkpt : t.bkpt = s.bkpt
  halted : t.halted = s.halted
  bitnumOor : t.bitnumOor = s.bitnumOor
  signal : t.signal = s.signal
  cpri : t.psw.cpri = s.psw.cpri
  ppri : t.psw.ppri = s.psw.ppri
  flt : t.psw.flt = s.psw.flt

theorem ExecKeeps.refl (s : State) : ExecKeeps s s := by
  constructor <;> rfl

/-- A written register and status word, the priorities and the fault bit kept. -/
theorem ExecKeeps.writeDest_setPsw (s : State) (d : Reg) (v : Word) (wb : Width) (p : Psw)
    (hc : p.cpri = s.psw.cpri) (hp : p.ppri = s.psw.ppri) (hf : p.flt = s.psw.flt) :
    ExecKeeps s ((s.writeDest d v wb).setPsw p) := by
  constructor <;> simp [hc, hp, hf]

theorem ExecKeeps.setPsw (s : State) (p : Psw)
    (hc : p.cpri = s.psw.cpri) (hp : p.ppri = s.psw.ppri) (hf : p.flt = s.psw.flt) : ExecKeeps s (s.setPsw p) := by
  constructor <;> simp [hc, hp, hf]

theorem ExecKeeps.setReg (s : State) (d : Reg) (v : Word) : ExecKeeps s (s.setReg d v) := by
  constructor <;> simp

theorem ExecKeeps.writeDest (s : State) (d : Reg) (v : Word) (wb : Width) : ExecKeeps s (s.writeDest d v wb) := by
  constructor <;> simp

theorem ExecKeeps.branchIf (s : State) (b : Bool) (off : Word) : ExecKeeps s (s.branchIf b off) := by
  cases b
  · exact ExecKeeps.refl s
  · constructor <;> simp [State.branchIf]

theorem ExecKeeps.draw (s : State) : ExecKeeps s s.draw.2 := by
  constructor <;> simp

theorem ExecKeeps.pending (s : State) (b : Bool) (r : Reg) (k : Word) (p : Pending) :
    ExecKeeps s ((s.preAdjust b r k).setPending p) := by
  constructor <;> simp

theorem ExecKeeps.trans {s t u : State} (h : ExecKeeps s t) (g : ExecKeeps t u) : ExecKeeps s u := by
  constructor
  · exact g.imem.trans h.imem
  · exact g.dmem.trans h.dmem
  · exact g.imar.trans h.imar
  · exact g.ir.trans h.ir
  · exact g.di.trans h.di
  · exact g.clk.trans h.clk
  · exact g.retired.trans h.retired
  · exact g.bkpt.trans h.bkpt
  · exact g.halted.trans h.halted
  · exact g.bitnumOor.trans h.bitnumOor
  · exact g.signal.trans h.signal
  · exact g.cpri.trans h.cpri
  · exact g.ppri.trans h.ppri
  · exact g.flt.trans h.flt

/-- What a bit instruction that completes keeps, if its last step does. -/
theorem ExecKeeps.bitInstr {s t : State} {src : Source} {wb : Width} {r : Word} {finish : State → Word → State}
    (hf : ∀ u v, ExecKeeps u (finish u v)) (h : s.bitInstr src wb r finish = .next t) : ExecKeeps s t := by
  rcases State.bitInstr_next h with rfl | ⟨-, -, rfl⟩
  · exact hf s r
  · exact (ExecKeeps.draw s).trans (hf _ _)

/-- EXEC1 of an instruction keeps the fields of `ExecKeeps`. -/
theorem exec_keeps {i : Instr} {s t : State} (h : exec i s = .next t) : ExecKeeps s t := by
  cases i with
  | bit src dst wb =>
    simp only [exec, execBit] at h
    exact .bitInstr (fun u v => .setPsw u (u.psw.logic wb v) rfl rfl rfl) h
  | bic src dst wb =>
    simp only [exec, execBic] at h
    refine .bitInstr (fun u v => ?_) h
    rw [State.logicResult_eq]
    exact .writeDest_setPsw u _ _ _ _ rfl rfl rfl
  | bis src dst wb =>
    simp only [exec, execBis] at h
    refine .bitInstr (fun u v => ?_) h
    rw [State.logicResult_eq]
    exact .writeDest_setPsw u _ _ _ _ rfl rfl rfl
  | ld prpo dec inc src dst wb =>
    simp only [exec, execLd] at h
    split at h <;> cases h
    exact .pending ..
  | st prpo dec inc src dst wb =>
    simp only [exec, execSt] at h
    split at h <;> cases h
    exact .pending ..
  | beq off | bne off | bc off | bnc off | bn off | bge off | blt off | bra off =>
    cases h
    exact .branchIf ..
  | bl off =>
    cases h
    exact (ExecKeeps.setReg s _ _).trans (.branchIf _ true _)
  | add | addc | sub | subc | dadd =>
    cases h
    rw [State.arithResult_eq]
    exact .writeDest_setPsw _ _ _ _ _ rfl rfl rfl
  | cmp =>
    cases h
    exact .setPsw _ _ rfl rfl rfl
  | xor | and | or =>
    cases h
    rw [State.logicResult_eq]
    exact .writeDest_setPsw _ _ _ _ _ rfl rfl rfl
  | rrc =>
    cases h
    exact .writeDest_setPsw _ _ _ _ _ rfl rfl rfl
  | setcc | clrcc =>
    cases h
    exact .setPsw _ _ rfl rfl rfl
  | nop =>
    cases h
    exact .refl _
  | mov | sra =>
    cases h
    exact .writeDest ..
  | swap =>
    cases h
    exact (ExecKeeps.setReg s _ _).trans (.setReg _ _ _)
  | swpb | sxt | movl | movlz | movls | movh =>
    cases h
    exact .setReg ..
  | ldr | str =>
    cases h
    exact .pending _ false .r0 0#16 _

/-- EXEC1 never faults (60_exceptions.md R286, R289). -/
theorem exec_ne_fault (i : Instr) (s : State) (f : Fault) : exec i s ≠ .fault f := by
  cases i with
  | bit | bic | bis =>
    simp only [exec, execBit, execBic, execBis]
    exact State.bitInstr_stops.1 f
  | ld | st =>
    simp only [exec, execLd, execSt]
    split <;> simp
  | _ => exact nofun

/-- When EXEC1 refuses: LD or ST with INC = DEC = 1, or a bit instruction with an out-of-range bit number
under BITNUM_OOR = REFUSE (R305, R151). -/
theorem exec_refused {i : Instr} {s : State} {q : Refusal} (h : exec i s = .refused q) :
    (q = .incDecBothSet ∧ ∃ p src dst wb, i = .ld p true true src dst wb ∨ i = .st p true true src dst wb) ∨
      (q = .bitNumberOutOfRange ∧ s.bitnumOor = .refuse ∧
        ∃ src dst wb, (i = .bit src dst wb ∨ i = .bic src dst wb ∨ i = .bis src dst wb) ∧
          widthBits wb ≤ (s.sourceOperand src wb).toNat) := by
  cases i with
  | bit src dst wb =>
    simp only [exec, execBit] at h
    have := State.bitInstr_stops.2 q h
    exact .inr ⟨this.1, this.2.1, src, dst, wb, .inl rfl, this.2.2⟩
  | bic src dst wb =>
    simp only [exec, execBic] at h
    have := State.bitInstr_stops.2 q h
    exact .inr ⟨this.1, this.2.1, src, dst, wb, .inr (.inl rfl), this.2.2⟩
  | bis src dst wb =>
    simp only [exec, execBis] at h
    have := State.bitInstr_stops.2 q h
    exact .inr ⟨this.1, this.2.1, src, dst, wb, .inr (.inr rfl), this.2.2⟩
  | ld p dec inc src dst wb =>
    simp only [exec, execLd] at h
    split at h
    · next hn =>
      obtain ⟨rfl, rfl⟩ := stepTable_eq_none.mp hn
      cases h
      exact .inl ⟨rfl, p, src, dst, wb, .inl rfl⟩
    · cases h
  | st p dec inc src dst wb =>
    simp only [exec, execSt] at h
    split at h
    · next hn =>
      obtain ⟨rfl, rfl⟩ := stepTable_eq_none.mp hn
      cases h
      exact .inl ⟨rfl, p, src, dst, wb, .inr rfl⟩
    · cases h
  | _ => cases h

end Sys2Proof.Machine
end

