-- ==== Sys2Proof/Laws/PerInstr.lean ====
section
/-! SUPPORT. For every instruction: the fixed bits of its encoding are those its row of spec/opcode_table.json fixes
(30_encoding.md R82, R86 to R94). The table's rows are written out here from the table, not from the encoder. -/

namespace Sys2Proof.Laws.MatchesTable

/-- The fixed fields of an instruction's row: lowest bit, number of bits, value. -/
def fixedFields : Instr → List (Nat × Nat × Nat)
  | .bl _ => [(13, 3, 0)]
  | .beq _ => [(10, 6, 8)]
  | .bne _ => [(10, 6, 9)]
  | .bc _ => [(10, 6, 10)]
  | .bnc _ => [(10, 6, 11)]
  | .bn _ => [(10, 6, 12)]
  | .bge _ => [(10, 6, 13)]
  | .blt _ => [(10, 6, 14)]
  | .bra _ => [(10, 6, 15)]
  | .add _ _ _ => [(8, 8, 64)]
  | .addc _ _ _ => [(8, 8, 65)]
  | .sub _ _ _ => [(8, 8, 66)]
  | .subc _ _ _ => [(8, 8, 67)]
  | .dadd _ _ _ => [(8, 8, 68)]
  | .cmp _ _ _ => [(8, 8, 69)]
  | .xor _ _ _ => [(8, 8, 70)]
  | .and _ _ _ => [(8, 8, 71)]
  | .or _ _ _ => [(8, 8, 72)]
  | .bit _ _ _ => [(8, 8, 73)]
  | .bic _ _ _ => [(8, 8, 74)]
  | .bis _ _ _ => [(8, 8, 75)]
  | .nop _ _ => [(0, 3, 7), (8, 8, 64)]
  | .mov _ _ _ => [(7, 9, 152)]
  | .swap _ _ => [(6, 10, 306)]
  | .sra _ _ => [(3, 3, 0), (7, 9, 154)]
  | .rrc _ _ => [(3, 3, 1), (7, 9, 154)]
  | .swpb _ => [(3, 13, 2467)]
  | .sxt _ => [(3, 13, 2468)]
  | .setcc _ => [(5, 11, 621)]
  | .clrcc _ => [(5, 11, 622)]
  | .ld _ _ _ _ _ _ => [(10, 6, 22)]
  | .st _ _ _ _ _ _ => [(10, 6, 23)]
  | .movl _ _ => [(11, 5, 12)]
  | .movlz _ _ => [(11, 5, 13)]
  | .movls _ _ => [(11, 5, 14)]
  | .movh _ _ => [(11, 5, 15)]
  | .ldr _ _ _ _ => [(14, 2, 2)]
  | .str _ _ _ _ => [(14, 2, 3)]

/-- Every fixed field of the row stands in the encoded word. -/
def Statement (i : Instr) : Prop := ∀ f ∈ fixedFields i, field (encode i) f.1 f.2.1 = BitVec.ofNat f.2.1 f.2.2

/-- A field of a word is a value when each of its bits is. -/
theorem field_eq_ofNat {w : Word} {lo len v : Nat} (h : ∀ k < len, w.getLsbD (lo + k) = (BitVec.ofNat len v).getLsbD k) :
    field w lo len = BitVec.ofNat len v := by
  apply BitVec.eq_of_getLsbD_eq
  intro k hk
  rw [← h k hk]
  simp [field, hk]

theorem bl (off : Word) : Statement (.bl off) := by
  intro f hf
  simp only [fixedFields, List.mem_cons, List.not_mem_nil, or_false] at hf
  subst hf
  refine field_eq_ofNat fun k hk => ?_
  simp only [encode, encodeF1, asWord, BitVec.getLsbD_cast, BitVec.getLsbD_append, -Nat.reduceAdd]
  interval_cases k <;> simp

theorem beq (off : Word) : Statement (.beq off) := by
  intro f hf
  simp only [fixedFields, List.mem_cons, List.not_mem_nil, or_false] at hf
  subst hf
  refine field_eq_ofNat fun k hk => ?_
  simp only [encode, encodeF2, asWord, BitVec.getLsbD_cast, BitVec.getLsbD_append, -Nat.reduceAdd]
  interval_cases k <;> simp

theorem bne (off : Word) : Statement (.bne off) := by
  intro f hf
  simp only [fixedFields, List.mem_cons, List.not_mem_nil, or_false] at hf
  subst hf
  refine field_eq_ofNat fun k hk => ?_
  simp only [encode, encodeF2, asWord, BitVec.getLsbD_cast, BitVec.getLsbD_append, -Nat.reduceAdd]
  interval_cases k <;> simp

theorem bc (off : Word) : Statement (.bc off) := by
  intro f hf
  simp only [fixedFields, List.mem_cons, List.not_mem_nil, or_false] at hf
  subst hf
  refine field_eq_ofNat fun k hk => ?_
  simp only [encode, encodeF2, asWord, BitVec.getLsbD_cast, BitVec.getLsbD_append, -Nat.reduceAdd]
  interval_cases k <;> simp

theorem bnc (off : Word) : Statement (.bnc off) := by
  intro f hf
  simp only [fixedFields, List.mem_cons, List.not_mem_nil, or_false] at hf
  subst hf
  refine field_eq_ofNat fun k hk => ?_
  simp only [encode, encodeF2, asWord, BitVec.getLsbD_cast, BitVec.getLsbD_append, -Nat.reduceAdd]
  interval_cases k <;> simp

theorem bn (off : Word) : Statement (.bn off) := by
  intro f hf
  simp only [fixedFields, List.mem_cons, List.not_mem_nil, or_false] at hf
  subst hf
  refine field_eq_ofNat fun k hk => ?_
  simp only [encode, encodeF2, asWord, BitVec.getLsbD_cast, BitVec.getLsbD_append, -Nat.reduceAdd]
  interval_cases k <;> simp

theorem bge (off : Word) : Statement (.bge off) := by
  intro f hf
  simp only [fixedFields, List.mem_cons, List.not_mem_nil, or_false] at hf
  subst hf
  refine field_eq_ofNat fun k hk => ?_
  simp only [encode, encodeF2, asWord, BitVec.getLsbD_cast, BitVec.getLsbD_append, -Nat.reduceAdd]
  interval_cases k <;> simp

theorem blt (off : Word) : Statement (.blt off) := by
  intro f hf
  simp only [fixedFields, List.mem_cons, List.not_mem_nil, or_false] at hf
  subst hf
  refine field_eq_ofNat fun k hk => ?_
  simp only [encode, encodeF2, asWord, BitVec.getLsbD_cast, BitVec.getLsbD_append, -Nat.reduceAdd]
  interval_cases k <;> simp

theorem bra (off : Word) : Statement (.bra off) := by
  intro f hf
  simp only [fixedFields, List.mem_cons, List.not_mem_nil, or_false] at hf
  subst hf
  refine field_eq_ofNat fun k hk => ?_
  simp only [encode, encodeF2, asWord, BitVec.getLsbD_cast, BitVec.getLsbD_append, -Nat.reduceAdd]
  interval_cases k <;> simp

theorem add (src : Source) (dst : Reg) (wb : Width) : Statement (.add src dst wb) := by
  intro f hf
  simp only [fixedFields, List.mem_cons, List.not_mem_nil, or_false] at hf
  subst hf
  refine field_eq_ofNat fun k hk => ?_
  simp only [encode, encodeF3, asWord, BitVec.getLsbD_cast, BitVec.getLsbD_append, -Nat.reduceAdd]
  interval_cases k <;> simp

theorem addc (src : Source) (dst : Reg) (wb : Width) : Statement (.addc src dst wb) := by
  intro f hf
  simp only [fixedFields, List.mem_cons, List.not_mem_nil, or_false] at hf
  subst hf
  refine field_eq_ofNat fun k hk => ?_
  simp only [encode, encodeF3, asWord, BitVec.getLsbD_cast, BitVec.getLsbD_append, -Nat.reduceAdd]
  interval_cases k <;> simp

theorem sub (src : Source) (dst : Reg) (wb : Width) : Statement (.sub src dst wb) := by
  intro f hf
  simp only [fixedFields, List.mem_cons, List.not_mem_nil, or_false] at hf
  subst hf
  refine field_eq_ofNat fun k hk => ?_
  simp only [encode, encodeF3, asWord, BitVec.getLsbD_cast, BitVec.getLsbD_append, -Nat.reduceAdd]
  interval_cases k <;> simp

theorem subc (src : Source) (dst : Reg) (wb : Width) : Statement (.subc src dst wb) := by
  intro f hf
  simp only [fixedFields, List.mem_cons, List.not_mem_nil, or_false] at hf
  subst hf
  refine field_eq_ofNat fun k hk => ?_
  simp only [encode, encodeF3, asWord, BitVec.getLsbD_cast, BitVec.getLsbD_append, -Nat.reduceAdd]
  interval_cases k <;> simp

theorem dadd (src : Source) (dst : Reg) (wb : Width) : Statement (.dadd src dst wb) := by
  intro f hf
  simp only [fixedFields, List.mem_cons, List.not_mem_nil, or_false] at hf
  subst hf
  refine field_eq_ofNat fun k hk => ?_
  simp only [encode, encodeF3, asWord, BitVec.getLsbD_cast, BitVec.getLsbD_append, -Nat.reduceAdd]
  interval_cases k <;> simp

theorem cmp (src : Source) (dst : Reg) (wb : Width) : Statement (.cmp src dst wb) := by
  intro f hf
  simp only [fixedFields, List.mem_cons, List.not_mem_nil, or_false] at hf
  subst hf
  refine field_eq_ofNat fun k hk => ?_
  simp only [encode, encodeF3, asWord, BitVec.getLsbD_cast, BitVec.getLsbD_append, -Nat.reduceAdd]
  interval_cases k <;> simp

theorem xor (src : Source) (dst : Reg) (wb : Width) : Statement (.xor src dst wb) := by
  intro f hf
  simp only [fixedFields, List.mem_cons, List.not_mem_nil, or_false] at hf
  subst hf
  refine field_eq_ofNat fun k hk => ?_
  simp only [encode, encodeF3, asWord, BitVec.getLsbD_cast, BitVec.getLsbD_append, -Nat.reduceAdd]
  interval_cases k <;> simp

theorem and (src : Source) (dst : Reg) (wb : Width) : Statement (.and src dst wb) := by
  intro f hf
  simp only [fixedFields, List.mem_cons, List.not_mem_nil, or_false] at hf
  subst hf
  refine field_eq_ofNat fun k hk => ?_
  simp only [encode, encodeF3, asWord, BitVec.getLsbD_cast, BitVec.getLsbD_append, -Nat.reduceAdd]
  interval_cases k <;> simp

theorem or (src : Source) (dst : Reg) (wb : Width) : Statement (.or src dst wb) := by
  intro f hf
  simp only [fixedFields, List.mem_cons, List.not_mem_nil, or_false] at hf
  subst hf
  refine field_eq_ofNat fun k hk => ?_
  simp only [encode, encodeF3, asWord, BitVec.getLsbD_cast, BitVec.getLsbD_append, -Nat.reduceAdd]
  interval_cases k <;> simp

theorem bit (src : Source) (dst : Reg) (wb : Width) : Statement (.bit src dst wb) := by
  intro f hf
  simp only [fixedFields, List.mem_cons, List.not_mem_nil, or_false] at hf
  subst hf
  refine field_eq_ofNat fun k hk => ?_
  simp only [encode, encodeF3, asWord, BitVec.getLsbD_cast, BitVec.getLsbD_append, -Nat.reduceAdd]
  interval_cases k <;> simp

theorem bic (src : Source) (dst : Reg) (wb : Width) : Statement (.bic src dst wb) := by
  intro f hf
  simp only [fixedFields, List.mem_cons, List.not_mem_nil, or_false] at hf
  subst hf
  refine field_eq_ofNat fun k hk => ?_
  simp only [encode, encodeF3, asWord, BitVec.getLsbD_cast, BitVec.getLsbD_append, -Nat.reduceAdd]
  interval_cases k <;> simp

theorem bis (src : Source) (dst : Reg) (wb : Width) : Statement (.bis src dst wb) := by
  intro f hf
  simp only [fixedFields, List.mem_cons, List.not_mem_nil, or_false] at hf
  subst hf
  refine field_eq_ofNat fun k hk => ?_
  simp only [encode, encodeF3, asWord, BitVec.getLsbD_cast, BitVec.getLsbD_append, -Nat.reduceAdd]
  interval_cases k <;> simp

theorem nop (src : Source) (wb : Width) : Statement (.nop src wb) := by
  intro f hf
  simp only [fixedFields, List.mem_cons, List.not_mem_nil, or_false] at hf
  rcases hf with rfl | rfl
  all_goals
    refine field_eq_ofNat fun k hk => ?_
    simp only [encode, encodeF3, asWord, BitVec.getLsbD_cast, BitVec.getLsbD_append, -Nat.reduceAdd]
    interval_cases k <;> simp [Reg.toBits]

theorem mov (src : Reg) (dst : Reg) (wb : Width) : Statement (.mov src dst wb) := by
  intro f hf
  simp only [fixedFields, List.mem_cons, List.not_mem_nil, or_false] at hf
  subst hf
  refine field_eq_ofNat fun k hk => ?_
  simp only [encode, encodeF4, asWord, BitVec.getLsbD_cast, BitVec.getLsbD_append, -Nat.reduceAdd]
  interval_cases k <;> simp

theorem swap (src : Reg) (dst : Reg) : Statement (.swap src dst) := by
  intro f hf
  simp only [fixedFields, List.mem_cons, List.not_mem_nil, or_false] at hf
  subst hf
  refine field_eq_ofNat fun k hk => ?_
  simp only [encode, encodeF4, asWord, BitVec.getLsbD_cast, BitVec.getLsbD_append, -Nat.reduceAdd]
  interval_cases k <;> simp

theorem sra (dst : Reg) (wb : Width) : Statement (.sra dst wb) := by
  intro f hf
  simp only [fixedFields, List.mem_cons, List.not_mem_nil, or_false] at hf
  rcases hf with rfl | rfl
  all_goals
    refine field_eq_ofNat fun k hk => ?_
    simp only [encode, encodeF5, asWord, BitVec.getLsbD_cast, BitVec.getLsbD_append, -Nat.reduceAdd]
    interval_cases k <;> simp

theorem rrc (dst : Reg) (wb : Width) : Statement (.rrc dst wb) := by
  intro f hf
  simp only [fixedFields, List.mem_cons, List.not_mem_nil, or_false] at hf
  rcases hf with rfl | rfl
  all_goals
    refine field_eq_ofNat fun k hk => ?_
    simp only [encode, encodeF5, asWord, BitVec.getLsbD_cast, BitVec.getLsbD_append, -Nat.reduceAdd]
    interval_cases k <;> simp

theorem swpb (dst : Reg) : Statement (.swpb dst) := by
  intro f hf
  simp only [fixedFields, List.mem_cons, List.not_mem_nil, or_false] at hf
  subst hf
  refine field_eq_ofNat fun k hk => ?_
  simp only [encode, encodeF5, asWord, BitVec.getLsbD_cast, BitVec.getLsbD_append, -Nat.reduceAdd]
  interval_cases k <;> simp

theorem sxt (dst : Reg) : Statement (.sxt dst) := by
  intro f hf
  simp only [fixedFields, List.mem_cons, List.not_mem_nil, or_false] at hf
  subst hf
  refine field_eq_ofNat fun k hk => ?_
  simp only [encode, encodeF5, asWord, BitVec.getLsbD_cast, BitVec.getLsbD_append, -Nat.reduceAdd]
  interval_cases k <;> simp

theorem setcc (mask5 : BitVec 5) : Statement (.setcc mask5) := by
  intro f hf
  simp only [fixedFields, List.mem_cons, List.not_mem_nil, or_false] at hf
  subst hf
  refine field_eq_ofNat fun k hk => ?_
  simp only [encode, encodeF6, asWord, BitVec.getLsbD_cast, BitVec.getLsbD_append, -Nat.reduceAdd]
  interval_cases k <;> simp

theorem clrcc (mask5 : BitVec 5) : Statement (.clrcc mask5) := by
  intro f hf
  simp only [fixedFields, List.mem_cons, List.not_mem_nil, or_false] at hf
  subst hf
  refine field_eq_ofNat fun k hk => ?_
  simp only [encode, encodeF6, asWord, BitVec.getLsbD_cast, BitVec.getLsbD_append, -Nat.reduceAdd]
  interval_cases k <;> simp

theorem ld (prpo : Bool) (dec : Bool) (inc : Bool) (src : Reg) (dst : Reg) (wb : Width) : Statement (.ld prpo dec inc src dst wb) := by
  intro f hf
  simp only [fixedFields, List.mem_cons, List.not_mem_nil, or_false] at hf
  subst hf
  refine field_eq_ofNat fun k hk => ?_
  simp only [encode, encodeF7, asWord, BitVec.getLsbD_cast, BitVec.getLsbD_append, -Nat.reduceAdd]
  interval_cases k <;> simp

theorem st (prpo : Bool) (dec : Bool) (inc : Bool) (src : Reg) (dst : Reg) (wb : Width) : Statement (.st prpo dec inc src dst wb) := by
  intro f hf
  simp only [fixedFields, List.mem_cons, List.not_mem_nil, or_false] at hf
  subst hf
  refine field_eq_ofNat fun k hk => ?_
  simp only [encode, encodeF7, asWord, BitVec.getLsbD_cast, BitVec.getLsbD_append, -Nat.reduceAdd]
  interval_cases k <;> simp

theorem movl (imm : Byte) (dst : Reg) : Statement (.movl imm dst) := by
  intro f hf
  simp only [fixedFields, List.mem_cons, List.not_mem_nil, or_false] at hf
  subst hf
  refine field_eq_ofNat fun k hk => ?_
  simp only [encode, encodeF8, asWord, BitVec.getLsbD_cast, BitVec.getLsbD_append, -Nat.reduceAdd]
  interval_cases k <;> simp

theorem movlz (imm : Byte) (dst : Reg) : Statement (.movlz imm dst) := by
  intro f hf
  simp only [fixedFields, List.mem_cons, List.not_mem_nil, or_false] at hf
  subst hf
  refine field_eq_ofNat fun k hk => ?_
  simp only [encode, encodeF8, asWord, BitVec.getLsbD_cast, BitVec.getLsbD_append, -Nat.reduceAdd]
  interval_cases k <;> simp

theorem movls (imm : Byte) (dst : Reg) : Statement (.movls imm dst) := by
  intro f hf
  simp only [fixedFields, List.mem_cons, List.not_mem_nil, or_false] at hf
  subst hf
  refine field_eq_ofNat fun k hk => ?_
  simp only [encode, encodeF8, asWord, BitVec.getLsbD_cast, BitVec.getLsbD_append, -Nat.reduceAdd]
  interval_cases k <;> simp

theorem movh (imm : Byte) (dst : Reg) : Statement (.movh imm dst) := by
  intro f hf
  simp only [fixedFields, List.mem_cons, List.not_mem_nil, or_false] at hf
  subst hf
  refine field_eq_ofNat fun k hk => ?_
  simp only [encode, encodeF8, asWord, BitVec.getLsbD_cast, BitVec.getLsbD_append, -Nat.reduceAdd]
  interval_cases k <;> simp

theorem ldr (off : Word) (src : Reg) (dst : Reg) (wb : Width) : Statement (.ldr off src dst wb) := by
  intro f hf
  simp only [fixedFields, List.mem_cons, List.not_mem_nil, or_false] at hf
  subst hf
  refine field_eq_ofNat fun k hk => ?_
  simp only [encode, encodeF9, asWord, BitVec.getLsbD_cast, BitVec.getLsbD_append, -Nat.reduceAdd]
  interval_cases k <;> simp

theorem str (off : Word) (src : Reg) (dst : Reg) (wb : Width) : Statement (.str off src dst wb) := by
  intro f hf
  simp only [fixedFields, List.mem_cons, List.not_mem_nil, or_false] at hf
  subst hf
  refine field_eq_ofNat fun k hk => ?_
  simp only [encode, encodeF9, asWord, BitVec.getLsbD_cast, BitVec.getLsbD_append, -Nat.reduceAdd]
  interval_cases k <;> simp

end Sys2Proof.Laws.MatchesTable
end

