-- ==== Sys2Proof/Laws/Tick.lean ====
section
/-! SUPPORT. What a tick can do: the transfer of a second phase, EXEC2's frame, the four kinds of tick as equations, and
their inversion. -/

namespace Sys2Proof.Machine

/-! The second phase (70_reset_and_hazards.md R323). -/

/-- A load's bus transfer reads the data space and changes nothing (20_memory.md R58). -/
theorem State.busTransfer_load (s : State) (a : Word) (wb : Width) (b : Word) :
    s.busTransfer .data a (busCode false wb) b = (s, s.memRead .data a wb) := by
  cases wb <;> rfl

/-- A store's bus transfer writes the data space (20_memory.md R58). -/
theorem State.busTransfer_store (s : State) (a : Word) (wb : Width) (v : Word) :
    s.busTransfer .data a (busCode true wb) v = (s.memWrite .data a wb v, v) := by
  cases wb <;> rfl

/-- The second phase of a load, case by case (45_load_store.md R265, R268). -/
theorem State.finishLoad_eq (s : State) (p : Pending) (dst : Reg) (hk : p.kind = .load dst) :
    s.finishLoad p dst = match p.post with
      | none => s.writeDest dst (s.memRead .data p.ea p.wb) p.wb
      | some (r, k) =>
        if r = dst then s.draw.2.setReg dst s.draw.1
        else (s.writeDest dst (s.memRead .data p.ea p.wb) p.wb).adjust (some (r, k)) := by
  rcases hp : p.post with _ | ⟨r, k⟩ <;>
    simp only [State.finishLoad, Pending.ctrl, hk, hp, State.busTransfer_load]

/-- The second phase of a store (45_load_store.md R266). -/
theorem State.finishStore_eq (s : State) (p : Pending) (data : Word) (hk : p.kind = .store data) :
    s.finishStore p data = (s.memWrite .data p.ea p.wb data).adjust p.post := by
  simp only [State.finishStore, Pending.ctrl, hk, State.busTransfer_store]

/-- What EXEC2 never touches: the instruction space, the status word, the latches but mem2, the bubbles, the clock, the
retirement and breakpoint state, the launch parameter and the output. -/
structure Exec2Keeps (s t : State) : Prop where
  imem : t.imem = s.imem
  psw : t.psw = s.psw
  imar : t.imar = s.imar
  ir : t.ir = s.ir
  di : t.di = s.di
  dbub : t.dbub = s.dbub
  xbub : t.xbub = s.xbub
  clk : t.clk = s.clk
  retired : t.retired = s.retired
  bkpt : t.bkpt = s.bkpt
  halted : t.halted = s.halted
  bitnumOor : t.bitnumOor = s.bitnumOor
  signal : t.signal = s.signal

theorem State.exec2_keeps (s : State) : Exec2Keeps s s.exec2 := by
  unfold State.exec2
  split
  · constructor <;> rfl
  · next p _ =>
    split
    · next dst hk =>
      rw [State.finishLoad_eq _ _ _ hk]
      split
      · constructor <;> simp
      · split <;> constructor <;> simp
    · next data hk =>
      rw [State.finishStore_eq _ _ _ hk]
      constructor <;> simp [State.memWrite, State.setSpace]

/-- EXEC2 leaves no pending transfer (R323). -/
@[simp] theorem State.exec2_mem2 (s : State) : s.exec2.mem2 = none := by
  unfold State.exec2
  split
  · assumption
  · split <;> rfl

/-- EXEC2 with nothing pending does nothing. -/
theorem State.exec2_none {s : State} (h : s.mem2 = none) : s.exec2 = s := by
  unfold State.exec2
  rw [h]

/-- The data space after EXEC2: written by a pending store only. -/
theorem State.exec2_dmem (s : State) :
    s.exec2.dmem = match s.mem2 with
      | some ⟨ea, wb, .store data, _⟩ => s.dmem.writeWidth ea wb data
      | _ => s.dmem := by
  unfold State.exec2
  cases hm : s.mem2 with
  | none => rfl
  | some p =>
    obtain ⟨ea, wb, kind, post⟩ := p
    cases kind with
    | load dst =>
      simp only
      rw [State.finishLoad_eq _ _ _ rfl]
      cases post with
      | none => simp
      | some q =>
        simp only
        split <;> simp
    | store data =>
      simp only
      rw [State.finishStore_eq _ _ _ rfl]
      simp [State.memWrite, State.setSpace, State.space]

/-- The registers after EXEC2, in full. -/
theorem State.exec2_reg (s : State) (q : Reg) :
    s.exec2.reg q = match s.mem2 with
      | none => s.reg q
      | some ⟨ea, wb, .load dst, none⟩ => (s.writeDest dst (s.memRead .data ea wb) wb).reg q
      | some ⟨ea, wb, .load dst, some (r, k)⟩ =>
        if r = dst then (if q = dst then Config.freeWord s.draws else s.reg q)
        else if q = r then s.reg r + k else (s.writeDest dst (s.memRead .data ea wb) wb).reg q
      | some ⟨_, _, .store _, none⟩ => s.reg q
      | some ⟨_, _, .store _, some (r, k)⟩ => if q = r then s.reg r + k else s.reg q := by
  unfold State.exec2
  have hreg (t : State) : ({ t with mem2 := none } : State).reg q = t.reg q := rfl
  cases hm : s.mem2 with
  | none => rfl
  | some p =>
    obtain ⟨ea, wb, kind, post⟩ := p
    cases kind with
    | load dst =>
      simp only
      rw [hreg, State.finishLoad_eq _ _ _ rfl]
      cases post with
      | none => rfl
      | some rk =>
        obtain ⟨r, k⟩ := rk
        simp only
        split
        · rw [State.reg_setReg, State.draw_reg]
          rfl
        · next hne =>
          simp only [State.adjust_reg]
          split
          · rw [State.writeDest_reg_of_ne _ _ _ _ _ hne]
          · rfl
    | store data =>
      simp only
      rw [hreg, State.finishStore_eq _ _ _ rfl]
      cases post <;> simp

/-- The number of free values drawn by EXEC2: one for a post-mode load into its own address register (R268). -/
theorem State.exec2_draws (s : State) :
    s.exec2.draws = match s.mem2 with
      | some ⟨_, _, .load dst, some (r, _)⟩ => if r = dst then s.draws + 1 else s.draws
      | _ => s.draws := by
  unfold State.exec2
  cases hm : s.mem2 with
  | none => rfl
  | some p =>
    obtain ⟨ea, wb, kind, post⟩ := p
    cases kind with
    | load dst =>
      simp only
      rw [State.finishLoad_eq _ _ _ rfl]
      cases post with
      | none => simp
      | some q =>
        obtain ⟨r, k⟩ := q
        simp only
        split <;> simp
    | store data =>
      simp only
      rw [State.finishStore_eq _ _ _ rfl]
      simp

/-! The four kinds of tick (R320). -/

/-- The DBUB-TICK (R321). -/
theorem step_dbub {s : State} (he : s.clk % 2 = 0) (hb : s.dbub = true) :
    step s = .next s.beginTick.dbubTick.endTick := by
  simp [step, State.advance, he, State.evenTick, hb]

/-- The even tick: FETCH1; EXEC2; DECODE (R320). -/
theorem step_even {s : State} (he : s.clk % 2 = 0) (hb : s.dbub = false) :
    step s = .next s.beginTick.fetch1.exec2.decodePhase.endTick := by
  simp [step, State.advance, he, State.evenTick, hb]

/-- The XBUB-TICK (R327). -/
theorem step_xbub {s : State} (ho : s.clk % 2 = 1) (hb : s.xbub = true) :
    step s = .next s.beginTick.xbubTick.endTick := by
  simp [step, State.advance, ho, State.oddTick, hb]

/-- The odd tick that completes: FETCH2; EXEC1; RETIRE (R320). -/
theorem step_odd {s t : State} (ho : s.clk % 2 = 1) (hb : s.xbub = false)
    (h : s.beginTick.fetch2.exec1 = .next t) : step s = .next t.retire.endTick := by
  simp [step, State.advance, ho, State.oddTick, hb, h]

/-- The odd tick that is refused (R305). -/
theorem step_odd_refused {s : State} {r : Refusal} (ho : s.clk % 2 = 1) (hb : s.xbub = false)
    (h : s.beginTick.fetch2.exec1 = .refused r) : step s = .refused r := by
  simp [step, State.advance, ho, State.oddTick, hb, h]

/-- A tick that completes is one of the four (R320). -/
theorem step_cases {s t : State} (h : step s = .next t) :
    (s.clk % 2 = 0 ∧ s.dbub = true ∧ t = s.beginTick.dbubTick.endTick) ∨
    (s.clk % 2 = 0 ∧ s.dbub = false ∧ t = s.beginTick.fetch1.exec2.decodePhase.endTick) ∨
    (s.clk % 2 = 1 ∧ s.xbub = true ∧ t = s.beginTick.xbubTick.endTick) ∨
    (s.clk % 2 = 1 ∧ s.xbub = false ∧ ∃ u, s.beginTick.fetch2.exec1 = .next u ∧ t = u.retire.endTick) := by
  rcases Nat.mod_two_eq_zero_or_one s.clk with hc | hc
  · cases hb : s.dbub
    · rw [step_even hc hb] at h
      cases h
      exact .inr (.inl ⟨hc, rfl, rfl⟩)
    · rw [step_dbub hc hb] at h
      cases h
      exact .inl ⟨hc, rfl, rfl⟩
  · cases hb : s.xbub
    · cases hu : s.beginTick.fetch2.exec1 with
      | next u =>
        rw [step_odd hc hb hu] at h
        cases h
        exact .inr (.inr (.inr ⟨hc, rfl, u, rfl, rfl⟩))
      | fault f => simp [step, State.advance, hc, State.oddTick, hb, hu] at h
      | refused r => simp [step, State.advance, hc, State.oddTick, hb, hu] at h
    · rw [step_xbub hc hb] at h
      cases h
      exact .inr (.inr (.inl ⟨hc, rfl, rfl⟩))

/-- EXEC1 of what the decode latch holds: the injected NOP, an instruction, or an UNRECOGNIZED word (R326). -/
theorem exec1_cases {s t : State} (h : s.exec1 = .next t) :
    (s.di = .injectedNop ∧ t = s) ∨
    (∃ i a, s.di = .fetched (.instr i) a ∧ exec i s = .next t) ∨
    (∃ w a, s.di = .fetched (.unrecognized w) a ∧ t = s.signalUnrecognized w) := by
  unfold State.exec1 at h
  cases hd : s.di with
  | injectedNop =>
    simp only [hd, Di.op, exec, execNop, Host.Outcome.next.injEq] at h
    exact .inl ⟨rfl, h.symm⟩
  | fetched d a =>
    cases d with
    | instr i =>
      simp only [hd, Di.op] at h
      exact .inr (.inl ⟨i, a, rfl, h⟩)
    | unrecognized w =>
      simp only [hd, Di.op, Host.Outcome.next.injEq] at h
      exact .inr (.inr ⟨w, a, rfl, h.symm⟩)

/-! The bubbles and the pending transfer at EXEC1 (R328, R329). -/

/-- EXEC1 of an instruction leaves both bubble flags, or sets both and leaves mem2. -/
theorem exec_bubbles {i : Instr} {s t : State} (h : exec i s = .next t) :
    (t.dbub = s.dbub ∧ t.xbub = s.xbub) ∨ (t.dbub = true ∧ t.xbub = true ∧ t.mem2 = s.mem2) := by
  cases i with
  | bit | bic | bis =>
    left
    simp only [exec, execBit, execBic, execBis] at h
    rcases State.bitInstr_next h with rfl | ⟨-, -, rfl⟩ <;> simp [State.logicFlags]
  | ld | st =>
    left
    simp only [exec, execLd, execSt] at h
    split at h <;> cases h
    simp
  | beq off | bne off | bc off | bnc off | bn off | bge off | blt off | bra off =>
    cases h
    unfold State.branchIf
    split <;> simp
  | bl off =>
    cases h
    simp
  | add | addc | sub | subc | dadd | xor | and | or =>
    left
    cases h
    simp
  | cmp =>
    left
    cases h
    simp [State.arithFlags]
  | _ =>
    left
    cases h
    simp

/-- EXEC1 of any latched instruction leaves both bubble flags, or sets both and leaves mem2. -/
theorem exec1_bubbles {s t : State} (h : s.exec1 = .next t) :
    (t.dbub = s.dbub ∧ t.xbub = s.xbub) ∨ (t.dbub = true ∧ t.xbub = true ∧ t.mem2 = s.mem2) := by
  rcases exec1_cases h with ⟨-, rfl⟩ | ⟨i, a, -, hi⟩ | ⟨w, a, -, rfl⟩
  · exact .inl ⟨rfl, rfl⟩
  · exact exec_bubbles hi
  · exact .inl ⟨rfl, rfl⟩

/-- EXEC1 of what the decode latch holds keeps the fields of `ExecKeeps`, apart from an UNRECOGNIZED word's output. -/
theorem exec1_keeps {s t : State} (h : s.exec1 = .next t) : ExecKeeps s { t with signal := s.signal } := by
  rcases exec1_cases h with ⟨-, rfl⟩ | ⟨i, a, -, hi⟩ | ⟨w, a, -, rfl⟩
  · exact ExecKeeps.refl _
  · obtain ⟨h1, h2, h3, h4, h5, h6, h7, h8, h9, h10, h11, h12, h13, h14⟩ := exec_keeps hi
    constructor <;> first | assumption | rfl
  · constructor <;> rfl

/-- EXEC1 never faults. -/
theorem exec1_ne_fault (s : State) (f : Fault) : s.exec1 ≠ .fault f := by
  unfold State.exec1
  split
  · exact exec_ne_fault _ _ f
  · simp

/-! A whole tick, seen from the outside. -/

/-- A read of the instruction space depends on its memory only. -/
theorem State.memRead_instruction {s t : State} (h : t.imem = s.imem) (a : Word) (w : Width) :
    t.memRead .instruction a w = s.memRead .instruction a w := by
  simp [State.memRead, State.space, h]

/-- What an odd tick without an execute-bubble leaves, whatever the decode latch holds. -/
structure OddTick (s t : State) : Prop where
  ir : t.ir = .word (s.memRead .instruction s.imar .word) s.imar
  imar : t.imar = s.imar
  imem : t.imem = s.imem
  dmem : t.dmem = s.dmem
  clk : t.clk = s.clk + 1
  di : t.di = s.di
  bkpt : t.bkpt = s.bkpt
  bitnumOor : t.bitnumOor = s.bitnumOor
  priority : t.psw.cpri = s.psw.cpri ∧ t.psw.ppri = s.psw.ppri ∧ t.psw.flt = s.psw.flt
  bubbles : (t.dbub = s.dbub ∧ t.xbub = s.xbub) ∨ (t.dbub = true ∧ t.xbub = true ∧ t.mem2 = s.mem2)

theorem step_odd_tick {s t : State} (ho : s.clk % 2 = 1) (hb : s.xbub = false) (h : step s = .next t) :
    OddTick s t := by
  rcases step_cases h with ⟨hc, -, -⟩ | ⟨hc, -, -⟩ | ⟨-, hx, -⟩ | ⟨-, -, u, hu, rfl⟩
  · omega
  · omega
  · simp [hb] at hx
  · have hk := exec1_keeps hu
    have hbb := exec1_bubbles hu
    constructor
    · rw [State.endTick_ir, State.retire_ir, show u.ir = _ from hk.ir]
      rfl
    · simpa using hk.imar
    · simpa using hk.imem
    · simpa using hk.dmem
    · simpa using hk.clk
    · simpa using hk.di
    · simpa using hk.bkpt
    · simpa using hk.bitnumOor
    · simpa using ⟨hk.cpri, hk.ppri, hk.flt⟩
    · simpa using hbb

/-- What an even tick without a decode-bubble leaves, whatever was pending. -/
structure EvenTick (s t : State) : Prop where
  ir : t.ir = s.ir
  imar : t.imar = s.reg .pc
  imem : t.imem = s.imem
  clk : t.clk = s.clk + 1
  dbub : t.dbub = false
  xbub : t.xbub = s.xbub
  mem2 : t.mem2 = none
  psw : t.psw = s.psw
  retired : t.retired = s.retired
  halted : t.halted = s.halted
  bkpt : t.bkpt = s.bkpt
  bitnumOor : t.bitnumOor = s.bitnumOor
  di : t.di = match s.ir with
    | .bubble => .injectedNop
    | .word w a => .fetched (decode w) a
  nothing_pending : s.mem2 = none →
    t.dmem = s.dmem ∧ t.draws = s.draws ∧ t.reg .pc = s.reg .pc + 2#16 ∧ ∀ r, r ≠ .pc → t.reg r = s.reg r

theorem step_even_tick {s t : State} (he : s.clk % 2 = 0) (hb : s.dbub = false) (h : step s = .next t) :
    EvenTick s t := by
  rw [step_even he hb] at h
  cases h
  have hk := State.exec2_keeps s.beginTick.fetch1
  constructor
  · simpa using hk.ir
  · rw [State.endTick_imar, State.decodePhase_imar, hk.imar]
    rfl
  · simpa using hk.imem
  · simpa using hk.clk
  · simp [hk.dbub, hb]
  · simpa using hk.xbub
  · simp
  · simpa using hk.psw
  · simpa using hk.retired
  · simpa using hk.halted
  · simpa using hk.bkpt
  · simpa using hk.bitnumOor
  · have : s.beginTick.fetch1.exec2.ir = s.ir := hk.ir
    simp only [State.endTick_di, State.decodePhase, this]
    cases s.ir <;> rfl
  · intro hm
    rw [State.exec2_none (by simpa using hm)]
    refine ⟨by simp, by simp, by simp, ?_⟩
    intro r hr
    simp [hr]

/-! The state `withFetchWord` makes. -/

/-- It meets the invariant when the memories are canonical. -/
theorem State.withFetchWord_inv {s : State} (h : MemoryInv s) (nbits w : Nat) : Inv (s.withFetchWord nbits w) := by
  refine ⟨⟨?_, ?_, ?_, ?_⟩, ⟨?_, ?_⟩, ?_⟩
  · exact fun _ => rfl
  · exact fun _ => rfl
  · exact fun hm => absurd rfl hm
  · exact fun _ hx => Bool.noConfusion hx
  · exact Memory.wf_writeWidth h.imem_wf (s.reg .pc) .word (tableWord nbits w)
  · exact h.dmem_wf
  · intro d a hd
    exact ⟨_, (Di.fetched.inj hd).1.symm⟩

/-- Its next tick executes the word's instruction. -/
theorem State.withFetchWord_executes (s : State) {nbits w : Nat} {i : Instr}
    (h : decode (tableWord nbits w) = .instr i) : Executes (s.withFetchWord nbits w) i (s.reg .pc) := by
  refine ⟨?_, rfl, ?_⟩
  · show (2 * (s.clk / 2) + 3) % 2 = 1
    omega
  · show Di.fetched (decode (tableWord nbits w)) (s.reg .pc) = _
    rw [h]

/-- R7 after an even tick without a decode-bubble, where no pending transfer writes it (R322). -/
theorem step_even_pc {s t : State} (he : s.clk % 2 = 0) (hb : s.dbub = false) (h : step s = .next t)
    (hp : ∀ p, s.mem2 = some p → p.kind ≠ .load .pc ∧ ∀ k, p.post ≠ some (.pc, k)) :
    t.reg .pc = s.reg .pc + 2#16 := by
  rw [step_even he hb] at h
  cases h
  simp only [State.endTick_reg, State.decodePhase_reg]
  rw [State.exec2_reg, show s.beginTick.fetch1.mem2 = s.mem2 from rfl]
  cases hm : s.mem2 with
  | none => simp
  | some p =>
    have hw := hp p hm
    obtain ⟨ea, wb, kind, post⟩ := p
    rcases kind with dst | data <;> rcases post with _ | ⟨r, k⟩ <;> simp only
    · have hd : dst ≠ .pc := by simpa using hw.1
      simp [State.writeDest_reg_of_ne _ _ _ _ _ hd.symm]
    · have hd : Reg.pc ≠ dst := fun h => hw.1 (by rw [h])
      have hr : Reg.pc ≠ r := fun h => hw.2 k (by rw [h])
      simp [hd, hr, State.writeDest_reg_of_ne]
    · simp
    · have hr : Reg.pc ≠ r := fun h => hw.2 k (by rw [h])
      simp [hr]

/-- The tick of a decoded instruction that completes: FETCH2, its EXEC1, RETIRE (R320, R326). -/
theorem step_executes {s t : State} {i : Instr} {a : Word} (he : Executes s i a) (h : step s = .next t) :
    ∃ u, exec i s.beginTick.fetch2 = .next u ∧ t = u.retire.endTick := by
  rcases step_cases h with ⟨hc, -, -⟩ | ⟨hc, -, -⟩ | ⟨-, hx, -⟩ | ⟨-, -, u, hu, rfl⟩
  · exact absurd he.odd (by omega)
  · exact absurd he.odd (by omega)
  · simp [he.no_bubble] at hx
  · refine ⟨u, ?_, rfl⟩
    have hd : s.beginTick.fetch2.di = .fetched (.instr i) a := he.decoded
    rcases exec1_cases hu with ⟨hn, -⟩ | ⟨j, b, hj, hi⟩ | ⟨w, b, hn, -⟩
    · cases hd.symm.trans hn
    · cases hd.symm.trans hj
      exact hi
    · cases hd.symm.trans hn

end Sys2Proof.Machine
end

