-- ==== Sys2Proof/Tests/Slice0.lean ====
section
/-! SUPPORT. Small tests. The expected results are the spec's own: the vectors of 95_test_vectors.md (named by their ids
A, M, S, B, L, E) and the format tables of 30_encoding.md. Then one witness for the hypotheses of each statement. -/

open Sys2Proof Sys2Proof.Machine Sys2Proof.Statements

namespace Sys2Proof.Tests

/-! Helpers. -/

/-- The vectors' start: PC at 0x0100, the named registers, a status word, a data space. -/
def at100 (p : Psw) (regs : List (Reg × Word)) (m : Memory) : State :=
  (regs.foldl (fun (s : State) c => s.setReg c.1 c.2) { State.reset with psw := p, dmem := m }).setReg .pc 0x0100#16

/-- The state a result answers, none when it stops. -/
def stateOf : Result → Option State
  | .next t => some t
  | _ => none

/-- The tick that executes word `w`. -/
def exec1Of (s : State) (w : Nat) : Option State := stateOf (step (s.withFetchWord 16 w))

/-- That tick and the next, which holds a memory instruction's second phase. -/
def exec2Of (s : State) (w : Nat) : Option State := (exec1Of s w).bind fun t => stateOf (step t)

/-- Flags C, Z, N, V. -/
def flags (c z n v : Bool) : Psw := { Psw.reset with c := c, z := z, n := n, v := v }

/-- The refusal a result gives. -/
def refusalOf : Result → Option Refusal
  | .refused r => some r
  | _ => none

/-! Well-formedness refuses each kind of ill-formed term (30_encoding.md R85, R95 to R97). -/

theorem test_illformed_bl :
    (Instr.bl 0x0003#16).wellFormed = false ∧ (Instr.bl 0x2000#16).wellFormed = false ∧
      (Instr.bl 0xDFFE#16).wellFormed = false := by decide

theorem test_illformed_branch_odd :
    ([.beq 1#16, .bne 1#16, .bc 1#16, .bnc 1#16, .bn 1#16, .bge 1#16, .blt 1#16, .bra 1#16] : List Instr).all
      (fun i => !i.wellFormed) = true := by decide

theorem test_illformed_branch_too_large :
    ([.beq 0x0400#16, .bne 0x0400#16, .bc 0x0400#16, .bnc 0x0400#16, .bn 0x0400#16, .bge 0x0400#16, .blt 0x0400#16,
      .bra 0x0400#16] : List Instr).all (fun i => !i.wellFormed) = true := by decide

theorem test_illformed_branch_too_small :
    ([.beq 0xFBFE#16, .bne 0xFBFE#16, .bc 0xFBFE#16, .bnc 0xFBFE#16, .bn 0xFBFE#16, .bge 0xFBFE#16, .blt 0xFBFE#16,
      .bra 0xFBFE#16] : List Instr).all (fun i => !i.wellFormed) = true := by decide

theorem test_illformed_add_to_pc : (Instr.add (.reg .r0) .pc .word).wellFormed = false := by decide

theorem test_illformed_relative :
    (Instr.ldr 0x0040#16 .r0 .r0 .word).wellFormed = false ∧ (Instr.ldr 0xFFBF#16 .r0 .r0 .word).wellFormed = false ∧
      (Instr.str 0x0040#16 .r0 .r0 .byte).wellFormed = false ∧ (Instr.str 0xFFBF#16 .r0 .r0 .byte).wellFormed = false := by
  decide

/-! Decoding: for every instruction a word written out from its format, field by field, most significant bit first
(30_encoding.md R86 to R94), and the encoder on the instruction. -/

/-- F1: 000 off13 = -1 (E2, B22). -/
theorem test_decode_bl :
    decode 0b0001111111111111#16 = .instr (.bl (BitVec.ofInt 16 (-2))) ∧ encode (.bl (BitVec.ofInt 16 (-2))) = 0b0001111111111111#16 := by
  decide

/-- F2: 001 000 off10 = 3 (B1). -/
theorem test_decode_beq :
    decode 0b0010000000000011#16 = .instr (.beq 6#16) ∧ encode (.beq 6#16) = 0b0010000000000011#16 := by
  decide

/-- F2: 001 001 off10 = -3 (P2). -/
theorem test_decode_bne :
    decode 0b0010011111111101#16 = .instr (.bne (BitVec.ofInt 16 (-6))) ∧ encode (.bne (BitVec.ofInt 16 (-6))) = 0b0010011111111101#16 := by
  decide

/-- F2: 001 010 off10 = 3 (B5). -/
theorem test_decode_bc :
    decode 0b0010100000000011#16 = .instr (.bc 6#16) ∧ encode (.bc 6#16) = 0b0010100000000011#16 := by
  decide

/-- F2: 001 011 off10 = 3 (B7). -/
theorem test_decode_bnc :
    decode 0b0010110000000011#16 = .instr (.bnc 6#16) ∧ encode (.bnc 6#16) = 0b0010110000000011#16 := by
  decide

/-- F2: 001 100 off10 = 3 (B9). -/
theorem test_decode_bn :
    decode 0b0011000000000011#16 = .instr (.bn 6#16) ∧ encode (.bn 6#16) = 0b0011000000000011#16 := by
  decide

/-- F2: 001 101 off10 = 2 (P5). -/
theorem test_decode_bge :
    decode 0b0011010000000010#16 = .instr (.bge 4#16) ∧ encode (.bge 4#16) = 0b0011010000000010#16 := by
  decide

/-- F2: 001 110 off10 = 3 (B13). -/
theorem test_decode_blt :
    decode 0b0011100000000011#16 = .instr (.blt 6#16) ∧ encode (.blt 6#16) = 0b0011100000000011#16 := by
  decide

/-- F2: 001 111 off10 = -512 (B17). -/
theorem test_decode_bra :
    decode 0b0011111000000000#16 = .instr (.bra (BitVec.ofInt 16 (-1024))) ∧ encode (.bra (BitVec.ofInt 16 (-1024))) = 0b0011111000000000#16 := by
  decide

/-- F3: 0100 0000 RC 0 WB 0 SRC 2 DST 1 (A1). -/
theorem test_decode_add :
    decode 0b0100000000010001#16 = .instr (.add (.reg .r2) .r1 .word) ∧ encode (.add (.reg .r2) .r1 .word) = 0b0100000000010001#16 := by
  decide

/-- A8. -/
theorem test_decode_addc :
    decode 0b0100000100010001#16 = .instr (.addc (.reg .r2) .r1 .word) ∧ encode (.addc (.reg .r2) .r1 .word) = 0b0100000100010001#16 := by
  decide

/-- RC 1 SRC 1 (P2). -/
theorem test_decode_sub :
    decode 0b0100001010001001#16 = .instr (.sub (.const 1) .r1 .word) ∧ encode (.sub (.const 1) .r1 .word) = 0b0100001010001001#16 := by
  decide

/-- A15. -/
theorem test_decode_subc :
    decode 0b0100001100010001#16 = .instr (.subc (.reg .r2) .r1 .word) ∧ encode (.subc (.reg .r2) .r1 .word) = 0b0100001100010001#16 := by
  decide

/-- WB 1 (A23). -/
theorem test_decode_dadd :
    decode 0b0100010001010001#16 = .instr (.dadd (.reg .r2) .r1 .byte) ∧ encode (.dadd (.reg .r2) .r1 .byte) = 0b0100010001010001#16 := by
  decide

/-- A21. -/
theorem test_decode_cmp :
    decode 0b0100010101010001#16 = .instr (.cmp (.reg .r2) .r1 .byte) ∧ encode (.cmp (.reg .r2) .r1 .byte) = 0b0100010101010001#16 := by
  decide

/-- A30. -/
theorem test_decode_xor :
    decode 0b0100011001010001#16 = .instr (.xor (.reg .r2) .r1 .byte) ∧ encode (.xor (.reg .r2) .r1 .byte) = 0b0100011001010001#16 := by
  decide

/-- A31. -/
theorem test_decode_and :
    decode 0b0100011100010001#16 = .instr (.and (.reg .r2) .r1 .word) ∧ encode (.and (.reg .r2) .r1 .word) = 0b0100011100010001#16 := by
  decide

/-- A34. -/
theorem test_decode_or :
    decode 0b0100100001010001#16 = .instr (.or (.reg .r2) .r1 .byte) ∧ encode (.or (.reg .r2) .r1 .byte) = 0b0100100001010001#16 := by
  decide

/-- A35. -/
theorem test_decode_bit :
    decode 0b0100100110100001#16 = .instr (.bit (.const 4) .r1 .word) ∧ encode (.bit (.const 4) .r1 .word) = 0b0100100110100001#16 := by
  decide

/-- A38. -/
theorem test_decode_bic :
    decode 0b0100101010001001#16 = .instr (.bic (.const 1) .r1 .word) ∧ encode (.bic (.const 1) .r1 .word) = 0b0100101010001001#16 := by
  decide

/-- E9. -/
theorem test_decode_bis :
    decode 0b0100101111111111#16 = .instr (.bis (.const 7) .pc .byte) ∧ encode (.bis (.const 7) .pc .byte) = 0b0100101111111111#16 := by
  decide

/-- E7: an ADD word with DST 7. -/
theorem test_decode_nop :
    decode 0b0100000011111111#16 = .instr (.nop (.const 7) .byte) ∧ encode (.nop (.const 7) .byte) = 0b0100000011111111#16 := by
  decide

/-- F4: 01001100 0 WB SRC DST (E10). -/
theorem test_decode_mov :
    decode 0b0100110001111111#16 = .instr (.mov .pc .pc .byte) ∧ encode (.mov .pc .pc .byte) = 0b0100110001111111#16 := by
  decide

/-- F4 (M4). -/
theorem test_decode_swap :
    decode 0b0100110010010001#16 = .instr (.swap .r2 .r1) ∧ encode (.swap .r2 .r1) = 0b0100110010010001#16 := by
  decide

/-- F5: 010011010 WB 000 DST (M8). -/
theorem test_decode_sra :
    decode 0b0100110101000001#16 = .instr (.sra .r1 .byte) ∧ encode (.sra .r1 .byte) = 0b0100110101000001#16 := by
  decide

/-- M9. -/
theorem test_decode_rrc :
    decode 0b0100110100001001#16 = .instr (.rrc .r1 .word) ∧ encode (.rrc .r1 .word) = 0b0100110100001001#16 := by
  decide

/-- M13. -/
theorem test_decode_swpb :
    decode 0b0100110100011001#16 = .instr (.swpb .r1) ∧ encode (.swpb .r1) = 0b0100110100011001#16 := by
  decide

/-- M14. -/
theorem test_decode_sxt :
    decode 0b0100110100100001#16 = .instr (.sxt .r1) ∧ encode (.sxt .r1) = 0b0100110100100001#16 := by
  decide

/-- F6: mask V N Z C (S2). -/
theorem test_decode_setcc :
    decode 0b0100110110110111#16 = .instr (.setcc 0b10111#5) ∧ encode (.setcc 0b10111#5) = 0b0100110110110111#16 := by
  decide

/-- F6: mask V C (S5). -/
theorem test_decode_clrcc :
    decode 0b0100110111010001#16 = .instr (.clrcc 0b10001#5) ∧ encode (.clrcc 0b10001#5) = 0b0100110111010001#16 := by
  decide

/-- F7: LD R1-,R2 (L3). -/
theorem test_decode_ld :
    decode 0b0101100100001010#16 = .instr (.ld false true false .r1 .r2 .word) ∧ encode (.ld false true false .r1 .r2 .word) = 0b0101100100001010#16 := by
  decide

/-- F7: ST LR,-SP (L19). -/
theorem test_decode_st :
    decode 0b0101111100101110#16 = .instr (.st true true false .lr .sp .word) ∧ encode (.st true true false .lr .sp .word) = 0b0101111100101110#16 := by
  decide

/-- F8 (M16). -/
theorem test_decode_movl :
    decode 0b0110010101011001#16 = .instr (.movl 0xAB#8 .r1) ∧ encode (.movl 0xAB#8 .r1) = 0b0110010101011001#16 := by
  decide

/-- M17. -/
theorem test_decode_movlz :
    decode 0b0110110101011001#16 = .instr (.movlz 0xAB#8 .r1) ∧ encode (.movlz 0xAB#8 .r1) = 0b0110110101011001#16 := by
  decide

/-- M18. -/
theorem test_decode_movls :
    decode 0b0111010101011001#16 = .instr (.movls 0xAB#8 .r1) ∧ encode (.movls 0xAB#8 .r1) = 0b0111010101011001#16 := by
  decide

/-- M19. -/
theorem test_decode_movh :
    decode 0b0111110101011001#16 = .instr (.movh 0xAB#8 .r1) ∧ encode (.movh 0xAB#8 .r1) = 0b0111110101011001#16 := by
  decide

/-- F9: off7 = -64 (L23). -/
theorem test_decode_ldr :
    decode 0b1010000000001010#16 = .instr (.ldr (BitVec.ofInt 16 (-64)) .r1 .r2 .word) ∧ encode (.ldr (BitVec.ofInt 16 (-64)) .r1 .r2 .word) = 0b1010000000001010#16 := by
  decide

/-- F9: off7 = -1 (L29). -/
theorem test_decode_str :
    decode 0b1111111111010001#16 = .instr (.str (BitVec.ofInt 16 (-1)) .r2 .r1 .byte) ∧ encode (.str (BitVec.ofInt 16 (-1)) .r2 .r1 .byte) = 0b1111111111010001#16 := by
  decide

/-- The edges of the UNRECOGNIZED ranges (R102; E13 to E28), and the words beside them. -/
theorem test_decode_unrecognized :
    ([0x4CC0#16, 0x4CFF#16, 0x4D10#16, 0x4D17#16, 0x4D28#16, 0x4D3F#16, 0x4D50#16, 0x4D7F#16, 0x4D80#16, 0x4D9F#16,
      0x4DE0#16, 0x4DFF#16, 0x4E00#16, 0x4FFF#16, 0x5000#16, 0x57FF#16] : List Word).all
        (fun w => decide (decode w = .unrecognized w)) = true ∧
    ([0x4CBF#16, 0x4D0F#16, 0x4D18#16, 0x4D27#16, 0x4D40#16, 0x4D4F#16, 0x4DA0#16, 0x4DDF#16, 0x5800#16] : List Word).all
        (fun w => decide (decode w ≠ .unrecognized w)) = true := by
  decide

/-- E6, E8: ADD with DST 7 is NOP, with DST 6 it is not (R85). -/
theorem test_decode_nop_edge :
    decode 0x4007#16 = .instr (.nop (.reg .r0) .word) ∧ decode 0x4006#16 = .instr (.add (.reg .r0) .sp .word) := by
  decide

/-- Low byte first (20_memory.md R54): the word 0x5F2E stands in memory as 0x2E, 0x5F; one byte is no instruction. -/
theorem test_decode_bytes :
    decodeBytes [0x2E#8, 0x5F#8, 0x11#8] = .decoded (.instr (.st true true false .lr .sp .word)) [0x11#8] ∧
      decodeBytes [0x2E#8] = .truncated [0x2E#8] ∧
      decodeTableWord 16 0x5F2E = some (.st true true false .lr .sp .word) ∧ decodeTableWord 16 0x4E00 = none := by
  decide

/-! Results: the vectors of 95_test_vectors.md, one tick, or two for the memory instructions. -/

/-- A1. -/
theorem test_add_overflow :
    (exec1Of (at100 (flags false false false false) [(.r1, 0x7FFF#16), (.r2, 0x0001#16)] []) 0x4011).map (fun t => (t.reg .r1, t.psw)) =
      some (0x8000#16, flags false false true true) := by
  decide

/-- A5. -/
theorem test_add_byte :
    (exec1Of (at100 (flags false false false false) [(.r1, 0x1280#16), (.r2, 0x0080#16)] []) 0x4051).map (fun t => (t.reg .r1, t.psw)) =
      some (0x1200#16, flags true true false true) := by
  decide

/-- A8. -/
theorem test_addc_carry :
    (exec1Of (at100 (flags true false false false) [(.r1, 0xFFFF#16), (.r2, 0x0000#16)] []) 0x4111).map (fun t => (t.reg .r1, t.psw)) =
      some (0x0000#16, flags true true false false) := by
  decide

/-- A9. -/
theorem test_addc_word :
    (exec1Of (at100 (flags true false false false) [(.r1, 0x1111#16), (.r2, 0x1234#16)] []) 0x4111).map (fun t => (t.reg .r1, t.psw)) =
      some (0x2346#16, flags false false false false) := by
  decide

/-- A13. -/
theorem test_sub_overflow :
    (exec1Of (at100 (flags false false false false) [(.r1, 0x8000#16), (.r2, 0x0001#16)] []) 0x4211).map (fun t => (t.reg .r1, t.psw)) =
      some (0x7FFF#16, flags true false false true) := by
  decide

/-- A14. -/
theorem test_sub_byte :
    (exec1Of (at100 (flags false false false false) [(.r1, 0xAB00#16), (.r2, 0x0001#16)] []) 0x4251).map (fun t => (t.reg .r1, t.psw)) =
      some (0xABFF#16, flags false false true false) := by
  decide

/-- A15. -/
theorem test_subc_borrow :
    (exec1Of (at100 (flags false false false false) [(.r1, 0x0005#16), (.r2, 0x0001#16)] []) 0x4311).map (fun t => (t.reg .r1, t.psw)) =
      some (0x0003#16, flags true false false false) := by
  decide

/-- A17. -/
theorem test_subc_wraps :
    (exec1Of (at100 (flags false false false false) [(.r1, 0x0000#16), (.r2, 0x0000#16)] []) 0x4311).map (fun t => (t.reg .r1, t.psw)) =
      some (0xFFFF#16, flags false false true false) := by
  decide

/-- A20. -/
theorem test_cmp_overflow :
    (exec1Of (at100 (flags false false false false) [(.r1, 0x7FFF#16), (.r2, 0x8000#16)] []) 0x4511).map (fun t => (t.reg .r1, t.psw)) =
      some (0x7FFF#16, flags false false true true) := by
  decide

/-- A21. -/
theorem test_cmp_byte :
    (exec1Of (at100 (flags false false false false) [(.r1, 0x007F#16), (.r2, 0x0080#16)] []) 0x4551).map (fun t => (t.reg .r1, t.psw)) =
      some (0x007F#16, flags false false true true) := by
  decide

/-- A24: the decimal carry is not the C flag. -/
theorem test_dadd_carry_flag :
    (exec1Of (at100 (flags false false false false) [(.r1, 0x0050#16), (.r2, 0x0050#16)] []) 0x4451).map (fun t => (t.reg .r1, t.psw)) =
      some (0x0000#16, flags false true false false) := by
  decide

/-- A28. -/
theorem test_dadd_word :
    (exec1Of (at100 (flags true false false false) [(.r1, 0x0001#16), (.r2, 0x0199#16)] []) 0x4411).map (fun t => (t.reg .r1, t.psw)) =
      some (0x0201#16, flags false false false false) := by
  decide

/-- A29. -/
theorem test_xor_keeps_carry :
    (exec1Of (at100 (flags true false false false) [(.r1, 0x0F0F#16), (.r2, 0xFFFF#16)] []) 0x4611).map (fun t => (t.reg .r1, t.psw)) =
      some (0xF0F0#16, flags true false true false) := by
  decide

/-- A32. -/
theorem test_and_byte :
    (exec1Of (at100 (flags true false false false) [(.r1, 0x12F0#16), (.r2, 0x0080#16)] []) 0x4751).map (fun t => (t.reg .r1, t.psw)) =
      some (0x1280#16, flags true false true false) := by
  decide

/-- A34. -/
theorem test_or_byte :
    (exec1Of (at100 (flags false false false false) [(.r1, 0x1201#16), (.r2, 0x0080#16)] []) 0x4851).map (fun t => (t.reg .r1, t.psw)) =
      some (0x1281#16, flags false false true false) := by
  decide

/-- A37. -/
theorem test_bit_top :
    (exec1Of (at100 (flags false false false false) [(.r1, 0x8000#16), (.r2, 0x000F#16)] []) 0x4911).map (fun t => (t.reg .r1, t.psw)) =
      some (0x8000#16, flags false false true false) := by
  decide

/-- A36. -/
theorem test_bit_clear :
    (exec1Of (at100 (flags false false false false) [(.r1, 0x0000#16), (.r2, 0x0000#16)] []) 0x49A1).map (fun t => (t.reg .r1, t.psw)) =
      some (0x0000#16, flags false true false false) := by
  decide

/-- A39: bit number 0x13 is taken modulo 16. -/
theorem test_bic_mask :
    (exec1Of (at100 (flags false false false false) [(.r1, 0x0008#16), (.r2, 0x0013#16)] []) 0x4A11).map (fun t => (t.reg .r1, t.psw)) =
      some (0x0000#16, flags false true false false) := by
  decide

/-- A40. -/
theorem test_bis_byte :
    (exec1Of (at100 (flags false false false false) [(.r1, 0x1200#16), (.r2, 0x0007#16)] []) 0x4B51).map (fun t => (t.reg .r1, t.psw)) =
      some (0x1280#16, flags false false true false) := by
  decide

/-- M2. -/
theorem test_mov_byte :
    (exec1Of (at100 (flags false false false false) [(.r1, 0x1234#16), (.r2, 0xABCD#16)] []) 0x4C51).map (fun t => (t.reg .r1, t.psw)) =
      some (0x12CD#16, flags false false false false) := by
  decide

/-- M6. -/
theorem test_sra_word :
    (exec1Of (at100 (flags true false false false) [(.r1, 0x8001#16), (.r2, 0x0000#16)] []) 0x4D01).map (fun t => (t.reg .r1, t.psw)) =
      some (0xC000#16, flags true false false false) := by
  decide

/-- M8. -/
theorem test_sra_byte :
    (exec1Of (at100 (flags false false false false) [(.r1, 0x1281#16), (.r2, 0x0000#16)] []) 0x4D41).map (fun t => (t.reg .r1, t.psw)) =
      some (0x12C0#16, flags false false false false) := by
  decide

/-- M11. -/
theorem test_rrc_byte :
    (exec1Of (at100 (flags true false false false) [(.r1, 0xAB01#16), (.r2, 0x0000#16)] []) 0x4D49).map (fun t => (t.reg .r1, t.psw)) =
      some (0xAB80#16, flags true false false false) := by
  decide

/-- M12: Z, N and V are kept. -/
theorem test_rrc_keeps_flags :
    (exec1Of (at100 (flags false true true true) [(.r1, 0x0000#16), (.r2, 0x0000#16)] []) 0x4D09).map (fun t => (t.reg .r1, t.psw)) =
      some (0x0000#16, flags false true true true) := by
  decide

/-- M13. -/
theorem test_swpb :
    (exec1Of (at100 (flags false false false false) [(.r1, 0x1234#16), (.r2, 0x0000#16)] []) 0x4D19).map (fun t => (t.reg .r1, t.psw)) =
      some (0x3412#16, flags false false false false) := by
  decide

/-- M14. -/
theorem test_sxt_negative :
    (exec1Of (at100 (flags false false false false) [(.r1, 0x1280#16), (.r2, 0x0000#16)] []) 0x4D21).map (fun t => (t.reg .r1, t.psw)) =
      some (0xFF80#16, flags false false false false) := by
  decide

/-- M16. -/
theorem test_movl :
    (exec1Of (at100 (flags false false false false) [(.r1, 0x1234#16), (.r2, 0x0000#16)] []) 0x6559).map (fun t => (t.reg .r1, t.psw)) =
      some (0x12AB#16, flags false false false false) := by
  decide

/-- M17. -/
theorem test_movlz :
    (exec1Of (at100 (flags false false false false) [(.r1, 0x1234#16), (.r2, 0x0000#16)] []) 0x6D59).map (fun t => (t.reg .r1, t.psw)) =
      some (0x00AB#16, flags false false false false) := by
  decide

/-- M18. -/
theorem test_movls :
    (exec1Of (at100 (flags false false false false) [(.r1, 0x1234#16), (.r2, 0x0000#16)] []) 0x7559).map (fun t => (t.reg .r1, t.psw)) =
      some (0xFFAB#16, flags false false false false) := by
  decide

/-- M19. -/
theorem test_movh :
    (exec1Of (at100 (flags false false false false) [(.r1, 0x1234#16), (.r2, 0x0000#16)] []) 0x7D59).map (fun t => (t.reg .r1, t.psw)) =
      some (0xAB34#16, flags false false false false) := by
  decide

/-- M4. -/
theorem test_swap :
    (exec1Of (at100 Psw.reset [(.r1, 0x1234#16), (.r2, 0xABCD#16)] []) 0x4C91).map (fun t => (t.reg .r1, t.reg .r2)) =
      some (0xABCD#16, 0x1234#16) := by
  decide

/-- S2. -/
theorem test_setcc : (exec1Of (at100 Psw.reset [] []) 0x4DB7).map (fun t => t.psw) =
    some (flags true true true true) := by
  decide

/-- S4: the sleep interlock. -/
theorem test_setcc_interlock :
    (exec1Of (at100 { Psw.reset with cpri := 7#3 } [] []) 0x4DA8).map (fun t => t.psw) =
      some { Psw.reset with cpri := 7#3 } := by
  decide

/-- S8. -/
theorem test_clrcc :
    (exec1Of (at100 { c := true, z := true, n := true, v := true, slp := true, cpri := 3#3, ppri := 0#3, flt := false }
      [] []) 0x4DDF).map (fun t => t.psw) = some { Psw.reset with cpri := 3#3 } := by
  decide

/-- S9: the decoded NOP writes nothing and retires. -/
theorem test_nop :
    (exec1Of (at100 (flags true true true true) [(.r1, 0x1234#16)] []) 0x400F).map
      (fun t => (t.reg .pc, t.reg .r1, t.psw, t.retired)) =
      some (0x0104#16, 0x1234#16, flags true true true true, some 0x0100#16) := by
  decide

/-- S10: an unrecognized word is inert, retires and is reported. -/
theorem test_unrecognized :
    (exec1Of (at100 Psw.reset [(.r1, 0x1234#16)] []) 0x4E00).map
      (fun t => (t.reg .r1, t.psw, t.retired, t.signal)) =
      some (0x1234#16, Psw.reset, some 0x0100#16, some (0x4E00#16, 0x0100#16)) := by
  decide

/-- B22. -/
theorem test_bl_back :
    (exec1Of (at100 (flags false false false false) [] []) 0x1FFF).map (fun t => (t.reg .pc, t.reg .lr, t.dbub, t.xbub)) =
      some (0x0100#16, 0x0102#16, true, true) := by
  decide

/-- B25. -/
theorem test_bl_far :
    (exec1Of (at100 (flags false false false false) [] []) 0x0FFF).map (fun t => (t.reg .pc, t.reg .lr, t.dbub, t.xbub)) =
      some (0x2100#16, 0x0102#16, true, true) := by
  decide

/-- B1. -/
theorem test_beq_taken :
    (exec1Of (at100 (flags false true false false) [] []) 0x2003).map (fun t => (t.reg .pc, t.dbub, t.xbub)) =
      some (0x0108#16, true, true) := by
  decide

/-- B2. -/
theorem test_beq_not_taken :
    (exec1Of (at100 (flags false false false false) [] []) 0x2003).map (fun t => (t.reg .pc, t.dbub, t.xbub)) =
      some (0x0104#16, false, false) := by
  decide

/-- B3. -/
theorem test_bne_taken :
    (exec1Of (at100 (flags false false false false) [] []) 0x2403).map (fun t => (t.reg .pc, t.dbub, t.xbub)) =
      some (0x0108#16, true, true) := by
  decide

/-- B4. -/
theorem test_bne_not_taken :
    (exec1Of (at100 (flags false true false false) [] []) 0x2403).map (fun t => (t.reg .pc, t.dbub, t.xbub)) =
      some (0x0104#16, false, false) := by
  decide

/-- B5. -/
theorem test_bc_taken :
    (exec1Of (at100 (flags true false false false) [] []) 0x2803).map (fun t => (t.reg .pc, t.dbub, t.xbub)) =
      some (0x0108#16, true, true) := by
  decide

/-- B6. -/
theorem test_bc_not_taken :
    (exec1Of (at100 (flags false false false false) [] []) 0x2803).map (fun t => (t.reg .pc, t.dbub, t.xbub)) =
      some (0x0104#16, false, false) := by
  decide

/-- B7. -/
theorem test_bnc_taken :
    (exec1Of (at100 (flags false false false false) [] []) 0x2C03).map (fun t => (t.reg .pc, t.dbub, t.xbub)) =
      some (0x0108#16, true, true) := by
  decide

/-- B8. -/
theorem test_bnc_not_taken :
    (exec1Of (at100 (flags true false false false) [] []) 0x2C03).map (fun t => (t.reg .pc, t.dbub, t.xbub)) =
      some (0x0104#16, false, false) := by
  decide

/-- B9. -/
theorem test_bn_taken :
    (exec1Of (at100 (flags false false true false) [] []) 0x3003).map (fun t => (t.reg .pc, t.dbub, t.xbub)) =
      some (0x0108#16, true, true) := by
  decide

/-- B10. -/
theorem test_bn_not_taken :
    (exec1Of (at100 (flags false false false false) [] []) 0x3003).map (fun t => (t.reg .pc, t.dbub, t.xbub)) =
      some (0x0104#16, false, false) := by
  decide

/-- B11. -/
theorem test_bge_taken :
    (exec1Of (at100 (flags false false true true) [] []) 0x3403).map (fun t => (t.reg .pc, t.dbub, t.xbub)) =
      some (0x0108#16, true, true) := by
  decide

/-- B12. -/
theorem test_bge_not_taken :
    (exec1Of (at100 (flags false false true false) [] []) 0x3403).map (fun t => (t.reg .pc, t.dbub, t.xbub)) =
      some (0x0104#16, false, false) := by
  decide

/-- B13. -/
theorem test_blt_taken :
    (exec1Of (at100 (flags false false false true) [] []) 0x3803).map (fun t => (t.reg .pc, t.dbub, t.xbub)) =
      some (0x0108#16, true, true) := by
  decide

/-- B14. -/
theorem test_blt_not_taken :
    (exec1Of (at100 (flags false false true true) [] []) 0x3803).map (fun t => (t.reg .pc, t.dbub, t.xbub)) =
      some (0x0104#16, false, false) := by
  decide

/-- B16. -/
theorem test_bra_far :
    (exec1Of (at100 (flags false false false false) [] []) 0x3DFF).map (fun t => (t.reg .pc, t.dbub, t.xbub)) =
      some (0x0500#16, true, true) := by
  decide

/-- B18: a branch to itself. -/
theorem test_bra_self :
    (exec1Of (at100 (flags false false false false) [] []) 0x3FFF).map (fun t => (t.reg .pc, t.dbub, t.xbub)) =
      some (0x0100#16, true, true) := by
  decide

/-- L3: post-decrement. -/
theorem test_ld_post :
    (exec2Of (at100 Psw.reset [(.r1, 0x1002#16), (.r2, 0xEEEE#16)] [(0x1000, 0x34#8), (0x1001, 0x12#8), (0x1002, 0x78#8), (0x1003, 0x56#8)]) 0x590A).map
      (fun t => (t.reg .r1, t.reg .r2)) = some (0x1000#16, 0x5678#16) := by
  decide

/-- L8: byte, pre-decrement. -/
theorem test_ld_byte_pre :
    (exec2Of (at100 Psw.reset [(.r1, 0x1002#16), (.r2, 0xEEEE#16)] [(0x1000, 0x34#8), (0x1001, 0x12#8), (0x1002, 0x78#8), (0x1003, 0x56#8)]) 0x5B4A).map
      (fun t => (t.reg .r1, t.reg .r2)) = some (0x1001#16, 0xEE12#16) := by
  decide

/-- L18: the data is read before the pre-decrement. -/
theorem test_st_pre :
    (exec2Of (at100 Psw.reset [(.r1, 0x2004#16)] []) 0x5F09).map
      (fun t => (t.reg .r1, t.dmem)) = some (0x2002#16, [(0x2002, 0x04#8), (0x2003, 0x20#8)]) := by
  decide

/-- L16: byte, post-increment. -/
theorem test_st_byte_post :
    (exec2Of (at100 Psw.reset [(.r1, 0x2001#16), (.r2, 0xBEEF#16)] []) 0x5CD1).map
      (fun t => (t.reg .r1, t.dmem)) = some (0x2002#16, [(0x2001, 0xEF#8)]) := by
  decide

/-- L24: the address wraps and is aligned. -/
theorem test_ldr_wraps :
    (exec2Of (at100 Psw.reset [(.r1, 0x0000#16), (.r2, 0x0000#16)] [(0xFFFE, 0x77#8), (0xFFFF, 0x66#8)]) 0xBF8A).map
      (fun t => (t.reg .r1, t.reg .r2)) = some (0x0000#16, 0x6677#16) := by
  decide

/-- L22: byte. -/
theorem test_ldr_byte :
    (exec2Of (at100 Psw.reset [(.r1, 0x1000#16), (.r2, 0xEEEE#16)] [(0x103E, 0x22#8), (0x103F, 0x11#8)]) 0x9FCA).map
      (fun t => (t.reg .r1, t.reg .r2)) = some (0x1000#16, 0xEE11#16) := by
  decide

/-- L28. -/
theorem test_str_word :
    (exec2Of (at100 Psw.reset [(.r1, 0x2000#16), (.r2, 0x1234#16)] []) 0xE011).map
      (fun t => (t.reg .r1, t.dmem)) = some (0x2000#16, [(0x1FC0, 0x34#8), (0x1FC1, 0x12#8)]) := by
  decide

/-- L29. -/
theorem test_str_byte :
    (exec2Of (at100 Psw.reset [(.r1, 0x2000#16), (.r2, 0x1234#16)] []) 0xFFD1).map
      (fun t => (t.reg .r1, t.dmem)) = some (0x2000#16, [(0x1FFF, 0x34#8)]) := by
  decide

/-- L10: INC = DEC = 1 is refused at EXEC1. -/
theorem test_ld_refused :
    refusalOf (step ((at100 Psw.reset [(.r1, 0x1000#16)] []).withFetchWord 16 0x5B8A)) = some .incDecBothSet := by
  decide

/-- T3: a store's byte is still unwritten at the boundary after its EXEC1. -/
theorem test_store_pending :
    (exec1Of (at100 Psw.reset [(.r1, 0x2000#16), (.r2, 0x0077#16)] []) 0x5C91).map (fun t => (t.dmem, t.mem2)) =
      some ([], some { ea := 0x2000#16, wb := .word, kind := .store 0x0077#16, post := some (.r1, 2#16) }) := by
  decide

/-- After reset (10_state.md R40): both memories are empty and canonical, and the first tick latches PC = 0. -/
theorem test_reset :
    State.reset.imem.wf = true ∧ State.reset.dmem.wf = true ∧ State.reset.reg .pc = 0#16 ∧
      (stateOf (step State.reset)).map (fun t => (t.imar, t.reg .pc, t.clk, t.di)) =
        some (0#16, 2#16, 1, .injectedNop) := by
  decide

/-- Two writes of one byte, the second with the value an unlisted address reads as, leave the empty memory. -/
theorem test_memory_canonical :
    Memory.write (Memory.write [] 7 1#8) 7 0#8 = [] ∧
      Memory.write (Memory.write [] 9 1#8) 7 2#8 = [(7, 2#8), (9, 1#8)] := by
  decide

/-! Witnesses: for each statement with hypotheses, states and operands that meet them all, at the edges of their ranges. -/

/-- A result that completes in a state of a kind. -/
theorem next_where {r : Result} (p : State → Bool) (h : (stateOf r).map p = some true) :
    ∃ t, r = .next t ∧ p t = true := by
  cases r with
  | next t => exact ⟨t, rfl, by simpa [stateOf] using h⟩
  | fault f => simp [stateOf] at h
  | refused q => simp [stateOf] at h

/-- A result that refuses. -/
theorem refused_where {r : Result} {q : Refusal} (h : refusalOf r = some q) : r = .refused q := by
  cases r with
  | next t => simp [refusalOf] at h
  | fault f => simp [refusalOf] at h
  | refused q' => simpa [refusalOf] using h

/-- The start of a witness: word `w` about to execute at 0x0100, `w'` the word after it. -/
def ready (p : Psw) (regs : List (Reg × Word)) (m : Memory) (w w' : Word) : State :=
  ((at100 p regs m).memWrite .instruction 0x0102#16 .word w').withFetchWord 16 w.toNat

theorem at100_mem (p : Psw) (regs : List (Reg × Word)) (m : Memory) :
    (at100 p regs m).imem = [] ∧ (at100 p regs m).dmem = m := by
  unfold at100
  rw [State.setReg_imem, State.setReg_dmem]
  suffices h : ∀ s : State, (regs.foldl (fun (s : State) c => s.setReg c.1 c.2) s).imem = s.imem ∧
      (regs.foldl (fun (s : State) c => s.setReg c.1 c.2) s).dmem = s.dmem from h _
  induction regs with
  | nil => exact fun s => ⟨rfl, rfl⟩
  | cons c rest ih => exact fun s => ih (s.setReg c.1 c.2)

theorem ready_inv (p : Psw) (regs : List (Reg × Word)) {m : Memory} (h : m.wf = true) (w w' : Word) :
    Inv (ready p regs m w w') := by
  apply State.withFetchWord_inv
  constructor
  · show (Memory.writeWidth (at100 p regs m).imem 0x0102#16 .word w').wf = true
    rw [(at100_mem p regs m).1]
    exact Memory.wf_writeWidth rfl ..
  · show (at100 p regs m).dmem.wf = true
    rw [(at100_mem p regs m).2]
    exact h

theorem ready_executes (p : Psw) (regs : List (Reg × Word)) (m : Memory) {w : Word} (w' : Word) {i : Instr}
    (h : decode w = .instr i) : Executes (ready p regs m w w') i 0x0100#16 := by
  have hw : tableWord 16 w.toNat = w := by
    apply BitVec.eq_of_toNat_eq
    have := w.isLt
    simp only [tableWord, BitVec.toNat_ofNat]
    omega
  have := State.withFetchWord_executes ((at100 p regs m).memWrite .instruction 0x0102#16 .word w')
    (nbits := 16) (w := w.toNat) (i := i) (by rw [hw]; exact h)
  rwa [show ((at100 p regs m).memWrite .instruction 0x0102#16 .word w').reg .pc = 0x0100#16 by
    simp [at100]] at this

/-- Both sides of the equivalence are met: edges of the ranges inside, and (test_illformed_…) outside. -/
theorem witness_DecodeOfEncodeGivesInstruction :
    (Instr.bl 8190#16).wellFormed = true ∧ (Instr.bl (BitVec.ofInt 16 (-8192))).wellFormed = true ∧
      (Instr.beq 1022#16).wellFormed = true ∧ (Instr.bra (BitVec.ofInt 16 (-1024))).wellFormed = true ∧
      (Instr.add (.const 7) .sp .byte).wellFormed = true ∧ (Instr.ldr 63#16 .pc .pc .byte).wellFormed = true ∧
      (Instr.str (BitVec.ofInt 16 (-64)) .pc .pc .byte).wellFormed = true := by
  decide

theorem witness_EncodeOfDecodeGivesWord : ∃ i, decode 0xFFFF#16 = .instr i := ⟨_, rfl⟩

theorem witness_DecodedOffsetsAreSignedFields :
    decode 0x0FFF#16 = .instr (.bl 8190#16) ∧ decode 0x1000#16 = .instr (.bl (BitVec.ofInt 16 (-8192))) ∧
      (decode 0x3DFF#16 = .instr (.bra 1022#16) ∧ isBranch (.bra 1022#16) = true ∧ ∀ o, Instr.bra 1022#16 ≠ .bl o) ∧
      decode 0x2200#16 = .instr (.beq (BitVec.ofInt 16 (-1024))) ∧
      decode 0x9F8A#16 = .instr (.ldr 63#16 .r1 .r2 .word) ∧
      decode 0xE011#16 = .instr (.str (BitVec.ofInt 16 (-64)) .r2 .r1 .word) :=
  ⟨by decide, by decide, ⟨by decide, rfl, nofun⟩, by decide, by decide, by decide⟩

theorem witness_AddResults : Reg.sp ≠ .pc := by decide

theorem witness_DaddAddsDecimalNumbers :
    let s := at100 Psw.reset [(.r1, 0x9999#16), (.r2, 0xAB90#16)] []
    (∀ k < nibbles .word, digit (s.reg .r1) k ≤ 9 ∧ digit (s.sourceValue (.const 1)) k ≤ 9) ∧
      (∀ k < nibbles .byte, digit (s.reg .r1) k ≤ 9 ∧ digit (s.sourceValue (.reg .r2)) k ≤ 9) := by
  decide

theorem witness_BitInstructionResults :
    State.reset.bitnumOor = .mask ∧ bitInRange .word 15#16 ∧ bitInRange .byte 0xFF07#16 ∧ bitInRange .byte 0#16 := by
  refine ⟨rfl, ?_, ?_, ?_⟩ <;> simp [bitInRange]

theorem witness_BitNumberOutOfRangeDrawsOrRefuses :
    ¬ bitInRange .word 16#16 ∧ ¬ bitInRange .byte 8#16 ∧ ¬ bitInRange .word 0xFFFF#16 ∧
      ({ State.reset with bitnumOor := .any } : State).bitnumOor = .any ∧
      ({ State.reset with bitnumOor := .refuse } : State).bitnumOor = .refuse := by
  refine ⟨?_, ?_, ?_, rfl, rfl⟩ <;> simp [bitInRange]

theorem witness_LogicalRuleSetsNandZ :
    (∃ t, exec (.xor (.reg .r0) .r1 .word) State.reset = .next t) ∧
      (∃ t, exec (.and (.reg .r0) .r1 .word) State.reset = .next t) ∧
      (∃ t, exec (.or (.reg .r0) .r1 .byte) State.reset = .next t) ∧
      (∃ t, exec (.bic (.const 1) .r1 .byte) State.reset = .next t) ∧
      (∃ t, exec (.bis (.const 1) .r1 .word) State.reset = .next t) ∧
      (∃ t, exec (.bit (.const 1) .r1 .word) State.reset = .next t ∧ State.reset.bitnumOor = .mask) :=
  ⟨⟨_, rfl⟩, ⟨_, rfl⟩, ⟨_, rfl⟩, ⟨_, rfl⟩, ⟨_, rfl⟩, ⟨_, rfl, rfl⟩⟩

theorem witness_ByteModeIgnoresHighBytes :
    let s := at100 Psw.reset [(.r0, 0x12FF#16), (.r1, 0xAB01#16)] []
    let s' := at100 Psw.reset [(.r0, 0x00FF#16), (.r1, 0xCD01#16)] []
    (∀ r, low .byte (s.reg r) = low .byte (s'.reg r)) ∧ s.psw = s'.psw ∧ s.bitnumOor = s'.bitnumOor ∧
      s.draws = s'.draws ∧ s ≠ s' ∧ ∃ t, exec (.add (.reg .r0) .r1 .byte) s = .next t :=
  ⟨fun r => by cases r <;> decide, rfl, rfl, rfl, by decide, ⟨_, rfl⟩⟩

theorem witness_ConstantSourceActsAsItsValue :
    constants[(7 : ConstIdx).val]? = some ((at100 Psw.reset [(.r0, 0xFFFF#16)] []).reg .r0) ∧
      constants[(0 : ConstIdx).val]? = some (State.reset.reg .r0) ∧
      withSource (.const 7) (.dadd (.const 7) .r1 .byte) = some (.dadd (.const 7) .r1 .byte) ∧
      withSource (.reg .r0) (.dadd (.const 7) .r1 .byte) = some (.dadd (.reg .r0) .r1 .byte) := by
  decide

theorem witness_ConditionalBranchResults :
    isBranch (.bge 4#16) = true ∧ (∀ off, Instr.bge 4#16 ≠ .bl off) ∧ taken (flags false false true true) (.bge 4#16) = true ∧
      taken (flags false false true false) (.bge 4#16) = false :=
  ⟨rfl, nofun, by decide, by decide⟩

theorem witness_IndirectFirstPhase :
    ((true : Bool) = true ∧ (true : Bool) = true) ∧ ¬ ((true : Bool) = true ∧ (false : Bool) = true) := by
  decide

/-- The four cases of a load's second phase: no adjustment, of another register, of the destination, and into PC. -/
theorem witness_LoadSecondPhase :
    let s (dst : Reg) (post : Option (Reg × Word)) : State :=
      { State.reset with mem2 := some { ea := 0xFFFF#16, wb := .word, kind := .load dst, post := post } }
    (∀ dst post, (s dst post).clk % 2 = 0 ∧ (s dst post).dbub = false ∧
      (s dst post).mem2 = some { ea := 0xFFFF#16, wb := .word, kind := .load dst, post := post }) ∧
      (∀ k, (none : Option (Reg × Word)) ≠ some (.r1, k)) ∧ (∀ k, some (Reg.r2, 2#16) ≠ some (.r1, k)) ∧
      (∃ k, some (Reg.r1, 2#16) = some (.r1, k)) :=
  ⟨fun _ _ => ⟨rfl, rfl, rfl⟩, nofun, fun k h => by simp at h, ⟨2#16, rfl⟩⟩

theorem witness_StoreSecondPhase :
    let s : State :=
      { State.reset with mem2 := some { ea := 0xFFFF#16, wb := .byte, kind := .store 0xBEEF#16, post := some (.pc, 1#16) } }
    s.clk % 2 = 0 ∧ s.dbub = false ∧
      s.mem2 = some { ea := 0xFFFF#16, wb := .byte, kind := .store 0xBEEF#16, post := some (.pc, 1#16) } ∧
      s.dmem.wf = true :=
  ⟨rfl, rfl, rfl, rfl⟩

/-- LDR R1,#4,R2; LD.B R1,PC; LD -R1,R1, which adjusts its destination in EXEC1; and LD R1+,R1, which R268 leaves
ANY. -/
theorem witness_LoadIsVisibleToNextInstruction :
    let load (w : Word) (i : Instr) (dst : Reg) (wb : Width) (pre post : Bool) : Prop :=
      Inv (ready Psw.reset [(.r1, 0x1000#16)] [(0x1004, 0x78#8)] w 0x4C11#16) ∧
        Executes (ready Psw.reset [(.r1, 0x1000#16)] [(0x1004, 0x78#8)] w 0x4C11#16) i 0x0100#16 ∧
        loadDest i = some (dst, wb) ∧ bothSteps i = false ∧ preAdjustsOwnDest i = pre ∧ adjustsOwnDest i = post
    load 0x820A#16 (.ldr 4#16 .r1 .r2 .word) .r2 .word false false ∧
      load 0x584F#16 (.ld false false false .r1 .pc .byte) .pc .byte false false ∧
      load 0x5B09#16 (.ld true true false .r1 .r1 .word) .r1 .word true false ∧
      load 0x5889#16 (.ld false false true .r1 .r1 .word) .r1 .word false true :=
  ⟨⟨ready_inv _ _ rfl _ _, ready_executes _ _ _ _ (by decide), by decide⟩,
    ⟨ready_inv _ _ rfl _ _, ready_executes _ _ _ _ (by decide), by decide⟩,
    ⟨ready_inv _ _ rfl _ _, ready_executes _ _ _ _ (by decide), by decide⟩,
    ⟨ready_inv _ _ rfl _ _, ready_executes _ _ _ _ (by decide), by decide⟩⟩

/-- The premises of StoreThenLoadReturnsData for two words in a row, R1 = 0x2000 and R2 = 0x1234. -/
theorem store_then_load {w w' : Word} {i j : Instr} (hi : decode w = .instr i)
    (h : let s := ready Psw.reset [(.r1, 0x2000#16), (.r2, 0x1234#16)] [] w w'
      ((stateOf (step s)).any fun t => (stateOf (step t)).any fun u =>
        decide (u.clk % 2 = 1) && !u.xbub && decide (u.di = .fetched (.instr j) 0x0102#16) &&
          decide (evenBase (effectiveAddress u j) = evenBase (effectiveAddress s i))) = true) :
    ∃ s t u : State, Inv s ∧ Executes s i 0x0100#16 ∧ step s = .next t ∧ step t = .next u ∧
      Executes u j 0x0102#16 ∧ evenBase (effectiveAddress u j) = evenBase (effectiveAddress s i) := by
  have hs := ready_executes Psw.reset [(.r1, 0x2000#16), (.r2, 0x1234#16)] [] w' hi
  have hv := ready_inv Psw.reset [(.r1, 0x2000#16), (.r2, 0x1234#16)] (m := []) rfl w w'
  generalize ready Psw.reset [(.r1, 0x2000#16), (.r2, 0x1234#16)] [] w w' = s at h hs hv
  cases ht : step s with
  | next t =>
    cases hu : step t with
    | next u =>
      simp only [ht, hu, stateOf, Option.any_some, Bool.and_eq_true, Bool.not_eq_true', decide_eq_true_eq] at h
      exact ⟨s, t, u, hv, hs, ht, hu, ⟨h.1.1.1, h.1.1.2, h.1.2⟩, h.2⟩
    | fault f => simp [ht, hu, stateOf] at h
    | refused r => simp [ht, hu, stateOf] at h
  | fault f => simp [ht, stateOf] at h
  | refused r => simp [ht, stateOf] at h

/-- STR R2,R1,#6 then LDR R1,#7,R3 (an odd address in the same word); ST R2,-R1 then LD R1+,R3; ST R2,R1+ then
LD -R1,R3; and ST R2,R1 then LD R1+,R1, which adjusts its own destination. -/
theorem witness_StoreThenLoadReturnsData :
    let pair (i j : Instr) : Prop := ∃ s t u : State, Inv s ∧ Executes s i 0x0100#16 ∧ step s = .next t ∧
      step t = .next u ∧ Executes u j 0x0102#16 ∧
      evenBase (effectiveAddress u j) = evenBase (effectiveAddress s i)
    pair (.str 6#16 .r2 .r1 .word) (.ldr 7#16 .r1 .r3 .word) ∧
      pair (.st true true false .r2 .r1 .word) (.ld false false true .r1 .r3 .word) ∧
      pair (.st false false true .r2 .r1 .word) (.ld true true false .r1 .r3 .word) ∧
      pair (.st false false false .r2 .r1 .word) (.ld false false true .r1 .r1 .word) ∧
      (([.str 6#16 .r2 .r1 .word, .st true true false .r2 .r1 .word] : List Instr).all
        fun i => decide (wordStoreData i = some .r2)) = true ∧
      (([.ldr 7#16 .r1 .r3 .word, .ld false false true .r1 .r3 .word, .ld true true false .r1 .r3 .word] : List Instr).all
        fun j => decide (wordLoadDest j = some .r3) && !bothSteps j && !adjustsOwnDest j) = true ∧
      wordLoadDest (.ld false false true .r1 .r1 .word) = some .r1 ∧
      adjustsOwnDest (.ld false false true .r1 .r1 .word) = true :=
  ⟨store_then_load (w := 0xC311#16) (w' := 0x838B#16) (by decide) (by decide),
    store_then_load (w := 0x5F11#16) (w' := 0x588B#16) (by decide) (by decide),
    store_then_load (w := 0x5C91#16) (w' := 0x5B0B#16) (by decide) (by decide),
    store_then_load (w := 0x5C11#16) (w' := 0x5889#16) (by decide) (by decide), by decide, by decide, rfl, by decide⟩

theorem witness_MemoryAccessesAreLittleEndian :
    Memory.wf [] = true ∧ Memory.wf [(0, 1#8), (0xFFFF, 0xFF#8)] = true := by
  decide

theorem witness_ArithmeticFrame :
    ([.add (.reg .r0) .r1 .word, .addc (.reg .r0) .r1 .byte, .sub (.reg .r0) .r1 .word, .subc (.reg .r0) .r1 .byte,
      .dadd (.reg .r0) .r1 .word, .cmp (.reg .r0) .r1 .byte] : List Instr).all
      (fun i => isArithmetic i && (stateOf (exec i State.reset)).isSome) = true := by
  decide

theorem witness_LogicFrame :
    ([.xor (.reg .r0) .r1 .word, .and (.reg .r0) .r1 .byte, .or (.reg .r0) .r1 .word, .bit (.reg .r0) .r1 .byte,
      .bic (.reg .r0) .r1 .word, .bis (.reg .r0) .r1 .byte] : List Instr).all
      (fun i => isLogic i && (stateOf (exec i State.reset)).isSome) = true ∧
      (isBitOp (.xor (.reg .r0) .r1 .word) = false ∧ State.reset.bitnumOor ≠ .any) := by
  decide

theorem witness_MoveFrame :
    ([.mov .r0 .pc .word, .swap .r0 .r1, .sra .r1 .word, .rrc .r1 .byte, .swpb .r1, .sxt .r1, .movl 1#8 .r1,
      .movlz 1#8 .pc, .movls 1#8 .r1, .movh 1#8 .r1, .setcc 31#5, .clrcc 0#5, .nop (.reg .r0) .word] : List Instr).all
      (fun i => isMove i && (stateOf (exec i State.reset)).isSome) = true := by
  decide

theorem witness_BranchFrame :
    ([.bl 2#16, .beq 2#16, .bne 2#16, .bc 2#16, .bnc 2#16, .bn 2#16, .bge 2#16, .blt 2#16, .bra 2#16] : List Instr).all
      (fun i => isBranch i && (stateOf (exec i State.reset)).isSome) = true := by
  decide

theorem witness_MemoryFirstPhaseFrame :
    ([.ld true true false .r0 .r1 .word, .st false false true .r0 .r1 .byte, .ldr 63#16 .r0 .r1 .word,
      .str 0#16 .r0 .r1 .byte] : List Instr).all
      (fun i => isMemory i && (stateOf (exec i State.reset)).isSome) = true := by
  decide

theorem witness_NoFlagGroupKeepsStatusWord :
    (isMove (.sra .r0 .word) = true ∧ (∀ d w, Instr.sra .r0 .word ≠ .rrc d w) ∧
      (∀ m, Instr.sra .r0 .word ≠ .setcc m) ∧ (∀ m, Instr.sra .r0 .word ≠ .clrcc m)) ∧
      (∃ t, exec (.sra .r0 .word) State.reset = .next t) ∧
      (let s := ready Psw.reset [] [] 0x4E00#16 0#16
       s.clk % 2 = 1 ∧ s.di = .fetched (.unrecognized 0x4E00#16) 0x0100#16 ∧ ∃ t, step s = .next t) ∧
      (let s : State := { State.reset with mem2 := some { ea := 0#16, wb := .byte, kind := .load .r1, post := none } }
       s.clk % 2 = 0 ∧ ∃ t, step s = .next t) :=
  ⟨⟨rfl, nofun, nofun, nofun⟩, ⟨_, rfl⟩,
    ⟨by decide, by decide, (next_where (fun _ => true) (by decide)).imp fun _ h => h.1⟩,
    by decide, (next_where (fun _ => true) (by decide)).imp fun _ h => h.1⟩

theorem witness_NopAndUnrecognizedAreInert :
    let s := ready Psw.reset [] [] 0x57FF#16 0#16
    s.clk % 2 = 1 ∧ s.xbub = false ∧ s.di = .fetched (.unrecognized 0x57FF#16) 0x0100#16 := by
  decide

theorem witness_StepRunsDecodedInstruction :
    (let s := ready Psw.reset [] [] 0x4011#16 0#16
     Executes s (.add (.reg .r2) .r1 .word) 0x0100#16 ∧
       ∃ t, exec (.add (.reg .r2) .r1 .word)
         { s with signal := none, ir := .word (s.memRead .instruction s.imar .word) s.imar } = .next t) ∧
      (let s := ready Psw.reset [] [] 0x5980#16 0#16
       Executes s (.ld false true true .r0 .r0 .word) 0x0100#16 ∧
         exec (.ld false true true .r0 .r0 .word)
           { s with signal := none, ir := .word (s.memRead .instruction s.imar .word) s.imar } =
             .refused .incDecBothSet) :=
  ⟨⟨ready_executes _ _ _ _ (by decide), ⟨_, rfl⟩⟩, ready_executes _ _ _ _ (by decide), rfl⟩

/-- With nothing pending, from BUBBLE and from a word, and with a transfer that leaves PC alone. -/
theorem witness_EvenTickFetchesAndDecodes :
    (State.reset.clk % 2 = 0 ∧ State.reset.dbub = false ∧ State.reset.mem2 = none) ∧
      (let s := { State.reset with ir := .word 0x4011#16 0xFFFE#16 }
       s.clk % 2 = 0 ∧ s.dbub = false ∧ s.mem2 = none) ∧
      (let p : Pending := { ea := 0#16, wb := .word, kind := .load .r1, post := some (.r2, 2#16) }
       let s := { State.reset with mem2 := some p }
       s.clk % 2 = 0 ∧ s.dbub = false ∧ s.mem2 = some p ∧ p.kind ≠ .load .pc ∧ ∀ k, p.post ≠ some (.pc, k)) :=
  ⟨by decide, by decide, rfl, rfl, rfl, by decide, fun k h => by simp at h⟩

theorem witness_BubbleTicksSuppressFetch :
    (exec1Of (at100 Psw.reset [] []) 0x3FFF).map (fun s => (s.clk % 2, s.dbub)) = some (0, true) ∧
      ((exec2Of (at100 Psw.reset [] []) 0x3FFF).map fun s => (s.clk % 2, s.xbub)) = some (1, true) := by
  decide

theorem witness_BubblesAreSetOnlyByTakenBranches :
    let s := ready Psw.reset [] [] 0x3FFF#16 0#16
    Executes s (.bra (BitVec.ofInt 16 (-2))) 0x0100#16 ∧ taken s.psw (.bra (BitVec.ofInt 16 (-2))) = true ∧
      ∃ t, step s = .next t ∧ (t.dbub && t.xbub && !s.dbub && !s.xbub) = true :=
  ⟨ready_executes _ _ _ _ (by decide), by decide, next_where _ (by decide)⟩

theorem witness_RetireAndBreakpoint :
    (let s := { ready Psw.reset [] [] 0x4C11#16 0#16 with bkpt := some 0x0100#16 }
     s.clk % 2 = 1 ∧ s.xbub = false ∧ s.di = .fetched (.instr (.mov .r2 .r1 .word)) 0x0100#16 ∧
       ∃ t, step s = .next t ∧ t.halted = true) ∧
      (State.reset.clk % 2 = 0 ∧ ∃ t, step State.reset = .next t) :=
  ⟨⟨by decide, by decide, by decide, by
      obtain ⟨t, ht, hp⟩ := next_where (r := step { ready Psw.reset [] [] 0x4C11#16 0#16 with bkpt := some 0x0100#16 })
        (fun t => t.halted) (by decide)
      exact ⟨t, ht, hp⟩⟩,
    rfl, (next_where (fun _ => true) (by decide)).imp fun _ h => h.1⟩

/-- Three ticks from the reset state: even, odd without a branch, even. -/
theorem witness_WordAtPcStandsDecodedAfterThreeTicks :
    ∃ t u v : State, State.reset.clk % 2 = 0 ∧ State.reset.dbub = false ∧ step State.reset = .next t ∧
      step t = .next u ∧ u.dbub = false ∧ step u = .next v := by
  obtain ⟨t, ht, hp⟩ := next_where (r := step State.reset)
    (fun t => (stateOf (step t)).any fun u => !u.dbub && (stateOf (step u)).isSome) (by decide)
  cases hu : step t with
  | next u =>
    simp only [hu, stateOf, Option.any_some, Bool.and_eq_true, Bool.not_eq_true'] at hp
    cases hv : step u with
    | next v => exact ⟨t, u, v, rfl, rfl, ht, hu, hp.1, hv⟩
    | fault f => simp [hv] at hp
    | refused r => simp [hv] at hp
  | fault f => simp [hu, stateOf] at hp
  | refused r => simp [hu, stateOf] at hp

theorem witness_FirstWordRunsInTickThree : decode 0xFFFF#16 = .instr (.str (BitVec.ofInt 16 (-1)) .pc .pc .byte) := by
  decide

/-- A register instruction, and a load that leaves a transfer but not of PC. -/
theorem witness_SequentialInstructionReadsPcPlusFour :
    (let s := ready Psw.reset [] [] 0x4011#16 0x4C11#16
     Sequential s 0x0100#16 ∧ ∃ t, step s = .next t ∧
       (!t.dbub && !t.xbub && decide (t.reg .pc = s.reg .pc) && decide (t.mem2 = none)) = true) ∧
      (let s := ready Psw.reset [] [] 0x588A#16 0x4C11#16
       Sequential s 0x0100#16 ∧ ∃ t, step s = .next t ∧
         (!t.dbub && !t.xbub && decide (t.reg .pc = s.reg .pc) &&
           decide (t.mem2 = some { ea := 0#16, wb := .word, kind := .load .r2, post := some (.r1, 2#16) })) = true) :=
  ⟨⟨⟨by decide, by decide, by decide, ⟨_, rfl⟩, by decide, by decide⟩, next_where _ (by decide)⟩,
    ⟨by decide, by decide, by decide, ⟨_, rfl⟩, by decide, by decide⟩, next_where _ (by decide)⟩

theorem witness_TakenBranchCostsSixTicks :
    (let s := ready (flags false true false false) [] [] 0x2003#16 0x4C11#16
     Inv s ∧ Executes s (.beq 6#16) 0x0100#16 ∧ taken s.psw (.beq 6#16) = true) ∧
      (let s := ready Psw.reset [] [] 0x1FFF#16 0x4C11#16
       Inv s ∧ Executes s (.bl (BitVec.ofInt 16 (-2))) 0x0100#16 ∧ taken s.psw (.bl (BitVec.ofInt 16 (-2))) = true) :=
  ⟨⟨ready_inv _ _ rfl _ _, ready_executes _ _ _ _ (by decide), by decide⟩,
    ready_inv _ _ rfl _ _, ready_executes _ _ _ _ (by decide), by decide⟩

/-- MOV R1,PC with R1 = 0x0300, and MOV PC,R2 in its slot (vector T2); and LD +PC,R1, whose pre-adjustment writes
PC while its load is pending (R258). -/
theorem witness_NonBranchPcWriteHasOneDelaySlot :
    (let s := ready Psw.reset [(.r1, 0x0300#16)] [] 0x4C0F#16 0x4C3A#16
     Inv s ∧ s.clk % 2 = 1 ∧ s.xbub = false ∧ ∃ t, step s = .next t ∧
      (!t.dbub && decide (t.mem2 = none) && decide (t.reg .pc = 0x0300#16) &&
        (stateOf (step t)).any fun u => (stateOf (step u)).any fun v => !v.dbub) = true) ∧
      (let s := ready Psw.reset [] [] 0x5AB9#16 0x4C3A#16
       Inv s ∧ s.clk % 2 = 1 ∧ s.xbub = false ∧ ∃ t, step s = .next t ∧
        (!t.dbub && decide (s.reg .pc = 0x0104#16) && decide (t.reg .pc = 0x0106#16) &&
          decide (t.mem2 = some { ea := 0x0106#16, wb := .word, kind := .load .r1, post := none }) &&
          (stateOf (step t)).any fun u => (stateOf (step u)).any fun v => !v.dbub) = true) :=
  ⟨⟨ready_inv _ _ rfl _ _, by decide, by decide, next_where _ (by decide)⟩,
    ready_inv _ _ rfl _ _, by decide, by decide, next_where _ (by decide)⟩

/-- A load into PC in its second phase, MOV R2,R1 at the address FETCH1 latches. -/
def loadingPc (wb : Width) (post : Option (Reg × Word)) : State :=
  { State.reset with
    imem := [(0, 0x11#8), (1, 0x4C#8)]
    dmem := [(0x0401, 0x02#8)]
    mem2 := some { ea := 0x0400#16, wb := wb, kind := .load .pc, post := post } }

theorem loadingPc_inv (wb : Width) (post : Option (Reg × Word)) : Inv (loadingPc wb post) :=
  ⟨⟨fun _ => rfl, fun _ => rfl, fun _ => ⟨rfl, rfl⟩, fun _ h => Bool.noConfusion h⟩, ⟨rfl, rfl⟩,
    fun _ _ h => by simp [State.reset, loadingPc] at h⟩

/-- Either width, without a post-adjustment, with one of R1 and with one of PC: the injected NOP in the first slot and
MOV R2,R1 in the second (R345, R268). -/
theorem witness_LoadIntoPcHasTwoSlots :
    ∀ wb, ∀ post ∈ [none, some (Reg.r1, 2#16), some (Reg.pc, 2#16)], ∃ s t u v w : State, Inv s ∧ s.clk % 2 = 0 ∧
      s.mem2 = some { ea := 0x0400#16, wb := wb, kind := .load .pc, post := post } ∧ step s = .next t ∧
      step t = .next u ∧ u.dbub = false ∧ u.reg .pc = t.reg .pc ∧ u.mem2 = none ∧ step u = .next v ∧
      step v = .next w ∧ w.dbub = false := by
  intro wb post h
  simp only [List.mem_cons, List.not_mem_nil, or_false] at h
  let t := (loadingPc wb post).beginTick.fetch1.exec2.decodePhase.endTick
  let u := t.beginTick.fetch2.retire.endTick
  let v := u.beginTick.fetch1.exec2.decodePhase.endTick
  have hw : ∃ w, step v = .next w ∧ (!w.dbub) = true := by
    apply next_where
    subst v u t
    cases wb <;> rcases h with rfl | rfl | rfl <;> decide
  obtain ⟨w, hw, hb⟩ := hw
  refine ⟨loadingPc wb post, t, u, v, w, loadingPc_inv wb post, rfl, rfl, step_even rfl rfl, ?_, ?_, ?_, ?_,
    step_even ?_ ?_, hw, by simpa using hb⟩ <;> clear hw hb <;> subst v u t <;> cases wb <;>
    rcases h with rfl | rfl | rfl <;> rfl

/-- The ticks of a load and of a taken branch: odd and even, DBUB and XBUB. -/
theorem witness_EveryStepKeepsInvariant :
    (let s := ready Psw.reset [] [] 0x588A#16 0#16
     Inv s ∧ ((stateOf (step s)).any fun t : State => (stateOf (step t)).isSome) = true) ∧
      (let s := ready Psw.reset [] [] 0x3FFF#16 0#16
       Inv s ∧ ((stateOf (step s)).any fun t : State => (stateOf (step t)).any fun u : State =>
         (stateOf (step u)).isSome) = true) :=
  ⟨⟨ready_inv _ _ rfl _ _, by decide⟩, ready_inv _ _ rfl _ _, by decide⟩

/-- LD with both step bits; BIS with the bit number 16, the width itself, and 15, which is in range and runs. -/
theorem witness_TicksStopOnlyOnRefuse :
    let bis (n : Word) : State := { ready Psw.reset [(.r2, n)] [] 0x4B11#16 0#16 with bitnumOor := .refuse }
    step (ready Psw.reset [] [] 0x5FFF#16 0#16) = .refused .incDecBothSet ∧
      step (bis 16#16) = .refused .bitNumberOutOfRange ∧
      (bis 16#16).di = .fetched (.instr (.bis (.reg .r2) .r1 .word)) 0x0100#16 ∧
      bitSource (.bis (.reg .r2) .r1 .word) = some (.reg .r2, .word) ∧
      ¬ bitInRange .word ((bis 16#16).sourceValue (.reg .r2)) ∧
      bitInRange .word ((bis 15#16).sourceValue (.reg .r2)) ∧ ∃ t, step (bis 15#16) = .next t :=
  ⟨refused_where (by decide), refused_where (by decide), by decide, rfl, by simp only [bitInRange]; decide,
    by simp only [bitInRange]; decide, (next_where (fun _ => true) (by decide)).imp fun _ h => h.1⟩

/-- The second phase of a store changes the data space. -/
theorem witness_OnlyPendingStoresWriteMemory :
    let s : State := { State.reset with mem2 := some { ea := 0#16, wb := .byte, kind := .store 1#16, post := none } }
    ∃ t, step s = .next t ∧ decide (t.dmem ≠ s.dmem) = true :=
  next_where _ (by decide)

theorem witness_TicksKeepPriorityAndCountClock : ∃ t, step State.reset = .next t :=
  (next_where (fun _ => true) (by decide)).imp fun _ h => h.1

theorem witness_SleepFlagHasNoOtherEffect :
    let s := ready Psw.reset [] [] 0x4DA8#16 0#16
    ∃ t, step s = .next t ∧ decide (t.psw.slp ≠ s.psw.slp) = true :=
  next_where _ (by decide)

/-- The edges of the accessors' ranges, as their own results. -/
theorem witness_HostAccessors :
    (State.reset.readReg 7 = .ok 0#16 ∧ State.reset.readReg 8 = .error .outOfRange) ∧
      (State.reset.readMem (some .data) 65535 = .ok 0#8 ∧
        State.reset.readMem (some .instruction) 65536 = .error .outOfRange ∧
        State.reset.readMem none 0 = .error .outOfRange) ∧
      MemoryInv State.reset :=
  ⟨⟨rfl, rfl⟩, ⟨rfl, rfl, rfl⟩, rfl, rfl⟩

end Sys2Proof.Tests
end

section
/-! PROOFS of the statements of 10_state.md: the invariant at reset (R40), a constant source (R24, R25), the sequential
path (R27, R341), what every tick keeps and counts (R34, R35, R302, R331), and the sleep flag (R33). -/

namespace Sys2Proof.Machine

open Sys2Proof.Statements

/-! The invariant at reset (10_state.md R40, 70_reset_and_hazards.md R333). -/

/-- Settles O50: both bubbles are clear, nothing is pending or decoded, and both memories are empty. -/
theorem invariantHoldsAtReset : Obligations.InvariantHoldsAtReset where
  pipeline :=
    { odd_dbub := fun _ => rfl
      even_bubbles := fun _ => rfl
      pending_even := fun hm => absurd rfl hm
      odd_xbub := fun _ hx => Bool.noConfusion hx }
  memory := { imem_wf := rfl, dmem_wf := rfl }
  decoded := nofun

/-! Constant sources (R24, R25). -/

/-- The constant bank holds the values of R24's list, index for index. -/
theorem constants_getElem? (k : ConstIdx) : constants[k.val]? = some (constBank k) := by
  fin_cases k <;> rfl

/-- Two sources of one value give one masked operand (R150). -/
theorem State.sourceOperand_congr {s : State} {src src' : Source} (h : s.sourceValue src = s.sourceValue src')
    (wb : Width) : s.sourceOperand src wb = s.sourceOperand src' wb := by
  simp only [State.sourceOperand, h]

/-- A two-operand instruction sees its source operand only through the source's value. -/
theorem exec_withSource_congr {s : State} {src src' : Source} (h : s.sourceValue src = s.sourceValue src')
    {i j j' : Instr} (hj : withSource src i = some j) (hj' : withSource src' i = some j') : exec j s = exec j' s := by
  have ho := State.sourceOperand_congr h
  cases i with
  | add | addc | dadd =>
    cases hj
    cases hj'
    simp only [exec, execAdd, execAddc, execDadd, ho]
  | sub | subc | cmp =>
    cases hj
    cases hj'
    simp only [exec, execSub, execSubc, execCmp, State.negOperand, ho]
  | xor | and | or =>
    cases hj
    cases hj'
    simp only [exec, execXor, execAnd, execOr, ho]
  | bit | bic | bis =>
    cases hj
    cases hj'
    simp only [exec, execBit, execBic, execBis, State.bitInstr, ho]
  | _ => cases hj

/-- Settles O16: the constant's value is the register's, and EXEC1 sees only the value. -/
theorem constantSourceActsAsItsValue : Obligations.ConstantSourceActsAsItsValue := by
  intro s r k i j hk hi hj
  have hv : s.sourceValue (.const k) = s.sourceValue (.reg r) :=
    Option.some.inj ((constants_getElem? k).symm.trans hk)
  exact exec_withSource_congr hv hi hj

/-! The sequential path (R27, R341). -/

/-- Settles O46: the odd tick fetches the word at `a + 2` and the even tick decodes it, each without a bubble. -/
theorem sequentialInstructionReadsPcPlusFour : Obligations.SequentialInstructionReadsPcPlusFour := by
  intro s t a hs hst hd hx hpc hp
  have ht := step_odd_tick hs.odd hs.no_bubbles.2 hst
  have he : t.clk % 2 = 0 := by
    have := ht.clk
    have := hs.odd
    omega
  obtain ⟨u, htu⟩ : ∃ u, step t = .next u := ⟨_, step_even he hd⟩
  have hu := step_even_tick he hd htu
  have hdi : u.di = .fetched (decode (s.memRead .instruction (a + 2#16) .word)) (a + 2#16) := by
    rw [hu.di, ht.ir, hs.next_fetch]
  refine ⟨u, htu, ?_, hdi⟩
  constructor
  case odd =>
    have := hu.clk
    omega
  case no_bubbles => exact ⟨hu.dbub, hu.xbub.trans hx⟩
  case nothing_pending => exact hu.mem2
  case decoded => exact ⟨_, hdi⟩
  case next_fetch =>
    rw [hu.imar, hpc, hs.pc_ahead, BitVec.add_assoc]
    rfl
  case pc_ahead =>
    rw [step_even_pc he hd htu hp, hpc, hs.pc_ahead, BitVec.add_assoc, BitVec.add_assoc]
    rfl

/-! What every tick keeps and counts (R34, R35, R302, R331). -/

/-- Settles O54: the two bubble ticks write no such field, and the other two are `EvenTick` and `OddTick`. -/
theorem ticksKeepPriorityAndCountClock : Obligations.TicksKeepPriorityAndCountClock := by
  intro s t h
  rcases step_cases h with ⟨-, -, rfl⟩ | ⟨he, hb, -⟩ | ⟨-, -, rfl⟩ | ⟨ho, hb, -⟩
  · simp
  · have ht := step_even_tick he hb h
    exact ⟨by rw [ht.psw], by rw [ht.psw], by rw [ht.psw], ht.bkpt, ht.bitnumOor, ht.clk⟩
  · simp
  · have ht := step_odd_tick ho hb h
    obtain ⟨hcpri, hppri, hflt⟩ := ht.priority
    exact ⟨hcpri, hppri, hflt, ht.bkpt, ht.bitnumOor, ht.clk⟩

/-! Another value of the sleep flag (R33): every operation of a tick commutes with it. -/

/-- The state with another SLP. -/
def State.withSlp (s : State) (b : Bool) : State := { s with psw := { s.psw with slp := b } }

section
variable (s : State) (b : Bool)

@[simp] theorem State.withSlp_ir : (s.withSlp b).ir = s.ir := rfl

@[simp] theorem State.withSlp_di : (s.withSlp b).di = s.di := rfl

@[simp] theorem State.withSlp_mem2 : (s.withSlp b).mem2 = s.mem2 := rfl

@[simp] theorem State.withSlp_bitnumOor : (s.withSlp b).bitnumOor = s.bitnumOor := rfl

theorem State.writeDest_withSlp (d : Reg) (v : Word) (wb : Width) :
    (s.withSlp b).writeDest d v wb = (s.writeDest d v wb).withSlp b := by
  cases wb <;> rfl

theorem State.arithResult_withSlp (d : Reg) (wb : Width) (x y r : Word) :
    (s.withSlp b).arithResult d wb x y r = (s.arithResult d wb x y r).withSlp b := by
  cases wb <;> rfl

theorem State.logicResult_withSlp (d : Reg) (wb : Width) (r : Word) :
    (s.withSlp b).logicResult d wb r = (s.logicResult d wb r).withSlp b := by
  cases wb <;> rfl

theorem State.branchIf_withSlp (taken : Bool) (off : Word) :
    (s.withSlp b).branchIf taken off = (s.branchIf taken off).withSlp b := by
  cases taken <;> rfl

theorem State.preAdjust_withSlp (prpo : Bool) (r : Reg) (k : Word) :
    (s.withSlp b).preAdjust prpo r k = (s.preAdjust prpo r k).withSlp b := by
  cases prpo <;> rfl

theorem State.adjust_withSlp (post : Option (Reg × Word)) :
    (s.withSlp b).adjust post = (s.adjust post).withSlp b := by
  cases post <;> rfl

theorem State.sourceOperand_withSlp (src : Source) (wb : Width) :
    (s.withSlp b).sourceOperand src wb = s.sourceOperand src wb := by
  cases src <;> rfl

theorem State.negOperand_withSlp (src : Source) (wb : Width) :
    (s.withSlp b).negOperand src wb = s.negOperand src wb := by
  cases src <;> rfl

theorem State.finishLoad_withSlp (p : Pending) (d : Reg) (hk : p.kind = .load d) :
    (s.withSlp b).finishLoad p d = (s.finishLoad p d).withSlp b := by
  rw [State.finishLoad_eq _ _ _ hk, State.finishLoad_eq _ _ _ hk]
  rcases p.post with _ | ⟨r, k⟩
  · exact s.writeDest_withSlp b ..
  · simp only
    split
    · rfl
    · rw [← State.adjust_withSlp, ← State.writeDest_withSlp]
      rfl

theorem State.finishStore_withSlp (p : Pending) (data : Word) (hk : p.kind = .store data) :
    (s.withSlp b).finishStore p data = (s.finishStore p data).withSlp b := by
  rw [State.finishStore_eq _ _ _ hk, State.finishStore_eq _ _ _ hk, ← State.adjust_withSlp]
  rfl

theorem State.exec2_withSlp : (s.withSlp b).exec2 = s.exec2.withSlp b := by
  unfold State.exec2
  rw [State.withSlp_mem2]
  cases s.mem2 with
  | none => rfl
  | some p =>
    rcases hk : p.kind with d | data
    · simp only [hk, State.finishLoad_withSlp s b p d hk]
      rfl
    · simp only [hk, State.finishStore_withSlp s b p data hk]
      rfl

theorem State.decodePhase_withSlp : (s.withSlp b).decodePhase = s.decodePhase.withSlp b := by
  unfold State.decodePhase
  rw [State.withSlp_ir]
  cases s.ir <;> rfl

theorem State.retire_withSlp : (s.withSlp b).retire = s.retire.withSlp b := by
  unfold State.retire
  rw [State.withSlp_di]
  cases s.di.addr <;> rfl

theorem State.bitInstr_withSlp {t : State} {src : Source} {wb : Width} {r : Word} {finish : State → Word → State}
    (hf : ∀ u v, finish (u.withSlp b) v = (finish u v).withSlp b) (h : s.bitInstr src wb r finish = .next t) :
    (s.withSlp b).bitInstr src wb r finish = .next (t.withSlp b) := by
  unfold State.bitInstr at h ⊢
  rw [State.sourceOperand_withSlp, State.withSlp_bitnumOor]
  cases hr : bitResult s.bitnumOor r (s.sourceOperand src wb) wb <;> rw [hr] at h <;> cases h
  · exact congrArg _ (hf s _)
  · exact congrArg _ (hf s.draw.2 _)

end

/-! The tick with another value of the sleep flag (R33, R221, R222). -/

/-- A SETCC or CLRCC that selects SLP. -/
def SelectsSlp (i : Instr) : Prop := ∃ m : BitVec 5, (i = .setcc m ∨ i = .clrcc m) ∧ m.getLsbD 3 = true

/-- EXEC1 with another SLP does the same, and leaves that SLP unless the instruction selects it. -/
theorem exec_withSlp {i : Instr} {s t : State} (b : Bool) (h : exec i s = .next t) :
    ∃ b', exec i (s.withSlp b) = .next (t.withSlp b') ∧ (b' = b ∨ SelectsSlp i) := by
  cases i with
  | setcc m =>
    cases h
    refine ⟨_, rfl, ?_⟩
    by_cases hm : m.getLsbD 3 = true
    · exact .inr ⟨m, .inl rfl, hm⟩
    · exact .inl (if_neg hm)
  | clrcc m =>
    cases h
    refine ⟨b && !m.getLsbD 3, rfl, ?_⟩
    cases hm : m.getLsbD 3
    · exact .inl (Bool.and_true b)
    · exact .inr ⟨m, .inr rfl, hm⟩
  | bit =>
    simp only [exec, execBit] at h
    exact ⟨b, s.bitInstr_withSlp b (fun _ _ => rfl) h, .inl rfl⟩
  | bic | bis =>
    simp only [exec, execBic, execBis] at h
    exact ⟨b, s.bitInstr_withSlp b (fun u _ => u.logicResult_withSlp b ..) h, .inl rfl⟩
  | ld | st =>
    simp only [exec, execLd, execSt] at h
    split at h
    · cases h
    · next step hstep =>
      cases h
      refine ⟨b, ?_, .inl rfl⟩
      simp only [exec, execLd, execSt, hstep, State.preAdjust_withSlp]
      rfl
  | beq | bne | bc | bnc | bn | bge | blt | bra =>
    cases h
    exact ⟨b, congrArg _ (s.branchIf_withSlp b ..), .inl rfl⟩
  | add | addc | sub | subc | dadd =>
    cases h
    refine ⟨b, ?_, .inl rfl⟩
    rw [← State.arithResult_withSlp]
    simp only [exec, execAdd, execAddc, execSub, execSubc, execDadd, State.sourceOperand_withSlp,
      State.negOperand_withSlp]
    rfl
  | cmp =>
    cases h
    refine ⟨b, ?_, .inl rfl⟩
    simp only [exec, execCmp, State.negOperand_withSlp]
    rfl
  | xor | and | or =>
    cases h
    refine ⟨b, ?_, .inl rfl⟩
    rw [← State.logicResult_withSlp]
    simp only [exec, execXor, execAnd, execOr, State.sourceOperand_withSlp]
    rfl
  | mov | sra =>
    cases h
    exact ⟨b, congrArg _ (s.writeDest_withSlp b ..), .inl rfl⟩
  | rrc =>
    cases h
    refine ⟨b, ?_, .inl rfl⟩
    simp only [exec, execRrc, State.writeDest_withSlp]
    rfl
  | _ =>
    cases h
    exact ⟨b, rfl, .inl rfl⟩

/-- EXEC1 of what the decode latch holds, with another SLP, does the same. -/
theorem exec1_withSlp {s t : State} (b : Bool) (h : s.exec1 = .next t) :
    ∃ b', (s.withSlp b).exec1 = .next (t.withSlp b') ∧
      (b' = b ∨ ∃ i a, s.di = .fetched (.instr i) a ∧ SelectsSlp i) := by
  unfold State.exec1
  rw [State.withSlp_di]
  rcases exec1_cases h with ⟨hd, rfl⟩ | ⟨i, a, hd, hi⟩ | ⟨w, a, hd, rfl⟩ <;> rw [hd]
  · exact ⟨b, rfl, .inl rfl⟩
  · obtain ⟨b', hx, hb'⟩ := exec_withSlp b hi
    exact ⟨b', hx, hb'.imp_right fun hsel => ⟨i, a, rfl, hsel⟩⟩
  · exact ⟨b, rfl, .inl rfl⟩

/-- A tick with another SLP does the same, and leaves that SLP unless it executes a SETCC or CLRCC that selects it. -/
theorem step_withSlp {s t : State} (b : Bool) (h : step s = .next t) :
    ∃ b', step (s.withSlp b) = .next (t.withSlp b') ∧ (b' = b ∨ ∃ i a, Executes s i a ∧ SelectsSlp i) := by
  rcases step_cases h with ⟨he, hb, rfl⟩ | ⟨he, hb, rfl⟩ | ⟨ho, hb, rfl⟩ | ⟨ho, hb, u, hu, rfl⟩
  · exact ⟨b, step_dbub (s := s.withSlp b) he hb, .inl rfl⟩
  · refine ⟨b, (step_even (s := s.withSlp b) he hb).trans (congrArg _ ?_), .inl rfl⟩
    calc (s.withSlp b).beginTick.fetch1.exec2.decodePhase.endTick
        = (s.beginTick.fetch1.withSlp b).exec2.decodePhase.endTick := rfl
      _ = (s.beginTick.fetch1.exec2.decodePhase.withSlp b).endTick := by
        rw [State.exec2_withSlp, State.decodePhase_withSlp]
  · exact ⟨b, step_xbub (s := s.withSlp b) ho hb, .inl rfl⟩
  · obtain ⟨b', hx, hb'⟩ := exec1_withSlp b hu
    refine ⟨b', ?_, hb'.imp_right fun ⟨i, a, hd, hsel⟩ => ⟨i, a, ⟨ho, hb, hd⟩, hsel⟩⟩
    rw [step_odd (s := s.withSlp b) ho hb hx, State.retire_withSlp]
    rfl

/-- Settles O55: the second part is `step_withSlp`; the first is it with the SLP the state already has. -/
theorem sleepFlagHasNoOtherEffect : Obligations.SleepFlagHasNoOtherEffect := by
  refine ⟨fun s t h hne => ?_, fun s t b h => (step_withSlp b h).imp fun _ => And.left⟩
  obtain ⟨b', ht, hb' | ⟨i, a, hx, m, hi, hm⟩⟩ := step_withSlp s.psw.slp h
  · have hts : t = t.withSlp b' := Host.Outcome.next.inj (h.symm.trans ht)
    exact absurd ((congrArg (·.psw.slp) hts).trans hb') hne
  · refine ⟨m, a, ?_, hm⟩
    rcases hi with rfl | rfl
    · exact .inl hx
    · exact .inr hx

end Sys2Proof.Machine
end

section
/-! PROOFS of the statements of 20_memory.md: the byte and word accesses of a space (R55, R57, R59, R61), and which
ticks write a space (R53, R71). -/

namespace Sys2Proof.Machine

open Sys2Proof.Statements

/-! Byte and word accesses (R55, R57, R59, R61). -/

/-- The aligned address of a word access is the even base of its address (R59). -/
theorem alignWord_toNat_eq_evenBase (a : Word) : (alignWord a).toNat = evenBase a :=
  alignWord_toNat a

/-- A write of either width, read byte by byte (R57). -/
theorem Memory.read_writeWidth {m : Memory} (hm : m.wf = true) (a : Word) (wb : Width) (v : Word) (b : Nat) :
    (m.writeWidth a wb v).read b = storedByte m a wb v b := by
  cases wb with
  | byte => exact Memory.read_writeWidth_byte hm a v b
  | word => rw [Memory.read_writeWidth_word hm, alignWord_toNat_eq_evenBase, storedByte]

/-- Settles O32: the laws of a write of either width and of a read of each. -/
theorem memoryAccessesAreLittleEndian : Obligations.MemoryAccessesAreLittleEndian := fun m a v wb hm =>
  ⟨Memory.read_writeWidth hm a wb v, m.readWidth_byte_toNat a, m.readWidth_word_toNat a,
    Memory.wf_writeWidth hm a wb v⟩

/-! Which ticks write a space (R53, R71, R266). -/

/-- EXEC2 changes the data space only where a store is pending (R266, R323). -/
theorem State.store_of_exec2_dmem_ne {s : State} (h : s.exec2.dmem ≠ s.dmem) :
    ∃ p data, s.mem2 = some p ∧ p.kind = .store data := by
  rw [State.exec2_dmem] at h
  split at h
  · next data _ hm => exact ⟨_, data, hm, rfl⟩
  · exact absurd rfl h

/-- The data space after an even tick without a decode-bubble is EXEC2's: the other phases write no memory (R320). -/
theorem step_even_dmem {s t : State} (he : s.clk % 2 = 0) (hb : s.dbub = false) (h : step s = .next t) :
    t.dmem = s.beginTick.fetch1.exec2.dmem := by
  rw [step_even he hb] at h
  cases h
  simp

/-- Settles O53: bubble and odd ticks keep both spaces, and in an even tick only EXEC2 of a pending store writes. -/
theorem onlyPendingStoresWriteMemory : Obligations.OnlyPendingStoresWriteMemory := by
  intro s t h
  rcases step_cases h with ⟨-, -, rfl⟩ | ⟨he, hb, -⟩ | ⟨-, -, rfl⟩ | ⟨ho, hb, -⟩
  · simp
  · refine ⟨(step_even_tick he hb h).imem, fun hne => ⟨he, hb, ?_⟩⟩
    rw [step_even_dmem he hb h] at hne
    exact State.store_of_exec2_dmem_ne (s := s.beginTick.fetch1) hne
  · simp
  · have ht := step_odd_tick ho hb h
    exact ⟨ht.imem, absurd ht.dmem⟩

end Sys2Proof.Machine
end

section
/-! PROOFS of the statements of 30_encoding.md. A word is put together again from the fields the decoder reads (R86 to
R94), so a word decodes only to an instruction whose word it is (R103, R104); NOP (R85) and the displacements (R95 to
R97) follow from that and from `fields_F1` to `fields_F9`. The UNRECOGNIZED ranges (R102) are read off the decoder arm
by arm, as numbers. -/

namespace Sys2Proof

open Sys2Proof.Statements

/-! Fields of a word: as numbers, side by side, and all of them together. -/

/-- A field is a value when the word's number has it at the field's place (R10). -/
theorem field_eq_iff {iw : Word} {lo len : Nat} {v : BitVec len} :
    field iw lo len = v ↔ iw.toNat / 2 ^ lo % 2 ^ len = v.toNat := by
  rw [field, ← BitVec.toNat_inj, BitVec.extractLsb'_toNat, Nat.shiftRight_eq_div_pow]

/-- A bit is the parity of the word's number from that place on (R10). -/
theorem bitAt_iff {iw : Word} {k : Nat} : bitAt iw k = true ↔ iw.toNat / 2 ^ k % 2 = 1 := by
  rw [bitAt, BitVec.getLsbD, Nat.testBit_eq_decide_div_mod_eq, decide_eq_true_eq]

/-- One bit as a field. -/
theorem field_one {iw : Word} {k : Nat} : field iw k 1 = bitOf (bitAt iw k) := by
  ext i hi
  obtain rfl : i = 0 := by omega
  simp [field, bitOf, bitAt]

theorem field_one_of_set {iw : Word} {k : Nat} (h : bitAt iw k = true) : field iw k 1 = 1#1 := by
  rw [field_one, h]
  rfl

theorem field_one_of_clear {iw : Word} {k : Nat} (h : ¬bitAt iw k = true) : field iw k 1 = 0#1 := by
  rw [field_one, Bool.eq_false_iff.mpr h]
  rfl

/-- Two fields side by side are one field. -/
theorem field_append (iw : Word) (lo : Nat) {hi a b : Nat} (h : hi = lo + b) :
    field iw hi a ++ field iw lo b = field iw lo (a + b) := by
  subst h
  ext i hi
  simp only [field, BitVec.getElem_append, BitVec.getElem_extractLsb']
  split
  · rfl
  · congr 1
    omega

/-- A field of two known parts. -/
theorem field_join {iw : Word} (lo : Nat) {hi a b : Nat} {x : BitVec a} {y : BitVec b} (hx : field iw hi a = x)
    (hy : field iw lo b = y) (h : hi = lo + b := by rfl) : field iw lo (a + b) = x ++ y := by
  rw [← field_append iw lo h, hx, hy]

/-- All 16 bits of a word are the word. -/
theorem asWord_field (iw : Word) {n : Nat} (h : n = 16) : asWord (field iw 0 n) h = iw := by
  subst h
  simp [asWord, field]

/-! The encoder's bits of an operand the decoder has read (R100) are the field it was read from. -/

theorem dstField_toBits (iw : Word) : (dstField iw).toBits = field iw 0 3 := Reg.toBits_ofBits _

theorem srcField_toBits (iw : Word) : (srcField iw).toBits = field iw 3 3 := Reg.toBits_ofBits _

theorem wbField_toBit (iw : Word) : (wbField iw).toBit = field iw 6 1 := by
  rw [field_one, wbField]
  cases bitAt iw 6 <;> rfl

theorem sourceField_rcBit (iw : Word) : (sourceField iw).rcBit = field iw 7 1 := by
  rw [field_one, sourceField]
  cases bitAt iw 7 <;> rfl

theorem sourceField_index (iw : Word) : (sourceField iw).index = field iw 3 3 := by
  rw [sourceField]
  split
  · rfl
  · exact srcField_toBits iw

/-- DST reads as PC where its bits are 7 (R100). -/
theorem dstField_eq_pc_iff {iw : Word} : dstField iw = .pc ↔ field iw 0 3 = 7#3 := by
  rw [← Reg.toBits_eq_seven, dstField_toBits]

/-! Displacements (R95 to R97): the bits and the number of an offset field, extended and, for a branch, doubled. -/

/-- A doubled offset holds the field's bits one place up. -/
theorem doubled_bits {n : Nat} (x : BitVec n) (hn : n ≤ 15) : (x.signExtend 16 <<< 1).extractLsb' 1 n = x := by
  ext i hi
  simp [BitVec.getElem_signExtend, hi, show 1 + i < 16 by omega]

theorem off13Field_bits (iw : Word) : (off13Field iw).extractLsb' 1 13 = field iw 0 13 := doubled_bits _ (by decide)

theorem off10Field_bits (iw : Word) : (off10Field iw).extractLsb' 1 10 = field iw 0 10 := doubled_bits _ (by decide)

theorem off7Field_bits (iw : Word) : (off7Field iw).extractLsb' 0 7 = field iw 7 7 := by
  ext i hi
  simp [off7Field, BitVec.getElem_signExtend, hi, show i < 16 by omega]

/-- Shifting left by one doubles a signed number that leaves room for it. -/
theorem shiftLeft_one_toInt {w : Word} (hlo : -16384 ≤ w.toInt) (hhi : w.toInt < 16384) :
    (w <<< 1).toInt = 2 * w.toInt := by
  have hlt := w.isLt
  simp only [BitVec.toInt_eq_toNat_cond, BitVec.toNat_shiftLeft, Nat.shiftLeft_eq] at *
  omega

theorem doubled_toInt {n : Nat} (x : BitVec n) (hn : n ≤ 15) : (x.signExtend 16 <<< 1).toInt = 2 * x.toInt := by
  have hpow : (2 : Int) ^ n ≤ 2 ^ 15 := pow_le_pow_right₀ (by decide) hn
  have hlo := x.le_two_mul_toInt
  have hhi := x.two_mul_toInt_lt
  have hx : (x.signExtend 16).toInt = x.toInt := BitVec.toInt_signExtend_of_le (by omega)
  rw [shiftLeft_one_toInt (by omega) (by omega), hx]

theorem toNat_even_of_toInt {w : Word} {k : Int} (h : w.toInt = 2 * k) : w.toNat % 2 = 0 := by
  rw [BitVec.toInt_eq_toNat_cond] at h
  omega

theorem blOffsetOk_iff {off : Word} :
    blOffsetOk off = true ↔ off.toNat % 2 = 0 ∧ -8192 ≤ off.toInt ∧ off.toInt ≤ 8190 := by
  simp [blOffsetOk, and_assoc]

theorem branchOffsetOk_iff {off : Word} :
    branchOffsetOk off = true ↔ off.toNat % 2 = 0 ∧ -1024 ≤ off.toInt ∧ off.toInt ≤ 1022 := by
  simp [branchOffsetOk, and_assoc]

theorem relOffsetOk_iff {off : Word} : relOffsetOk off = true ↔ -64 ≤ off.toInt ∧ off.toInt ≤ 63 := by
  simp [relOffsetOk]

theorem off13Field_ok (iw : Word) : blOffsetOk (off13Field iw) = true := by
  have hoff : (off13Field iw).toInt = 2 * (field iw 0 13).toInt := doubled_toInt _ (by decide)
  have hlo := (field iw 0 13).le_two_mul_toInt
  have hhi := (field iw 0 13).two_mul_toInt_lt
  exact blOffsetOk_iff.mpr ⟨toNat_even_of_toInt hoff, by omega, by omega⟩

theorem off10Field_ok (iw : Word) : branchOffsetOk (off10Field iw) = true := by
  have hoff : (off10Field iw).toInt = 2 * (field iw 0 10).toInt := doubled_toInt _ (by decide)
  have hlo := (field iw 0 10).le_two_mul_toInt
  have hhi := (field iw 0 10).two_mul_toInt_lt
  exact branchOffsetOk_iff.mpr ⟨toNat_even_of_toInt hoff, by omega, by omega⟩

theorem off7Field_ok (iw : Word) : relOffsetOk (off7Field iw) = true := by
  have hoff : (off7Field iw).toInt = (field iw 7 7).toInt := BitVec.toInt_signExtend_of_le (by decide)
  have hlo := (field iw 7 7).le_two_mul_toInt
  have hhi := (field iw 7 7).two_mul_toInt_lt
  exact relOffsetOk_iff.mpr ⟨by omega, by omega⟩

/-! A word is its fields put together by its format (R86 to R94). -/

section Assemble

variable {iw : Word}

theorem encodeF1_fields (h : field iw 13 3 = 0b000#3) : encodeF1 (off13Field iw) = iw := by
  unfold encodeF1
  rw [off13Field_bits, ← h]
  simp only [field_append, asWord_field]

theorem encodeF2_fields {cond : BitVec 3} (h : field iw 13 3 = 0b001#3) (hc : field iw 10 3 = cond) :
    encodeF2 cond (off10Field iw) = iw := by
  unfold encodeF2
  rw [off10Field_bits, ← h, ← hc]
  simp only [field_append, asWord_field]

theorem encodeF3_fields {opc : BitVec 4} (h : field iw 12 4 = 0b0100#4) (ho : field iw 8 4 = opc) :
    encodeF3 opc (sourceField iw) (dstField iw) (wbField iw) = iw := by
  unfold encodeF3
  rw [sourceField_rcBit, sourceField_index, dstField_toBits, wbField_toBit, ← h, ← ho]
  simp only [field_append, asWord_field]

theorem encodeF4_fields {b7 b6 : BitVec 1} (h : field iw 8 8 = 0b01001100#8) (h7 : field iw 7 1 = b7)
    (h6 : field iw 6 1 = b6) : encodeF4 b7 b6 (srcField iw) (dstField iw) = iw := by
  unfold encodeF4
  rw [srcField_toBits, dstField_toBits, ← h, ← h7, ← h6]
  simp only [field_append, asWord_field]

theorem encodeF5_fields {sel : BitVec 3} {b6 : BitVec 1} (h : field iw 7 9 = 0b010011010#9)
    (hs : field iw 3 3 = sel) (h6 : field iw 6 1 = b6) : encodeF5 sel b6 (dstField iw) = iw := by
  unfold encodeF5
  rw [dstField_toBits, ← h, ← hs, ← h6]
  simp only [field_append, asWord_field]

theorem encodeF6_fields {sel : BitVec 2} (h : field iw 7 9 = 0b010011011#9) (hs : field iw 5 2 = sel) :
    encodeF6 sel (field iw 0 5) = iw := by
  unfold encodeF6
  rw [← h, ← hs]
  simp only [field_append, asWord_field]

theorem encodeF7_fields {store : BitVec 1} (h : field iw 12 4 = 0b0101#4) (hs : field iw 10 2 = 1#1 ++ store) :
    encodeF7 store (bitAt iw 9) (bitAt iw 8) (bitAt iw 7) (srcField iw) (dstField iw) (wbField iw) = iw := by
  have hop : 0b01011#5 ++ store = field iw 10 6 := by
    rw [field_join 10 h hs]
    rcases BitVec.eq_zero_or_eq_one store with rfl | rfl <;> rfl
  unfold encodeF7
  rw [hop, srcField_toBits, dstField_toBits, wbField_toBit, ← field_one, ← field_one, ← field_one]
  simp only [field_append, asWord_field]

theorem encodeF8_fields {op2 : BitVec 2} (h : field iw 13 3 = 0b011#3) (ho : field iw 11 2 = op2) :
    encodeF8 op2 (immField iw) (dstField iw) = iw := by
  unfold encodeF8 immField
  rw [dstField_toBits, ← h, ← ho]
  simp only [field_append, asWord_field]

theorem encodeF9_fields {store : BitVec 1} (h : field iw 15 1 = 1#1) (hs : field iw 14 1 = store) :
    encodeF9 store (off7Field iw) (srcField iw) (dstField iw) (wbField iw) = iw := by
  unfold encodeF9
  rw [off7Field_bits, srcField_toBits, dstField_toBits, wbField_toBit, ← h, ← hs]
  simp only [field_append, asWord_field]

end Assemble

/-! The decoder answers with the word's own meaning: an instruction that is well-formed and encodes to the word (R103,
R104), arm by arm of R83. -/

/-- What decoding a word answers fits the word: an instruction is well-formed and encodes to it, UNRECOGNIZED carries
it. -/
def Decoded.Fits (iw : Word) : Decoded → Prop
  | .instr i => i.wellFormed = true ∧ encode i = iw
  | .unrecognized w => w = iw

/-- The last two-bit value, where a decoder's match leaves it over. -/
theorem eq_three_of_ne {c : BitVec 2} (h0 : c ≠ 0b00#2) (h1 : c ≠ 0b01#2) (h2 : c ≠ 0b10#2) : c = 0b11#2 := by
  bv_omega

/-- The last three-bit value, where a decoder's match leaves it over. -/
theorem eq_seven_of_ne {c : BitVec 3} (h0 : c ≠ 0b000#3) (h1 : c ≠ 0b001#3) (h2 : c ≠ 0b010#3) (h3 : c ≠ 0b011#3)
    (h4 : c ≠ 0b100#3) (h5 : c ≠ 0b101#3) (h6 : c ≠ 0b110#3) : c = 0b111#3 := by
  bv_omega

section Fits

variable {iw : Word}

theorem decodeBranch_fits (h : field iw 13 3 = 0b001#3) : (decodeBranch iw).Fits iw := by
  unfold decodeBranch
  split
  case h_8 h0 h1 h2 h3 h4 h5 h6 =>
    have hc := eq_seven_of_ne h0 h1 h2 h3 h4 h5 h6
    exact ⟨off10Field_ok iw, encodeF2_fields h hc⟩
  all_goals
    next hc => exact ⟨off10Field_ok iw, encodeF2_fields h hc⟩

theorem decodeAdd_fits (h : field iw 12 4 = 0b0100#4) (ho : field iw 8 4 = 0b0000#4) : (decodeAdd iw).Fits iw := by
  have he := encodeF3_fields h ho
  unfold decodeAdd
  split
  · next hd =>
    rw [dstField_eq_pc_iff.mpr hd] at he
    exact ⟨rfl, he⟩
  · next hd => exact ⟨bne_iff_ne.mpr (mt dstField_eq_pc_iff.mp hd), he⟩

theorem decodeMove_fits (h : field iw 8 8 = 0b01001100#8) : (decodeMove iw).Fits iw := by
  unfold decodeMove
  split
  · next h7 =>
    split
    · rfl
    · next h6 => exact ⟨rfl, encodeF4_fields h (field_one_of_set h7) (field_one_of_clear h6)⟩
  · next h7 => exact ⟨rfl, encodeF4_fields h (field_one_of_clear h7) (wbField_toBit iw).symm⟩

theorem decodeShift_fits (h : field iw 7 9 = 0b010011010#9) : (decodeShift iw).Fits iw := by
  unfold decodeShift
  split
  · next hs => exact ⟨rfl, encodeF5_fields h hs (wbField_toBit iw).symm⟩
  · next hs => exact ⟨rfl, encodeF5_fields h hs (wbField_toBit iw).symm⟩
  · next hs =>
    split
    · rfl
    · next h6 => exact ⟨rfl, encodeF5_fields h hs (field_one_of_clear h6)⟩
  · next hs =>
    split
    · rfl
    · next h6 => exact ⟨rfl, encodeF5_fields h hs (field_one_of_clear h6)⟩
  · rfl

theorem decodeFlagOp_fits (h : field iw 7 9 = 0b010011011#9) : (decodeFlagOp iw).Fits iw := by
  unfold decodeFlagOp
  split
  · next hs => exact ⟨rfl, encodeF6_fields h hs⟩
  · next hs => exact ⟨rfl, encodeF6_fields h hs⟩
  · rfl

theorem decodeAlu_fits (h : field iw 12 4 = 0b0100#4) : (decodeAlu iw).Fits iw := by
  unfold decodeAlu
  split
  case h_1 ho => exact decodeAdd_fits h ho
  case h_13 ho => exact decodeMove_fits (field_join 8 h ho)
  case h_14 ho =>
    have h8 : field iw 8 8 = 0b01001101#8 := field_join 8 h ho
    split
    · next h7 => exact decodeFlagOp_fits (field_join 7 h8 (field_one_of_set h7))
    · next h7 => exact decodeShift_fits (field_join 7 h8 (field_one_of_clear h7))
  case h_15 => rfl
  all_goals
    next ho => exact ⟨rfl, encodeF3_fields h ho⟩

theorem decodeIndirect_fits (h : field iw 12 4 = 0b0101#4) : (decodeIndirect iw).Fits iw := by
  unfold decodeIndirect
  split
  · next hs => exact ⟨rfl, encodeF7_fields h hs⟩
  · next hs => exact ⟨rfl, encodeF7_fields h hs⟩
  · rfl

theorem decodeImmediate_fits (h : field iw 13 3 = 0b011#3) : (decodeImmediate iw).Fits iw := by
  unfold decodeImmediate
  split
  case h_4 h0 h1 h2 =>
    have ho := eq_three_of_ne h0 h1 h2
    exact ⟨rfl, encodeF8_fields h ho⟩
  all_goals
    next ho => exact ⟨rfl, encodeF8_fields h ho⟩

theorem decodeRelative_fits (h : bitAt iw 15 = true) : (decodeRelative iw).Fits iw := by
  unfold decodeRelative
  split
  · next hs => exact ⟨off7Field_ok iw, encodeF9_fields (field_one_of_set h) (field_one_of_set hs)⟩
  · next hs => exact ⟨off7Field_ok iw, encodeF9_fields (field_one_of_set h) (field_one_of_clear hs)⟩

theorem decode_fits (iw : Word) : (decode iw).Fits iw := by
  unfold decode
  split
  · next h15 => exact decodeRelative_fits h15
  · next h15 =>
    have h15 := field_one_of_clear h15
    split
    · next h13 => exact ⟨off13Field_ok iw, encodeF1_fields (field_join 13 h15 h13)⟩
    · next h13 => exact decodeBranch_fits (field_join 13 h15 h13)
    · next h13 =>
      have h3 : field iw 13 3 = 0b010#3 := field_join 13 h15 h13
      split
      · next h12 => exact decodeIndirect_fits (field_join 12 h3 (field_one_of_set h12))
      · next h12 => exact decodeAlu_fits (field_join 12 h3 (field_one_of_clear h12))
    · next h0 h1 h2 =>
      have h13 := eq_three_of_ne h0 h1 h2
      exact decodeImmediate_fits (field_join 13 h15 h13)

end Fits

/-- Settles O3: each arm of the decoder fits the word. -/
theorem encodeOfDecodeGivesWord : Obligations.EncodeOfDecodeGivesWord := by
  intro iw i h
  have hfits := decode_fits iw
  rwa [h] at hfits

/-! What the decoder reads from an encoded word of each format: which part of it decides, and the operands (R86 to
R94). -/

section ReadBack

variable (off : Word) (src dst : Reg) (wb : Width)

theorem decode_encodeF1 : decode (encodeF1 off) = .instr (.bl ((off.extractLsb' 1 13).signExtend 16 <<< 1)) := by
  obtain ⟨h15, h13, ho⟩ := fields_F1 off
  simp [decode, off13Field, h15, h13, ho]

theorem decode_encodeF2 (cond : BitVec 3) :
    decode (encodeF2 cond off) = decodeBranch (encodeF2 cond off) ∧ field (encodeF2 cond off) 10 3 = cond ∧
      off10Field (encodeF2 cond off) = (off.extractLsb' 1 10).signExtend 16 <<< 1 := by
  obtain ⟨h15, h13, hc, ho⟩ := fields_F2 cond off
  simp [decode, off10Field, h15, h13, hc, ho]

theorem decode_encodeF3 (opc : BitVec 4) (s : Source) :
    decode (encodeF3 opc s dst wb) = decodeAlu (encodeF3 opc s dst wb) ∧ field (encodeF3 opc s dst wb) 8 4 = opc ∧
      sourceField (encodeF3 opc s dst wb) = s ∧ field (encodeF3 opc s dst wb) 0 3 = dst.toBits ∧
      dstField (encodeF3 opc s dst wb) = dst ∧ wbField (encodeF3 opc s dst wb) = wb := by
  obtain ⟨h15, h12, h7, h6, h13, h8, h3, h0⟩ := fields_F3 opc s dst wb
  simp [decode, sourceField, srcField, dstField, wbField, h15, h12, h7, h6, h13, h8, h3, h0]

theorem decode_encodeF4 (b7 b6 : BitVec 1) :
    decode (encodeF4 b7 b6 src dst) = decodeMove (encodeF4 b7 b6 src dst) ∧
      bitAt (encodeF4 b7 b6 src dst) 7 = decide (b7 = 1#1) ∧ bitAt (encodeF4 b7 b6 src dst) 6 = decide (b6 = 1#1) ∧
      srcField (encodeF4 b7 b6 src dst) = src ∧ dstField (encodeF4 b7 b6 src dst) = dst := by
  obtain ⟨h15, h12, h7, h6, h13, h8, h3, h0⟩ := fields_F4 b7 b6 src dst
  simp [decode, decodeAlu, srcField, dstField, h15, h12, h7, h6, h13, h8, h3, h0]

theorem decode_encodeF5 (sel : BitVec 3) (b6 : BitVec 1) :
    decode (encodeF5 sel b6 dst) = decodeShift (encodeF5 sel b6 dst) ∧ field (encodeF5 sel b6 dst) 3 3 = sel ∧
      bitAt (encodeF5 sel b6 dst) 6 = decide (b6 = 1#1) ∧ dstField (encodeF5 sel b6 dst) = dst := by
  obtain ⟨h15, h12, h7, h6, h13, h8, h3, h0⟩ := fields_F5 sel b6 dst
  simp [decode, decodeAlu, dstField, h15, h12, h7, h6, h13, h8, h3, h0]

theorem decode_encodeF6 (sel : BitVec 2) (mask5 : BitVec 5) :
    decode (encodeF6 sel mask5) = decodeFlagOp (encodeF6 sel mask5) ∧ field (encodeF6 sel mask5) 5 2 = sel ∧
      field (encodeF6 sel mask5) 0 5 = mask5 := by
  obtain ⟨h15, h12, h7, h13, h8, h5, h0⟩ := fields_F6 sel mask5
  simp [decode, decodeAlu, h15, h12, h7, h13, h8, h5, h0]

theorem decode_encodeF7 (store : BitVec 1) (prpo dec inc : Bool) :
    decode (encodeF7 store prpo dec inc src dst wb) =
      .instr (if store = 1#1 then .st prpo dec inc src dst wb else .ld prpo dec inc src dst wb) := by
  obtain ⟨h15, h12, h9, h8, h7, h6, h13, h10, h3, h0⟩ := fields_F7 store prpo dec inc src dst wb
  rcases BitVec.eq_zero_or_eq_one store with rfl | rfl <;>
    simp [decode, decodeIndirect, srcField, dstField, wbField, h15, h12, h9, h8, h7, h6, h13, h10, h3, h0]

theorem decode_encodeF8 (op2 : BitVec 2) (imm : Byte) :
    decode (encodeF8 op2 imm dst) = decodeImmediate (encodeF8 op2 imm dst) ∧ field (encodeF8 op2 imm dst) 11 2 = op2 ∧
      immField (encodeF8 op2 imm dst) = imm ∧ dstField (encodeF8 op2 imm dst) = dst := by
  obtain ⟨h15, h13, h11, h3, h0⟩ := fields_F8 op2 imm dst
  simp [decode, immField, dstField, h15, h13, h11, h3, h0]

theorem decode_encodeF9 (store : BitVec 1) :
    decode (encodeF9 store off src dst wb) =
      .instr (if store = 1#1 then .str ((off.extractLsb' 0 7).signExtend 16) src dst wb
        else .ldr ((off.extractLsb' 0 7).signExtend 16) src dst wb) := by
  obtain ⟨h15, h14, h6, h7, h3, h0⟩ := fields_F9 store off src dst wb
  rcases BitVec.eq_zero_or_eq_one store with rfl | rfl <;>
    simp [decode, decodeRelative, off7Field, srcField, dstField, wbField, h15, h14, h6, h7, h3, h0]

end ReadBack

/-- The word of a well-formed instruction decodes to the instruction, format by format (R104). -/
theorem decode_encode {i : Instr} (h : i.wellFormed = true) : decode (encode i) = .instr i := by
  cases i with
  | bl off =>
    rw [encode, decode_encodeF1, off13_roundtrip h]
  | beq off | bne off | bc off | bnc off | bn off | bge off | blt off | bra off =>
    simp [encode, decodeBranch, decode_encodeF2, off10_roundtrip h]
  | add src dst wb =>
    have hpc : dst ≠ .pc := by simpa [Instr.wellFormed] using h
    simp [encode, decodeAlu, decodeAdd, decode_encodeF3, Reg.toBits_eq_seven, hpc]
  | addc src dst wb | sub src dst wb | subc src dst wb | dadd src dst wb | cmp src dst wb | xor src dst wb
  | and src dst wb | or src dst wb | bit src dst wb | bic src dst wb | bis src dst wb =>
    simp [encode, decodeAlu, decode_encodeF3]
  | nop src wb =>
    simp [encode, decodeAlu, decodeAdd, decode_encodeF3, Reg.toBits]
  | mov src dst wb | swap src dst =>
    simp [encode, decodeMove, decode_encodeF4, wbField]
  | sra dst wb | rrc dst wb | swpb dst | sxt dst =>
    simp [encode, decodeShift, decode_encodeF5, wbField]
  | setcc mask5 | clrcc mask5 =>
    simp [encode, decodeFlagOp, decode_encodeF6]
  | ld prpo dec inc src dst wb | st prpo dec inc src dst wb =>
    rw [encode, decode_encodeF7]
    rfl
  | movl imm dst | movlz imm dst | movls imm dst | movh imm dst =>
    simp [encode, decodeImmediate, decode_encodeF8]
  | ldr off src dst wb | str off src dst wb =>
    rw [encode, decode_encodeF9, off7_roundtrip h]
    rfl

/-- Settles O2: a decoded instruction is well-formed, and a well-formed one is read back format by format. -/
theorem decodeOfEncodeGivesInstruction : Obligations.DecodeOfEncodeGivesInstruction := fun i =>
  ⟨fun h => (encodeOfDecodeGivesWord (encode i) i h).1, decode_encode⟩

/-! NOP and the ADD words with destination field 7 (R85). -/

/-- Settles O5: NOP's words have ADD's opcode and destination field 7, such a word is NOP's with the word's own fields,
and an ADD to PC is not well-formed. -/
theorem addToPcDecodesToNop : Obligations.AddToPcDecodesToNop := by
  intro iw
  refine ⟨⟨?_, ?_⟩, ?_⟩
  · rintro ⟨src, wb, h⟩
    obtain ⟨-, rfl⟩ := encodeOfDecodeGivesWord iw _ h
    have hfixed := Laws.MatchesTable.nop src wb
    have hop := field_eq_iff.mp (hfixed (8, 8, 64) (List.mem_cons_of_mem _ List.mem_cons_self))
    have hdst := field_eq_iff.mp (hfixed (0, 3, 7) List.mem_cons_self)
    simp only [BitVec.toNat_ofNat] at hop hdst
    omega
  · rintro ⟨hop, hdst⟩
    have h12 : field iw 12 4 = 0b0100#4 := field_eq_iff.mpr (by simp only [BitVec.toNat_ofNat]; omega)
    have h8 : field iw 8 4 = 0b0000#4 := field_eq_iff.mpr (by simp only [BitVec.toNat_ofNat]; omega)
    have h0 : field iw 0 3 = 7#3 := field_eq_iff.mpr (by simp only [BitVec.toNat_ofNat]; omega)
    have hw : encode (.nop (sourceField iw) (wbField iw)) = iw := by
      rw [encode, ← dstField_eq_pc_iff.mpr h0, encodeF3_fields h12 h8]
    exact ⟨sourceField iw, wbField iw, by rw [← decode_encode rfl, hw]⟩
  · intro src wb h
    obtain ⟨hwf, -⟩ := encodeOfDecodeGivesWord iw _ h
    exact absurd hwf (by simp [Instr.wellFormed])

/-! Displacements as signed numbers (R95 to R97). -/

/-- A displacement in BL's range is twice its 13 bits, signed. -/
theorem blOffset_toInt {off : Word} (h : blOffsetOk off = true) :
    off.toInt = 2 * (off.extractLsb' 1 13).toInt ∧ -8192 ≤ off.toInt ∧ off.toInt ≤ 8190 := by
  have hbits := doubled_toInt (off.extractLsb' 1 13) (by decide)
  rw [off13_roundtrip h] at hbits
  exact ⟨hbits, (blOffsetOk_iff.mp h).2⟩

/-- A displacement in a conditional branch's range is twice its 10 bits, signed. -/
theorem branchOffset_toInt {off : Word} (h : branchOffsetOk off = true) :
    off.toInt = 2 * (off.extractLsb' 1 10).toInt ∧ -1024 ≤ off.toInt ∧ off.toInt ≤ 1022 := by
  have hbits := doubled_toInt (off.extractLsb' 1 10) (by decide)
  rw [off10_roundtrip h] at hbits
  exact ⟨hbits, (branchOffsetOk_iff.mp h).2⟩

/-- A displacement in the range of LDR and STR is its 7 bits, signed. -/
theorem relOffset_toInt {off : Word} (h : relOffsetOk off = true) :
    off.toInt = (off.extractLsb' 0 7).toInt ∧ -64 ≤ off.toInt ∧ off.toInt ≤ 63 := by
  have hbits : ((off.extractLsb' 0 7).signExtend 16).toInt = (off.extractLsb' 0 7).toInt :=
    BitVec.toInt_signExtend_of_le (by decide)
  rw [off7_roundtrip h] at hbits
  exact ⟨hbits, relOffsetOk_iff.mp h⟩

/-- The displacement's bits stand at 13:7 in format F9 (R94). -/
theorem offsetBits_encodeF9 (store : BitVec 1) (off : Word) (src dst : Reg) (wb : Width) :
    (encodeF9 store off src dst wb).extractLsb' 7 7 = off.extractLsb' 0 7 := by
  obtain ⟨-, -, -, hbits, -, -⟩ := fields_F9 store off src dst wb
  exact hbits

/-- A well-formed conditional branch is a word of format F2 with a displacement in range (R87, R96). -/
theorem encode_condBranch {i : Instr} (hb : isBranch i = true) (hbl : ∀ o, i ≠ .bl o) (hwf : i.wellFormed = true) :
    branchOffsetOk (branchOffset i) = true ∧ ∃ cond, encode i = encodeF2 cond (branchOffset i) := by
  cases i with
  | bl off => exact absurd rfl (hbl off)
  | beq | bne | bc | bnc | bn | bge | blt | bra => exact ⟨hwf, _, rfl⟩
  | _ => cases hb

/-- Settles O6: a decoded displacement is in range and the word is the encoding, whose bits are the displacement's. -/
theorem decodedOffsetsAreSignedFields : Obligations.DecodedOffsetsAreSignedFields := by
  intro iw off
  refine ⟨fun h => ?_, fun i hb hbl h => ?_, fun src dst wb h => ?_⟩
  · obtain ⟨hwf, rfl⟩ := encodeOfDecodeGivesWord iw _ h
    obtain ⟨-, -, hbits⟩ := fields_F1 off
    rw [encode, ← field, hbits]
    exact blOffset_toInt hwf
  · obtain ⟨hwf, rfl⟩ := encodeOfDecodeGivesWord iw i h
    obtain ⟨hok, cond, he⟩ := encode_condBranch hb hbl hwf
    obtain ⟨-, -, -, hbits⟩ := fields_F2 cond (branchOffset i)
    rw [he, ← field, hbits]
    exact branchOffset_toInt hok
  · rcases h with h | h
    all_goals
      obtain ⟨hwf, rfl⟩ := encodeOfDecodeGivesWord iw _ h
      rw [encode, offsetBits_encodeF9]
      exact relOffset_toInt hwf

/-! The UNRECOGNIZED words (R102), as numbers: each part of the decoder, on the words it is asked about, follows the
ranges. -/

/-- What decoding a word answers follows the ranges of R102: UNRECOGNIZED with the word itself where it is listed, an
instruction where not. -/
def Decoded.FollowsRanges (iw : Word) : Decoded → Prop
  | .instr _ => ¬inUnrecognizedSpace iw.toNat
  | .unrecognized w => w = iw ∧ inUnrecognizedSpace iw.toNat

section Ranges

variable {iw : Word}

theorem followsRanges_instr {i : Instr} (h : ¬inUnrecognizedSpace iw.toNat) : (Decoded.instr i).FollowsRanges iw := h

theorem followsRanges_unrecognized (h : inUnrecognizedSpace iw.toNat) : (Decoded.unrecognized iw).FollowsRanges iw :=
  ⟨rfl, h⟩

/-- Words below or above every range. -/
theorem unlisted_of_outside (h : iw.toNat < 0x4CC0 ∨ 0x5800 ≤ iw.toNat) : ¬inUnrecognizedSpace iw.toNat := by
  unfold inUnrecognizedSpace
  omega

theorem decodeBranch_followsRanges (h : iw.toNat / 8192 = 1) : (decodeBranch iw).FollowsRanges iw := by
  have hn : ¬inUnrecognizedSpace iw.toNat := unlisted_of_outside (by omega)
  unfold decodeBranch
  split <;> exact followsRanges_instr hn

theorem decodeAdd_followsRanges (h : iw.toNat / 256 = 0x40) : (decodeAdd iw).FollowsRanges iw := by
  have hn : ¬inUnrecognizedSpace iw.toNat := unlisted_of_outside (by omega)
  unfold decodeAdd
  split <;> exact followsRanges_instr hn

/-- Only SWAP's words with bit 6 set are listed. -/
theorem decodeMove_followsRanges (h : iw.toNat / 256 = 0x4C) : (decodeMove iw).FollowsRanges iw := by
  simp only [decodeMove, bitAt_iff]
  split_ifs
  · exact followsRanges_unrecognized (by unfold inUnrecognizedSpace; omega)
  · exact followsRanges_instr (by unfold inUnrecognizedSpace; omega)
  · exact followsRanges_instr (by unfold inUnrecognizedSpace; omega)

/-- SRA and RRC take either width; SWPB and SXT are listed with bit 6 set, the other selectors always. -/
theorem decodeShift_followsRanges (h : iw.toNat / 128 = 0x9A) : (decodeShift iw).FollowsRanges iw := by
  unfold decodeShift
  split
  all_goals simp only [bitAt_iff, field_eq_iff, imp_false, BitVec.toNat_ofNat, Nat.reducePow] at *
  case h_3 | h_4 =>
    split
    · exact followsRanges_unrecognized (by unfold inUnrecognizedSpace; omega)
    · exact followsRanges_instr (by unfold inUnrecognizedSpace; omega)
  case h_5 => exact followsRanges_unrecognized (by unfold inUnrecognizedSpace; omega)
  all_goals exact followsRanges_instr (by unfold inUnrecognizedSpace; omega)

theorem decodeFlagOp_followsRanges (h : iw.toNat / 128 = 0x9B) : (decodeFlagOp iw).FollowsRanges iw := by
  unfold decodeFlagOp
  split
  all_goals simp only [field_eq_iff, imp_false, BitVec.toNat_ofNat, Nat.reducePow] at *
  · exact followsRanges_instr (by unfold inUnrecognizedSpace; omega)
  · exact followsRanges_instr (by unfold inUnrecognizedSpace; omega)
  · exact followsRanges_unrecognized (by unfold inUnrecognizedSpace; omega)

theorem decodeAlu_followsRanges (h : iw.toNat / 4096 = 4) : (decodeAlu iw).FollowsRanges iw := by
  unfold decodeAlu
  split
  all_goals simp only [bitAt_iff, field_eq_iff, imp_false, BitVec.toNat_ofNat, Nat.reducePow] at *
  case h_1 => exact decodeAdd_followsRanges (by omega)
  case h_13 => exact decodeMove_followsRanges (by omega)
  case h_14 =>
    split
    · exact decodeFlagOp_followsRanges (by omega)
    · exact decodeShift_followsRanges (by omega)
  case h_15 => exact followsRanges_unrecognized (by unfold inUnrecognizedSpace; omega)
  all_goals exact followsRanges_instr (unlisted_of_outside (by omega))

theorem decodeIndirect_followsRanges (h : iw.toNat / 4096 = 5) : (decodeIndirect iw).FollowsRanges iw := by
  unfold decodeIndirect
  split
  all_goals simp only [field_eq_iff, imp_false, BitVec.toNat_ofNat, Nat.reducePow] at *
  · exact followsRanges_instr (unlisted_of_outside (by omega))
  · exact followsRanges_instr (unlisted_of_outside (by omega))
  · exact followsRanges_unrecognized (by unfold inUnrecognizedSpace; omega)

theorem decodeImmediate_followsRanges (h : iw.toNat / 8192 = 3) : (decodeImmediate iw).FollowsRanges iw := by
  have hn : ¬inUnrecognizedSpace iw.toNat := unlisted_of_outside (by omega)
  unfold decodeImmediate
  split <;> exact followsRanges_instr hn

theorem decodeRelative_followsRanges (h : 0x8000 ≤ iw.toNat) : (decodeRelative iw).FollowsRanges iw := by
  have hn : ¬inUnrecognizedSpace iw.toNat := unlisted_of_outside (by omega)
  unfold decodeRelative
  split <;> exact followsRanges_instr hn

theorem decode_followsRanges (iw : Word) : (decode iw).FollowsRanges iw := by
  have hlt := iw.isLt
  simp only [decode, bitAt_iff]
  split
  · exact decodeRelative_followsRanges (by omega)
  · split
    all_goals simp only [field_eq_iff, imp_false, BitVec.toNat_ofNat, Nat.reducePow] at *
    · exact followsRanges_instr (unlisted_of_outside (by omega))
    · exact decodeBranch_followsRanges (by omega)
    · split
      · exact decodeIndirect_followsRanges (by omega)
      · exact decodeAlu_followsRanges (by omega)
    · exact decodeImmediate_followsRanges (by omega)

end Ranges

/-- Settles O4: the decoder's answer follows the ranges on every word. -/
theorem unrecognizedWordsAreTheListedRanges : Obligations.UnrecognizedWordsAreTheListedRanges := by
  intro iw w
  have hranges := decode_followsRanges iw
  cases hd : decode iw with
  | instr i =>
    rw [hd] at hranges
    exact ⟨nofun, fun ⟨_, hlisted⟩ => absurd hlisted hranges⟩
  | unrecognized w' =>
    rw [hd] at hranges
    obtain ⟨rfl, hlisted⟩ := hranges
    exact ⟨fun hw => ⟨(Decoded.unrecognized.inj hw).symm, hlisted⟩, fun ⟨hw, _⟩ => hw ▸ rfl⟩

/-! The spec's vectors. -/

/-- Settles O1: the decoder runs on each word. -/
theorem specVectorWordsDecode : Obligations.SpecVectorWordsDecode := by
  unfold Obligations.SpecVectorWordsDecode
  decide

end Sys2Proof
end

section
/-! PROOFS of the statements of 40_flags.md. The laws of operands and written destinations, bit by bit (R13, R150), come
first; then RRC's rotation (R135, R194), the flags an instruction does not write (R130, R134), the logical rule (R133),
and that byte mode sees low bytes only (R138). -/

namespace Sys2Proof.Machine

open Sys2Proof.Statements

/-! The bits of a mode (00_scope.md R13). -/

theorem modulus_eq_two_pow (wb : Width) : modulus wb = 2 ^ widthBits wb := by
  cases wb <;> rfl

theorem topBit_add_one (wb : Width) : topBit wb + 1 = widthBits wb := by
  cases wb <;> rfl

theorem widthBits_le (wb : Width) : widthBits wb ≤ 16 := by
  cases wb <;> decide

theorem msbOf_eq_topBit (wb : Width) (v : Word) : msbOf wb v = v.getLsbD (topBit wb) := by
  cases wb <;> rfl

@[simp] theorem widthMask_getLsbD (wb : Width) (k : Nat) : (widthMask wb).getLsbD k = decide (k < widthBits wb) := by
  cases wb
  · exact Nat.testBit_two_pow_sub_one 16 k
  · exact Nat.testBit_two_pow_sub_one 8 k

theorem topMask_eq_twoPow (wb : Width) : topMask wb = BitVec.twoPow 16 (topBit wb) := by
  cases wb <;> rfl

/-- The number of an operand is its masked word (R150). -/
theorem low_eq_masked (wb : Width) (v : Word) : low wb v = (v &&& widthMask wb).toNat := by
  cases wb
  · exact (Nat.and_two_pow_sub_one_eq_mod v.toNat 16).symm
  · exact (Nat.and_two_pow_sub_one_eq_mod v.toNat 8).symm

/-- Two words are one number of the mode exactly when their bits of the mode agree. -/
theorem low_eq_low_iff {wb : Width} {v w : Word} :
    low wb v = low wb w ↔ ∀ k < widthBits wb, v.getLsbD k = w.getLsbD k := by
  rw [low_eq_masked, low_eq_masked, ← BitVec.toNat_eq]
  constructor
  · intro h k hk
    simpa [hk] using congrArg (·.getLsbD k) h
  · intro h
    refine BitVec.eq_of_getLsbD_eq fun k _ => ?_
    by_cases hk : k < widthBits wb
    · simp [hk, h k hk]
    · simp [hk]

theorem low_masked (wb : Width) (v : Word) : low wb (v &&& widthMask wb) = low wb v :=
  low_eq_low_iff.mpr fun k hk => by simp [hk]

/-- A masked word is 0 exactly when its number is. -/
theorem masked_beq_zero (wb : Width) (v : Word) : (v &&& widthMask wb == 0#16) = decide (low wb v = 0) := by
  rw [low_eq_masked, Bool.eq_iff_iff, beq_iff_eq, decide_eq_true_iff, BitVec.toNat_eq]
  rfl

/-! Operands and the written destination, bit by bit (R13, R150). -/

/-- The destination operand holds the register's bits of the mode. -/
@[simp] theorem State.destOperand_getLsbD (s : State) (dst : Reg) (wb : Width) (k : Nat) :
    (s.destOperand dst wb).getLsbD k = ((s.reg dst).getLsbD k && decide (k < widthBits wb)) := by
  simp [State.destOperand]

/-- `wr` merges the bits of the mode into the register. -/
theorem State.writeDest_eq_setReg (s : State) (d : Reg) (v : Word) (wb : Width) :
    s.writeDest d v wb = s.setReg d (s.reg d &&& ~~~widthMask wb ||| v &&& widthMask wb) := by
  cases wb with
  | word => simp [State.writeDest, widthMask]
  | byte => rfl

/-- `wr` writes the bits of the mode and keeps those above. -/
theorem State.writeDest_reg_getLsbD (s : State) (d : Reg) (v : Word) (wb : Width) (k : Nat) :
    ((s.writeDest d v wb).reg d).getLsbD k = if k < widthBits wb then v.getLsbD k else (s.reg d).getLsbD k := by
  rw [State.writeDest_eq_setReg, State.reg_setReg, if_pos rfl, BitVec.getLsbD_or, BitVec.getLsbD_and,
    BitVec.getLsbD_and, BitVec.getLsbD_not, widthMask_getLsbD]
  by_cases hk : k < widthBits wb
  · simp [hk]
  · by_cases hk' : k < 16
    · simp [hk, hk']
    · simp [hk, BitVec.getLsbD_of_ge _ _ (not_lt.mp hk')]

/-- The number written is the result's. -/
theorem State.low_writeDest_reg (s : State) (d : Reg) (v : Word) (wb : Width) :
    low wb ((s.writeDest d v wb).reg d) = low wb v :=
  low_eq_low_iff.mpr fun k hk => by rw [State.writeDest_reg_getLsbD, if_pos hk]

/-! RRC (R135, R194). -/

/-- Settles O20: both sides bit by bit, below the top bit of the mode, at it and above it. -/
theorem rrcRotatesThroughCarry : Obligations.RrcRotatesThroughCarry := by
  intro s dst wb
  have htop := topBit_add_one wb
  have hle := widthBits_le wb
  refine ⟨_, rfl, fun k => ?_, ?_⟩
  · rw [State.setPsw_reg, State.writeDest_reg_getLsbD]
    rcases Nat.lt_trichotomy k (topBit wb) with hk | rfl | hk
    · have hne : topBit wb ≠ k := by omega
      have hlt : k < widthBits wb := by omega
      have hlt' : k + 1 < widthBits wb := by omega
      cases s.psw.c <;> simp [topMask_eq_twoPow, BitVec.getLsbD_twoPow, hk, hne, hlt, hlt', Nat.add_comm 1]
    · have hlt : topBit wb < widthBits wb := by omega
      have hlt' : topBit wb < 16 := by omega
      cases s.psw.c <;> simp [topMask_eq_twoPow, hlt, hlt', Nat.add_comm 1, htop]
    · have hge : ¬k < topBit wb := by omega
      have hge' : ¬k < widthBits wb := by omega
      simp [hge, hge', hk.ne']
  · have hpos : 0 < widthBits wb := by omega
    rw [State.setPsw_psw, Psw.setC, State.destOperand_getLsbD, decide_eq_true hpos, Bool.and_true]

/-! Flags an instruction does not write (R130, R134). -/

/-- A status word is its flags, its priorities and its fault bit. -/
theorem Psw.ext_flagOf {p q : Psw} (hflag : ∀ f, flagOf p f = flagOf q f) (hcpri : p.cpri = q.cpri)
    (hppri : p.ppri = q.ppri) (hflt : p.flt = q.flt) : p = q := by
  cases p
  cases q
  simp only [Psw.mk.injEq]
  exact ⟨hflag .c, hflag .z, hflag .n, hflag .v, hflag .slp, hcpri, hppri, hflt⟩

theorem Psw.flagOf_arith {f : Flag} (hf : f ∉ [Flag.c, .z, .n, .v]) (p : Psw) (wb : Width) (a d r : Word) :
    flagOf (p.arith wb a d r) f = flagOf p f := by
  cases f
  case slp => rfl
  all_goals simp at hf

theorem Psw.flagOf_logic {f : Flag} (hf : f ∉ [Flag.z, .n]) (p : Psw) (wb : Width) (r : Word) :
    flagOf (p.logic wb r) f = flagOf p f := by
  cases f
  case c | v | slp => rfl
  all_goals simp at hf

theorem Psw.flagOf_setC {f : Flag} (hf : f ∉ [Flag.c]) (p : Psw) (c : Bool) : flagOf (p.setC c) f = flagOf p f := by
  cases f
  case c => simp at hf
  all_goals rfl

theorem Psw.flagOf_setMask {f : Flag} {m : BitVec 5} (hf : f ∉ flagsWritten (.setcc m)) (p : Psw) :
    flagOf (p.setMask m) f = flagOf p f := by
  cases f <;> simp_all [flagsWritten, flagOf, Psw.setMask]

theorem Psw.flagOf_clearMask {f : Flag} {m : BitVec 5} (hf : f ∉ flagsWritten (.clrcc m)) (p : Psw) :
    flagOf (p.clearMask m) f = flagOf p f := by
  cases f <;> simp_all [flagsWritten, flagOf, Psw.clearMask]

@[simp] theorem State.branchIf_psw (s : State) (taken : Bool) (off : Word) : (s.branchIf taken off).psw = s.psw := by
  cases taken <;> rfl

/-- EXEC1 keeps every flag its instruction does not write (R130). -/
theorem exec_keeps_flag {i : Instr} {s t : State} (h : exec i s = .next t) {f : Flag} (hf : f ∉ flagsWritten i) :
    flagOf t.psw f = flagOf s.psw f := by
  cases i with
  | add | addc | sub | subc | dadd =>
    cases h
    rw [State.arithResult_eq]
    exact Psw.flagOf_arith hf ..
  | cmp =>
    cases h
    exact Psw.flagOf_arith hf ..
  | xor | and | or =>
    cases h
    rw [State.logicResult_eq]
    exact Psw.flagOf_logic hf ..
  | bit =>
    simp only [exec, execBit] at h
    rcases State.bitInstr_next h with rfl | ⟨-, -, rfl⟩ <;> exact Psw.flagOf_logic hf ..
  | bic | bis =>
    simp only [exec, execBic, execBis] at h
    rcases State.bitInstr_next h with rfl | ⟨-, -, rfl⟩ <;> rw [State.logicResult_eq] <;>
      exact Psw.flagOf_logic hf ..
  | rrc =>
    cases h
    exact Psw.flagOf_setC hf ..
  | setcc =>
    cases h
    exact Psw.flagOf_setMask hf _
  | clrcc =>
    cases h
    exact Psw.flagOf_clearMask hf _
  | ld | st =>
    simp only [exec, execLd, execSt] at h
    split at h <;> cases h
    simp
  | beq | bne | bc | bnc | bn | bge | blt | bra =>
    cases h
    exact congrArg (flagOf · f) (State.branchIf_psw ..)
  | mov | sra =>
    cases h
    exact congrArg (flagOf · f) (State.writeDest_psw ..)
  | _ =>
    cases h
    rfl

/-- An instruction that writes no flag keeps the whole status word (R134). -/
theorem exec_keeps_psw {i : Instr} {s t : State} (h : exec i s = .next t) (hi : flagsWritten i = []) :
    t.psw = s.psw := by
  have hk := exec_keeps h
  exact Psw.ext_flagOf (fun f => exec_keeps_flag h (by simp [hi])) hk.cpri hk.ppri hk.flt

/-- The branches, the memory instructions, and the moves but RRC, SETCC and CLRCC write no flag (R130). -/
theorem flagsWritten_eq_nil {i : Instr}
    (h : isBranch i = true ∨ isMemory i = true ∨
      (isMove i = true ∧ (∀ d w, i ≠ .rrc d w) ∧ (∀ m, i ≠ .setcc m) ∧ (∀ m, i ≠ .clrcc m))) :
    flagsWritten i = [] := by
  cases i with
  | rrc | setcc | clrcc => simp [isBranch, isMemory] at h
  | add | addc | sub | subc | dadd | cmp | xor | and | or | bit | bic | bis =>
    simp [isBranch, isMemory, isMove] at h
  | _ => rfl

/-- Settles O38: EXEC1 of the group writes no flag; an UNRECOGNIZED word only signals; EXEC2 keeps the status word. -/
theorem noFlagGroupKeepsStatusWord : Obligations.NoFlagGroupKeepsStatusWord := by
  refine ⟨fun i s t hi h => exec_keeps_psw h (flagsWritten_eq_nil hi), fun s t w a ho hd h => ?_, fun s t he h => ?_⟩
  · rcases step_cases h with ⟨he, -, -⟩ | ⟨he, -, -⟩ | ⟨-, -, rfl⟩ | ⟨-, -, u, hu, rfl⟩
    · omega
    · omega
    · rfl
    · simp only [State.exec1, State.fetch2_di, State.beginTick_di, hd, Di.op, Host.Outcome.next.injEq] at hu
      subst hu
      simp
  · cases hb : s.dbub
    · exact (step_even_tick he hb h).psw
    · rw [step_dbub he hb] at h
      cases h
      simp

/-! The logical rule (R133). -/

/-- A logic result gives N and Z by the number it writes. -/
theorem State.logicResult_flags {s t : State} {dst : Reg} {wb : Width} {x : Word}
    (ht : t = s.logicResult dst wb (x &&& widthMask wb)) :
    t.psw.n = (t.reg dst).getLsbD (topBit wb) ∧ t.psw.z = decide (low wb (t.reg dst) = 0) := by
  have hlt : topBit wb < widthBits wb := by
    have := topBit_add_one wb
    omega
  rw [ht, State.logicResult_eq, State.setPsw_reg, State.low_writeDest_reg, State.writeDest_reg_getLsbD, if_pos hlt,
    low_masked]
  exact ⟨msbOf_eq_topBit .., masked_beq_zero wb x⟩

/-- XOR, AND, OR, BIC and BIS that complete leave a logic result, of the state itself or of one that has drawn. -/
theorem exec_logicResult {i : Instr} {s t : State} {src : Source} {dst : Reg} {wb : Width}
    (hi : i = .xor src dst wb ∨ i = .and src dst wb ∨ i = .or src dst wb ∨ i = .bic src dst wb ∨ i = .bis src dst wb)
    (h : exec i s = .next t) : ∃ u x, t = State.logicResult u dst wb (x &&& widthMask wb) := by
  rcases hi with rfl | rfl | rfl | rfl | rfl
  iterate 3 exact ⟨s, _, (Host.Outcome.next.inj h).symm⟩
  all_goals
    simp only [exec, execBic, execBis] at h
    rcases State.bitInstr_next h with ht | ⟨-, -, ht⟩
    · exact ⟨s, _, ht⟩
    · exact ⟨s.draw.2, _, ht⟩

/-- The bit number used is the source number modulo the width (R151). -/
theorem bitNumber_sourceOperand (s : State) (src : Source) (wb : Width) :
    bitNumber (s.sourceOperand src wb) wb = selectedBit wb (s.sourceValue src) := by
  cases wb
  · have h := Nat.and_two_pow_sub_one_eq_mod (s.sourceValue src).toNat 4
    simpa [bitNumber, State.sourceOperand, widthMask, selectedBit, BitVec.and_assoc] using h
  · have h := Nat.and_two_pow_sub_one_eq_mod (s.sourceValue src).toNat 3
    simpa [bitNumber, State.sourceOperand, widthMask, selectedBit, BitVec.and_assoc] using h

theorem selectedBit_lt (wb : Width) (src : Word) : selectedBit wb src < widthBits wb := by
  cases wb
  · exact Nat.mod_lt _ (by decide)
  · exact Nat.mod_lt _ (by decide)

/-- The bit number is below the width exactly when the source operand is (R151). -/
theorem bitInRange_iff (s : State) (src : Source) (wb : Width) :
    bitInRange wb (s.sourceValue src) ↔ (s.sourceOperand src wb).toNat < widthBits wb := by
  rw [State.sourceOperand, ← low_eq_masked]
  cases wb
  · rw [low, modulus, Nat.mod_eq_of_lt (s.sourceValue src).isLt]
    rfl
  · rfl

/-- The mask of a bit number has that bit alone. -/
theorem bitMask_sourceOperand_getLsbD (s : State) (src : Source) (wb : Width) (k : Nat) :
    (bitMask (s.sourceOperand src wb) wb).getLsbD k = decide (k = selectedBit wb (s.sourceValue src)) := by
  have hlt := (selectedBit_lt wb (s.sourceValue src)).trans_le (widthBits_le wb)
  rw [bitMask, bitNumber_sourceOperand, ← BitVec.twoPow, BitVec.getLsbD_twoPow]
  simp [hlt, eq_comm]

/-- BIT sets Z to the complement of the selected bit, and N to that bit where it is the top one (R162). -/
theorem State.logicFlags_bitMask {s t : State} {src : Source} {dst : Reg} {wb : Width}
    (ht : t = s.logicFlags wb (s.destOperand dst wb &&& bitMask (s.sourceOperand src wb) wb)) :
    (t.psw.z = true ↔ (s.reg dst).getLsbD (selectedBit wb (s.sourceValue src)) = false) ∧
      (t.psw.n = true ↔
        selectedBit wb (s.sourceValue src) = topBit wb ∧ (s.reg dst).getLsbD (topBit wb) = true) := by
  have hlt := selectedBit_lt wb (s.sourceValue src)
  set b := selectedBit wb (s.sourceValue src) with hb
  have hbit (k : Nat) : (s.destOperand dst wb &&& bitMask (s.sourceOperand src wb) wb).getLsbD k =
      (decide (k = b) && (s.reg dst).getLsbD b) := by
    rw [BitVec.getLsbD_and, bitMask_sourceOperand_getLsbD, State.destOperand_getLsbD, ← hb]
    by_cases hk : k = b
    · simp [hk, hlt]
    · simp [hk]
  constructor
  · rw [ht, State.logicFlags, State.setPsw_psw, Psw.logic, beq_iff_eq]
    constructor
    · intro hz
      simpa [hz] using (hbit b).symm
    · intro h0
      exact BitVec.eq_of_getLsbD_eq fun k _ => by simp [hbit, h0]
  · rw [ht, State.logicFlags, State.setPsw_psw, Psw.logic, msbOf_eq_topBit, hbit]
    simp only [Bool.and_eq_true, decide_eq_true_eq, eq_comm (a := topBit wb)]
    exact and_congr_right fun h => by rw [h]

/-- Settles O14: N and Z by the logic result written, or for BIT by the selected bit; C and V are not written. -/
theorem logicalRuleSetsNandZ : Obligations.LogicalRuleSetsNandZ := by
  intro s t src dst wb
  constructor
  · intro i hi h
    have hkeep (f : Flag) (hf : f = .c ∨ f = .v) : flagOf t.psw f = flagOf s.psw f := by
      refine exec_keeps_flag h ?_
      rcases hi with rfl | rfl | rfl | rfl | rfl <;> rcases hf with rfl | rfl <;> simp [flagsWritten]
    obtain ⟨u, x, ht⟩ := exec_logicResult hi h
    have ⟨hn, hz⟩ := State.logicResult_flags ht
    exact ⟨hn, hz, hkeep .c (.inl rfl), hkeep .v (.inr rfl)⟩
  · intro h
    refine ⟨fun hdef => ?_, exec_keeps_flag (f := .c) h (by simp [flagsWritten]),
      exec_keeps_flag (f := .v) h (by simp [flagsWritten])⟩
    rw [bitInRange_iff] at hdef
    rw [exec, execBit, State.bitInstr_defined _ _ hdef] at h
    exact State.logicFlags_bitMask (Host.Outcome.next.inj h).symm

/-! Byte mode sees low bytes only (R138, R150). -/

/-- Two states agree on all a byte-mode EXEC1 reads: low bytes, status word, launch and free-value fields. -/
structure AgreeInLowBytes (s s' : State) : Prop where
  regs : ∀ r, low .byte (s.reg r) = low .byte (s'.reg r)
  psw : s.psw = s'.psw
  bitnumOor : s.bitnumOor = s'.bitnumOor
  draws : s.draws = s'.draws

namespace AgreeInLowBytes

variable {s s' : State} (h : AgreeInLowBytes s s')
include h

theorem destOperand (dst : Reg) : s.destOperand dst .byte = s'.destOperand dst .byte := by
  have hr := h.regs dst
  rw [low_eq_masked, low_eq_masked, ← BitVec.toNat_eq] at hr
  exact hr

theorem sourceOperand (src : Source) : s.sourceOperand src .byte = s'.sourceOperand src .byte := by
  cases src with
  | reg r => exact h.destOperand r
  | const k => rfl

theorem negOperand (src : Source) : s.negOperand src .byte = s'.negOperand src .byte := by
  rw [State.negOperand, State.negOperand, h.sourceOperand]

theorem draw : AgreeInLowBytes s.draw.2 s'.draw.2 :=
  ⟨h.regs, h.psw, h.bitnumOor, congrArg (· + 1) h.draws⟩

theorem setPsw (p : Psw) : AgreeInLowBytes (s.setPsw p) (s'.setPsw p) := ⟨h.regs, rfl, h.bitnumOor, h.draws⟩

theorem writeDest (dst : Reg) (v : Word) : AgreeInLowBytes (s.writeDest dst v .byte) (s'.writeDest dst v .byte) := by
  refine ⟨fun r => ?_, by simpa using h.psw, by simpa using h.bitnumOor, by simpa using h.draws⟩
  by_cases hr : r = dst
  · rw [hr, State.low_writeDest_reg, State.low_writeDest_reg]
  · simpa [hr] using h.regs r

theorem arithFlags (a d r : Word) : AgreeInLowBytes (s.arithFlags .byte a d r) (s'.arithFlags .byte a d r) := by
  rw [State.arithFlags, State.arithFlags, h.psw]
  exact h.setPsw _

theorem logicFlags (r : Word) : AgreeInLowBytes (s.logicFlags .byte r) (s'.logicFlags .byte r) := by
  rw [State.logicFlags, State.logicFlags, h.psw]
  exact h.setPsw _

theorem arithResult (dst : Reg) (a d r : Word) :
    AgreeInLowBytes (s.arithResult dst .byte a d r) (s'.arithResult dst .byte a d r) :=
  (h.writeDest dst r).arithFlags a d r

theorem logicResult (dst : Reg) (r : Word) :
    AgreeInLowBytes (s.logicResult dst .byte r) (s'.logicResult dst .byte r) :=
  (h.writeDest dst r).logicFlags r

/-- A bit instruction keeps the agreement if its last step does. -/
theorem bitInstr {t : State} {src : Source} {r : Word} {finish : State → Word → State}
    (hf : ∀ {u u'}, AgreeInLowBytes u u' → ∀ v, AgreeInLowBytes (finish u v) (finish u' v))
    (ht : s.bitInstr src .byte r finish = .next t) :
    ∃ t', s'.bitInstr src .byte r finish = .next t' ∧ AgreeInLowBytes t t' := by
  have hdraw : s.draw.1 = s'.draw.1 := congrArg Config.freeWord h.draws
  unfold State.bitInstr at ht ⊢
  rw [← h.sourceOperand, ← h.bitnumOor]
  cases hr : bitResult s.bitnumOor r (s.sourceOperand src .byte) .byte <;> rw [hr] at ht <;> cases ht
  · exact ⟨_, rfl, hf h _⟩
  · exact ⟨_, rfl, hdraw ▸ hf h.draw _⟩

end AgreeInLowBytes

/-- Settles O15: the operands are equal, so both states write the same byte and flags, or draw the same value. -/
theorem byteModeIgnoresHighBytes : Obligations.ByteModeIgnoresHighBytes := by
  intro s s' i src dst hi hregs hpsw hoor hdraws t ht
  have h : AgreeInLowBytes s s' := ⟨hregs, hpsw, hoor, hdraws⟩
  suffices hexec : ∃ t', exec i s' = .next t' ∧ AgreeInLowBytes t t' by
    obtain ⟨t', ht', hagree⟩ := hexec
    exact ⟨t', ht', hagree.psw, hagree.regs dst⟩
  cases i with
  | add | addc | sub | subc | dadd =>
    simp only [reduceCtorEq, false_or, or_false, Instr.add.injEq, Instr.addc.injEq, Instr.sub.injEq,
      Instr.subc.injEq, Instr.dadd.injEq] at hi
    obtain ⟨rfl, rfl, rfl⟩ := hi
    cases ht
    refine ⟨_, rfl, ?_⟩
    simp only [h.sourceOperand, h.negOperand, h.destOperand, h.psw]
    exact h.arithResult ..
  | cmp =>
    simp only [reduceCtorEq, false_or, or_false, Instr.cmp.injEq] at hi
    obtain ⟨rfl, rfl, rfl⟩ := hi
    cases ht
    refine ⟨_, rfl, ?_⟩
    simp only [h.negOperand, h.destOperand]
    exact h.arithFlags ..
  | xor | and | or =>
    simp only [reduceCtorEq, false_or, or_false, Instr.xor.injEq, Instr.and.injEq, Instr.or.injEq] at hi
    obtain ⟨rfl, rfl, rfl⟩ := hi
    cases ht
    refine ⟨_, rfl, ?_⟩
    simp only [h.sourceOperand, h.destOperand]
    exact h.logicResult ..
  | bit =>
    simp only [reduceCtorEq, false_or, or_false, Instr.bit.injEq] at hi
    obtain ⟨rfl, rfl, rfl⟩ := hi
    simp only [exec, execBit, h.sourceOperand, h.destOperand] at ht ⊢
    exact h.bitInstr (fun hu => hu.logicFlags) ht
  | bic | bis =>
    simp only [reduceCtorEq, false_or, or_false, Instr.bic.injEq, Instr.bis.injEq] at hi
    obtain ⟨rfl, rfl, rfl⟩ := hi
    simp only [exec, execBic, execBis, h.sourceOperand, h.destOperand] at ht ⊢
    exact h.bitInstr (fun hu => hu.logicResult _) ht
  | _ => simp at hi

end Sys2Proof.Machine
end

section
/-! PROOFS of the statements of 41_arith_logic.md. The number a destination holds after `wr` (R13) and the frame of
EXEC1 (R150, R130) come first; then the exact sums and differences (R153 to R158) with their flags (R131, R132), the
branches after CMP, the decimal sums (R152, R157), and the logic and bit instructions (R159 to R164, R151). -/

namespace Sys2Proof.Machine

open Sys2Proof.Statements

/-! The number a destination holds after `wr` (00_scope.md R13). -/

theorem modulus_pos (wb : Width) : 0 < modulus wb := by
  cases wb <;> decide

theorem low_lt (wb : Width) (v : Word) : low wb v < modulus wb := Nat.mod_lt _ (modulus_pos wb)

theorem topBit_lt (wb : Width) : topBit wb < widthBits wb := by
  cases wb <;> decide

/-- `wr` keeps the number above the mode. -/
theorem State.high_writeDest_reg (s : State) (d : Reg) (v : Word) (wb : Width) :
    ((s.writeDest d v wb).reg d).toNat / modulus wb = (s.reg d).toNat / modulus wb := by
  rw [modulus_eq_two_pow]
  refine Nat.eq_of_testBit_eq fun k => ?_
  rw [Nat.testBit_div_two_pow, Nat.testBit_div_two_pow, BitVec.testBit_toNat, BitVec.testBit_toNat,
    State.writeDest_reg_getLsbD, if_neg (by omega)]

/-- `wr` puts the result's number below the old high part. -/
theorem State.writeDest_reg_toNat (s : State) (d : Reg) (v : Word) (wb : Width) :
    ((s.writeDest d v wb).reg d).toNat = merged wb (s.reg d) (low wb v) := by
  rw [merged, ← State.high_writeDest_reg s d v wb, ← State.low_writeDest_reg s d v wb, low, Nat.div_add_mod']

/-! What EXEC1 leaves unchanged (R150, R130). -/

/-- EXEC1 writes only the instruction's own registers (R150). -/
theorem exec_keeps_reg {i : Instr} {s t : State} (h : exec i s = .next t) {r : Reg} (hr : r ∉ destRegs i) :
    t.reg r = s.reg r := by
  cases i with
  | add | addc | sub | subc | dadd =>
    cases h
    rw [State.arithResult_eq]
    exact State.writeDest_reg_of_ne _ _ _ _ _ (List.ne_of_not_mem_cons hr)
  | xor | and | or =>
    cases h
    rw [State.logicResult_eq]
    exact State.writeDest_reg_of_ne _ _ _ _ _ (List.ne_of_not_mem_cons hr)
  | bit =>
    simp only [exec, execBit] at h
    rcases State.bitInstr_next h with rfl | ⟨-, -, rfl⟩ <;> rfl
  | bic | bis =>
    simp only [exec, execBic, execBis] at h
    rcases State.bitInstr_next h with rfl | ⟨-, -, rfl⟩ <;> rw [State.logicResult_eq] <;>
      exact State.writeDest_reg_of_ne _ _ _ _ _ (List.ne_of_not_mem_cons hr)
  | mov | sra | rrc =>
    cases h
    exact State.writeDest_reg_of_ne _ _ _ _ _ (List.ne_of_not_mem_cons hr)
  | ld | st =>
    simp only [exec, execLd, execSt] at h
    split at h <;> cases h
    simp only [State.setPending_reg, State.preAdjust_reg, ite_eq_right_iff]
    rintro ⟨rfl, rfl⟩
    simp [destRegs] at hr
  | beq | bne | bc | bnc | bn | bge | blt | bra =>
    cases h
    have hpc : r ≠ .pc := List.ne_of_not_mem_cons hr
    rw [State.branchIf]
    split <;> simp [hpc]
  | bl | swap | swpb | sxt | movl | movlz | movls | movh =>
    cases h
    simp only [destRegs, List.mem_cons, List.not_mem_nil, or_false, not_or] at hr
    simp [hr]
  | cmp | nop | setcc | clrcc | ldr | str =>
    cases h
    rfl

/-- The frame of every EXEC1; the pending transfer, the bubbles and the draws are outside it. -/
theorem exec_frame {i : Instr} {s t : State} (h : exec i s = .next t) : Frame i s t := by
  have hk := exec_keeps h
  exact
    { regs := fun _ hr => exec_keeps_reg h hr
      flags := fun _ hf => exec_keeps_flag h hf
      priority := ⟨hk.cpri, hk.ppri, hk.flt⟩
      memory := fun sp a => by
        cases sp
        · exact congrArg (Memory.read · a) hk.imem
        · exact congrArg (Memory.read · a) hk.dmem
      fetch := ⟨hk.imar, hk.ir, hk.di⟩
      control := ⟨hk.clk, hk.retired, hk.bkpt, hk.halted⟩
      launch := ⟨hk.bitnumOor, hk.signal⟩ }

/-- Settles O33: the frame of every EXEC1, and an arithmetic result writes a register and the status word only. -/
theorem arithmeticFrame : Obligations.ArithmeticFrame := by
  intro i s t hi h
  refine ⟨exec_frame h, ?_⟩
  cases i with
  | add | addc | sub | subc | dadd =>
    cases h
    simp
  | cmp =>
    cases h
    exact ⟨rfl, rfl, rfl, rfl⟩
  | _ => cases hi

/-- Settles O34: the frame of every EXEC1, and a logic result writes a register and the status word only. -/
theorem logicFrame : Obligations.LogicFrame := by
  intro i s t hi h
  refine ⟨exec_frame h, ?_⟩
  cases i with
  | xor | and | or =>
    cases h
    simp
  | bit =>
    simp only [exec, execBit] at h
    rcases State.bitInstr_next h with rfl | ⟨hany, -, rfl⟩
    · simp [State.logicFlags]
    · simp [State.logicFlags, isBitOp, hany]
  | bic | bis =>
    simp only [exec, execBic, execBis] at h
    rcases State.bitInstr_next h with rfl | ⟨hany, -, rfl⟩
    · simp
    · simp [isBitOp, hany]
  | _ => cases hi

/-! The tables on top bits are exact (R131, R132, R137). -/

/-- The top bit of a mode is set exactly when the number is in the upper half (R131). -/
theorem msbOf_eq_decide (wb : Width) (v : Word) : msbOf wb v = decide (modulus wb / 2 ≤ low wb v) := by
  cases wb
  · have h := BitVec.msb_eq_decide v
    rw [BitVec.msb_eq_getLsbD_last] at h
    rw [low, modulus, Nat.mod_eq_of_lt v.isLt]
    exact h
  · rw [Bool.eq_iff_iff, decide_eq_true_iff]
    change v.toNat.testBit 7 = true ↔ 128 ≤ v.toNat % 256
    rw [Nat.testBit_eq_decide_div_mod_eq, decide_eq_true_iff]
    omega

theorem msbOf_masked (wb : Width) (v : Word) :
    msbOf wb (v &&& widthMask wb) = decide (modulus wb / 2 ≤ low wb v) := by
  rw [msbOf_eq_decide, low_masked]

/-- The CARRY table as a formula: both top bits set, or one of them and not the result's (R132). -/
theorem carryTable_eq (sa sd sr : Bool) : carryTable sa sd sr = ((sa && sd) || ((sa || sd) && !sr)) := by
  cases sa <;> cases sd <;> cases sr <;> rfl

/-- The OVERFLOW table as a formula: equal top bits of the operands, and another of the result (R132). -/
theorem overflowTable_eq (sa sd sr : Bool) : overflowTable sa sd sr = ((sa == sd) && (sa != sr)) := by
  cases sa <;> cases sd <;> cases sr <;> rfl

/-- On top bits the CARRY table tells whether the exact sum with a carry-in leaves the mode. -/
theorem carryTable_sum {wb : Width} {a d c : Nat} (ha : a < modulus wb) (hd : d < modulus wb) (hc : c ≤ 1) :
    carryTable (decide (modulus wb / 2 ≤ a)) (decide (modulus wb / 2 ≤ d))
      (decide (modulus wb / 2 ≤ (d + a + c) % modulus wb)) = decide (modulus wb ≤ d + a + c) := by
  rw [carryTable_eq, Bool.eq_iff_iff]
  simp only [Bool.or_eq_true, Bool.and_eq_true, Bool.not_eq_true', decide_eq_true_eq, decide_eq_false_iff_not]
  cases wb with
  | word | byte =>
    rw [modulus] at *
    omega

/-- On top bits the OVERFLOW table tells whether the exact signed sum with a carry-in leaves the signed range. -/
theorem overflowTable_sum {wb : Width} {a d c : Nat} (ha : a < modulus wb) (hd : d < modulus wb) (hc : c ≤ 1) :
    overflowTable (decide (modulus wb / 2 ≤ a)) (decide (modulus wb / 2 ≤ d))
      (decide (modulus wb / 2 ≤ (d + a + c) % modulus wb)) =
      decide (signed wb d + signed wb a + c < -((modulus wb : Int) / 2) ∨
        (modulus wb : Int) / 2 ≤ signed wb d + signed wb a + c) := by
  rw [overflowTable_eq, Bool.eq_iff_iff]
  simp only [Bool.and_eq_true, bne_iff_ne, beq_iff_eq, decide_eq_true_eq, ne_eq, decide_eq_decide]
  cases wb with
  | word | byte =>
    simp only [modulus, signed] at *
    omega

/-! Sums and differences (R153 to R158). -/

/-- The masked sum of masked operands is the sum of their numbers modulo the width (R165). -/
theorem low_sum (wb : Width) (x y z : Word) :
    low wb ((x &&& widthMask wb) + (y &&& widthMask wb) + z) = (low wb x + low wb y + z.toNat) % modulus wb := by
  rw [low_eq_masked wb x, low_eq_masked wb y, low, BitVec.toNat_add, BitVec.toNat_add]
  cases wb with
  | word | byte =>
    rw [modulus]
    omega

/-- The complement of an operand (R136) counts down from the top of the mode. -/
theorem low_not (wb : Width) (v : Word) : low wb (~~~(v &&& widthMask wb)) = modulus wb - 1 - low wb v := by
  have hlt := low_lt wb v
  rw [low, BitVec.toNat_not, ← low_eq_masked]
  cases wb with
  | word | byte =>
    rw [modulus] at *
    omega

/-- The complement as a signed number (R136). -/
theorem signed_complement {wb : Width} {a : Nat} (h : a < modulus wb) :
    signed wb (modulus wb - 1 - a) = -signed wb a - 1 := by
  cases wb with
  | word | byte =>
    simp only [modulus, signed] at *
    omega

/-- What the sum of D, an addend and a carry-in leaves: the shape of ADD, ADDC, SUB and SUBC (R153 to R156). -/
def State.sumResult (s : State) (dst : Reg) (wb : Width) (addend cin : Word) : State :=
  s.arithResult dst wb (addend &&& widthMask wb) (s.destOperand dst wb)
    ((s.destOperand dst wb + (addend &&& widthMask wb) + cin) &&& widthMask wb)

theorem exec_add (s : State) (src : Source) (dst : Reg) (wb : Width) :
    exec (.add src dst wb) s = .next (s.sumResult dst wb (s.sourceValue src) 0#16) := by
  rw [State.sumResult, BitVec.add_zero]
  rfl

theorem exec_addc (s : State) (src : Source) (dst : Reg) (wb : Width) :
    exec (.addc src dst wb) s = .next (s.sumResult dst wb (s.sourceValue src) (carryWord s.psw.c)) := rfl

theorem exec_sub (s : State) (src : Source) (dst : Reg) (wb : Width) :
    exec (.sub src dst wb) s = .next (s.sumResult dst wb (~~~s.sourceOperand src wb) 1#16) := rfl

theorem exec_subc (s : State) (src : Source) (dst : Reg) (wb : Width) :
    exec (.subc src dst wb) s = .next (s.sumResult dst wb (~~~s.sourceOperand src wb) (carryWord s.psw.c)) := rfl

/-- CMP takes SUB's status word and nothing else (R158). -/
theorem exec_cmp (s : State) (src : Source) (dst : Reg) (wb : Width) :
    exec (.cmp src dst wb) s = .next (s.setPsw (s.sumResult dst wb (~~~s.sourceOperand src wb) 1#16).psw) := by
  rw [State.sumResult, State.arithResult_eq]
  rfl

theorem carryWord_toNat (c : Bool) : (carryWord c).toNat = c.toNat := by
  cases c <;> rfl

section Sum

variable {s t : State} {dst : Reg} {wb : Width} {addend cin : Word}

/-- The destination gets the exact sum modulo the width (R153, R154). -/
theorem State.sumResult_reg {c : Nat} (hc : cin.toNat = c) :
    ((s.sumResult dst wb addend cin).reg dst).toNat =
      merged wb (s.reg dst) ((low wb (s.reg dst) + low wb addend + c) % modulus wb) := by
  rw [State.sumResult, State.arithResult_eq, State.setPsw_reg, State.writeDest_reg_toNat, low_masked,
    State.destOperand, low_sum, hc]

/-- The flags are those of the exact sum (R131, R137). -/
theorem State.sumResult_flags {c : Nat} (hc : cin.toNat = c) (hc1 : c ≤ 1)
    (ht : t.psw = (s.sumResult dst wb addend cin).psw) :
    FlagsOf t wb ((low wb (s.reg dst) + low wb addend + c) % modulus wb)
      (decide (modulus wb ≤ low wb (s.reg dst) + low wb addend + c))
      (signed wb (low wb (s.reg dst)) + signed wb (low wb addend) + c) := by
  have hd := low_lt wb (s.reg dst)
  have ha := low_lt wb addend
  rw [State.sumResult, State.arithResult_eq, State.setPsw_psw, Psw.arith, State.destOperand, masked_beq_zero,
    msbOf_masked, msbOf_masked, msbOf_masked, low_sum, hc, carryTable_sum ha hd hc1, overflowTable_sum ha hd hc1] at ht
  constructor <;> rw [ht]

end Sum

/-- Settles O7: both are the sum of D, S and a carry-in, 0 for ADD. -/
theorem addResults : Obligations.AddResults := by
  intro s src dst wb
  refine ⟨fun _ => ⟨_, exec_add .., ?_, ?_⟩, _, exec_addc .., ?_, ?_⟩
  · exact State.sumResult_reg (c := 0) rfl
  · simpa using State.sumResult_flags (c := 0) rfl (by decide) rfl
  · exact State.sumResult_reg (carryWord_toNat _)
  · exact State.sumResult_flags (carryWord_toNat _) (Bool.toNat_le _) rfl

section Difference

variable {s t : State} {src : Source} {dst : Reg} {wb : Width} {cin : Word} {b : Nat}

/-- With the complemented source and a carry-in that is 1 without a borrow-in `b`, the sum is the difference (R155,
R156). -/
theorem State.sumResult_not_reg (hb : cin.toNat = 1 - b) (hb1 : b ≤ 1) :
    ((s.sumResult dst wb (~~~s.sourceOperand src wb) cin).reg dst).toNat =
      merged wb (s.reg dst) ((low wb (s.reg dst) + modulus wb - low wb (s.sourceValue src) - b) % modulus wb) := by
  have ha := low_lt wb (s.sourceValue src)
  rw [State.sumResult_reg hb, State.sourceOperand, low_not]
  congr 2
  omega

/-- The flags of that sum are the difference's, C = 1 without a borrow (R136, R137). -/
theorem State.sumResult_not_flags (hb : cin.toNat = 1 - b) (hb1 : b ≤ 1)
    (ht : t.psw = (s.sumResult dst wb (~~~s.sourceOperand src wb) cin).psw) :
    FlagsOf t wb ((low wb (s.reg dst) + modulus wb - low wb (s.sourceValue src) - b) % modulus wb)
      (decide (low wb (s.sourceValue src) + b ≤ low wb (s.reg dst)))
      (signed wb (low wb (s.reg dst)) - signed wb (low wb (s.sourceValue src)) - b) := by
  have ha := low_lt wb (s.sourceValue src)
  have h := State.sumResult_flags hb (by omega) ht
  rw [State.sourceOperand, low_not, signed_complement ha] at h
  convert h using 2
  · omega
  · omega
  · omega

end Difference

/-- Settles O8: all three are the sum with the complemented source, and the borrow-in is 0 for SUB and CMP. -/
theorem subtractResults : Obligations.SubtractResults := by
  intro s src dst wb
  have hc : (carryWord s.psw.c).toNat = 1 - (1 - s.psw.c.toNat) := by
    cases s.psw.c <;> rfl
  refine ⟨⟨_, exec_sub .., ?_, ?_⟩, ⟨_, exec_subc .., ?_, ?_⟩, _, exec_cmp .., rfl, ?_⟩
  · simpa using State.sumResult_not_reg (b := 0) (cin := 1#16) rfl (by decide)
  · simpa using State.sumResult_not_flags (b := 0) (cin := 1#16) rfl (by decide) rfl
  · exact State.sumResult_not_reg hc (Nat.sub_le _ _)
  · exact State.sumResult_not_flags hc (Nat.sub_le _ _) rfl
  · simpa using State.sumResult_not_flags (b := 0) (cin := 1#16) rfl (by decide) (State.setPsw_psw ..)

/-- Settles O17: CMP's Z is equality, its C the unsigned order, and N = V the signed order. -/
theorem compareThenBranchTests : Obligations.CompareThenBranchTests := by
  intro s src dst wb
  obtain ⟨-, -, t, ht, -, hf⟩ := subtractResults s src dst wb
  refine ⟨t, ht, fun off => ⟨t.takeBranch off, rfl, ?_⟩⟩
  have hd := low_lt wb (s.reg dst)
  have ha := low_lt wb (s.sourceValue src)
  generalize low wb (s.reg dst) = d at *
  generalize low wb (s.sourceValue src) = a at *
  have hz : t.psw.z = decide (d = a) := by
    rw [hf.z, decide_eq_decide]
    cases wb with
    | word | byte =>
      rw [modulus] at *
      omega
  have hnv : (t.psw.n == t.psw.v) = decide (signed wb a ≤ signed wb d) := by
    rw [hf.n, hf.v, Bool.eq_iff_iff]
    simp only [beq_iff_eq, decide_eq_decide, decide_eq_true_eq]
    cases wb with
    | word | byte =>
      simp only [modulus, signed] at *
      omega
  simp only [exec, execBeq, execBne, execBc, execBnc, execBge, execBlt, bne, hz, hnv, hf.c, State.branchIf,
    decide_eq_true_eq, Bool.not_eq_true', decide_eq_false_iff_not, ite_not, and_self]

/-! Decimal sums (R152, R157). -/

/-- A digit is a nibble of the word. -/
theorem digit_eq_nibble (v : Word) (k : Nat) : digit v k = (v.extractLsb' (4 * k) 4).toNat := by
  rw [digit, BitVec.extractLsb'_toNat, Nat.shiftRight_eq_div_pow, Nat.pow_mul]

theorem widthBits_eq_four_mul (wb : Width) : widthBits wb = 4 * nibbles wb := by
  cases wb <;> rfl

/-- Two words that are one number of the mode have the same digits. -/
theorem digit_congr {wb : Width} {v w : Word} (h : low wb v = low wb w) {k : Nat} (hk : k < nibbles wb) :
    digit v k = digit w k := by
  rw [low_eq_low_iff, widthBits_eq_four_mul] at h
  rw [digit_eq_nibble, digit_eq_nibble, ← BitVec.toNat_eq]
  refine BitVec.eq_of_getLsbD_eq fun j hj => ?_
  simp only [BitVec.getLsbD_extractLsb', h (4 * k + j) (by omega)]

/-- One digit's sum and its carry out, as numbers (R152). -/
theorem bcdDigit_toNat (d s : BitVec 4) (c : Bool) :
    let sum := d.toNat + s.toNat + c.toNat
    (bcdDigit d s c).2 = decide (10 ≤ sum) ∧
      (bcdDigit d s c).1.toNat = if 10 ≤ sum then (sum - 10) % 16 else sum := by
  unfold bcdDigit
  dsimp only
  split
  · next h => simp [h]
  · next h =>
    have h16 : d.toNat + s.toNat + c.toNat < 16 := by omega
    simp [h, Nat.mod_eq_of_lt h16]

/-- The carry into nibble `k` of a decimal sum (R152). -/
def bcdCarry (src dst : Word) (cin : Bool) : Nat → Bool
  | 0 => cin
  | k + 1 => (bcdDigit (dst.extractLsb' (4 * k) 4) (src.extractLsb' (4 * k) 4) (bcdCarry src dst cin k)).2

/-- The bits of a chain of `n` nibbles from nibble `i` up: those of its digits, and none elsewhere. -/
theorem bcdChain_getLsbD (src dst : Word) (cin : Bool) {n i : Nat} (hn : i + n ≤ 4) (p : Nat) :
    (bcdChain n i src dst (bcdCarry src dst cin i)).1.getLsbD p =
      (decide (i ≤ p / 4 ∧ p / 4 < i + n) &&
        (bcdDigit (dst.extractLsb' (4 * (p / 4)) 4) (src.extractLsb' (4 * (p / 4)) 4)
          (bcdCarry src dst cin (p / 4))).1.getLsbD (p % 4)) := by
  induction n generalizing i with
  | zero =>
    have h : ¬(i ≤ p / 4 ∧ p / 4 < i + 0) := by omega
    simp only [h, decide_false, Bool.false_and]
    exact BitVec.getLsbD_zero
  | succ n ih =>
    have hrest := ih (i := i + 1) (by omega)
    rw [bcdCarry] at hrest
    rw [bcdChain, BitVec.getLsbD_or, hrest, BitVec.getLsbD_shiftLeft, BitVec.getLsbD_setWidth]
    rcases Nat.lt_trichotomy (p / 4) i with hp | rfl | hp
    · have hbelow : p < 4 * i := by omega
      have hout : ¬i ≤ p / 4 := by omega
      have hout' : ¬i + 1 ≤ p / 4 := by omega
      simp [hbelow, hout, hout']
    · have hpos : p - 4 * (p / 4) = p % 4 := by omega
      have hword : p < 16 := by omega
      have hnibble : ¬p < 4 * (p / 4) := by omega
      have hmod : p % 4 < 16 := by omega
      simp [hpos, hword, hnibble, hmod]
    · have habove : 4 ≤ p - 4 * i := by omega
      have hrange : i ≤ p / 4 ∧ p / 4 < i + (n + 1) ↔ i + 1 ≤ p / 4 ∧ p / 4 < i + 1 + n := by omega
      simp only [hrange, BitVec.getLsbD_of_ge _ _ habove, Bool.and_false, Bool.false_or]

/-- The bits of a decimal sum: those of its digits in the mode, and none above. -/
theorem bcdAdd_getLsbD (src dst : Word) (cin : Bool) (wb : Width) (p : Nat) :
    (bcdAdd src dst cin wb).1.getLsbD p =
      (decide (p < widthBits wb) &&
        (bcdDigit (dst.extractLsb' (4 * (p / 4)) 4) (src.extractLsb' (4 * (p / 4)) 4)
          (bcdCarry src dst cin (p / 4))).1.getLsbD (p % 4)) := by
  have hp : p < widthBits wb ↔ 0 ≤ p / 4 ∧ p / 4 < 0 + nibbles wb := by
    rw [widthBits_eq_four_mul]
    omega
  rw [decide_eq_decide.mpr hp]
  cases wb
  · exact bcdChain_getLsbD src dst cin (n := 4) (i := 0) (by decide) p
  · exact bcdChain_getLsbD src dst cin (n := 2) (i := 0) (by decide) p

/-- A decimal sum has no bit above the mode. -/
theorem bcdAdd_masked (src dst : Word) (cin : Bool) (wb : Width) :
    (bcdAdd src dst cin wb).1 &&& widthMask wb = (bcdAdd src dst cin wb).1 := by
  refine BitVec.eq_of_getLsbD_eq fun k _ => ?_
  rw [BitVec.getLsbD_and, widthMask_getLsbD, bcdAdd_getLsbD]
  cases decide (k < widthBits wb) <;> simp

/-- Each digit of a decimal sum and the carry out of it, as numbers (R152). -/
theorem bcdAdd_digit (src dst : Word) (cin : Bool) {wb : Width} {k : Nat} (hk : k < nibbles wb) :
    let sum := digit dst k + digit src k + (bcdCarry src dst cin k).toNat
    bcdCarry src dst cin (k + 1) = decide (10 ≤ sum) ∧
      digit (bcdAdd src dst cin wb).1 k = if 10 ≤ sum then (sum - 10) % 16 else sum := by
  have hnibble : (bcdAdd src dst cin wb).1.extractLsb' (4 * k) 4 =
      (bcdDigit (dst.extractLsb' (4 * k) 4) (src.extractLsb' (4 * k) 4) (bcdCarry src dst cin k)).1 := by
    refine BitVec.eq_of_getLsbD_eq fun j hj => ?_
    have hw := widthBits_eq_four_mul wb
    have hlt : 4 * k + j < widthBits wb := by omega
    have hdiv : (4 * k + j) / 4 = k := by omega
    have hmod : (4 * k + j) % 4 = j := by omega
    rw [BitVec.getLsbD_extractLsb', bcdAdd_getLsbD, hdiv, hmod]
    simp [hj, hlt]
  simp only [digit_eq_nibble, hnibble]
  exact bcdDigit_toNat ..

/-- The source operand holds the source value's bits of the mode. -/
@[simp] theorem State.sourceOperand_getLsbD (s : State) (src : Source) (wb : Width) (k : Nat) :
    (s.sourceOperand src wb).getLsbD k = ((s.sourceValue src).getLsbD k && decide (k < widthBits wb)) := by
  simp [State.sourceOperand]

/-- Settles O9: each masked operand and the written destination have the digits and top bit of their register, and the
truth tables are the formulas. -/
theorem daddDigitsAndFlags : Obligations.DaddDigitsAndFlags := by
  intro s src dst wb
  have htop := topBit_lt wb
  let carry := bcdCarry (s.sourceOperand src wb) (s.destOperand dst wb) s.psw.c
  refine ⟨_, rfl, ⟨carry, rfl, fun k hk => ?_⟩, ?_, ?_⟩
  · rw [State.arithResult_eq, State.setPsw_reg, digit_congr (State.low_writeDest_reg ..) hk,
      ← digit_congr (low_masked wb (s.reg dst)) hk, ← digit_congr (low_masked wb (s.sourceValue src)) hk]
    exact bcdAdd_digit _ _ _ hk
  · rw [State.arithResult_eq, State.setPsw_reg, State.high_writeDest_reg]
  · simp only [State.arithResult_eq, State.setPsw_reg, State.setPsw_psw, Psw.arith, State.low_writeDest_reg,
      State.writeDest_reg_getLsbD, if_pos htop, msbOf_eq_topBit, carryTable_eq, overflowTable_eq,
      State.sourceOperand_getLsbD, State.destOperand_getLsbD, decide_eq_true htop, Bool.and_true, and_true]
    rw [← masked_beq_zero, bcdAdd_masked]

/-- On decimal digits the digit-wise sum is again decimal, and with its carry out it is the sum of the numbers. -/
theorem decimal_add {x y z : Word} {carry : Nat → Bool} {n : Nat}
    (hdec : ∀ k < n, digit x k ≤ 9 ∧ digit y k ≤ 9)
    (hsum : ∀ k < n, let sum := digit x k + digit y k + (carry k).toNat
      carry (k + 1) = decide (10 ≤ sum) ∧ digit z k = if 10 ≤ sum then (sum - 10) % 16 else sum) :
    decimal z n < 10 ^ n ∧
      decimal z n + (carry n).toNat * 10 ^ n = decimal x n + decimal y n + (carry 0).toNat := by
  induction n with
  | zero => simp [decimal]
  | succ n ih =>
    have ⟨hlt, heq⟩ := ih (fun k hk => hdec k (by omega)) fun k hk => hsum k (by omega)
    have ⟨hx, hy⟩ := hdec n n.lt_succ_self
    have ⟨hc, hz⟩ := hsum n n.lt_succ_self
    have hcn := (carry n).toNat_le
    have hdigit : digit z n ≤ 9 ∧
        digit z n + 10 * (carry (n + 1)).toNat = digit x n + digit y n + (carry n).toNat := by
      rw [hc, hz]
      split
      · next h =>
        simp only [h, decide_true, Bool.toNat_true]
        omega
      · next h =>
        simp only [h, decide_false, Bool.toNat_false]
        omega
    simp only [decimal, Nat.pow_succ]
    constructor
    · have hle := Nat.mul_le_mul_right (10 ^ n) hdigit.1
      omega
    · linear_combination heq + 10 ^ n * hdigit.2

/-- Settles O10: the digits of O9, added up, with the last carry dropped. -/
theorem daddAddsDecimalNumbers : Obligations.DaddAddsDecimalNumbers := by
  intro s src dst wb hdec
  obtain ⟨t, ht, ⟨carry, hc0, hsum⟩, -⟩ := daddDigitsAndFlags s src dst wb
  have ⟨hlt, heq⟩ := decimal_add hdec hsum
  refine ⟨t, ht, ?_⟩
  rw [← hc0, ← heq, Nat.add_mul_mod_self_right, Nat.mod_eq_of_lt hlt]

/-! Logic and bit instructions (R151, R159 to R164). -/

/-- The bits of a logic result: those of `x` in the mode, the register's above (R150). -/
theorem State.logicResult_reg_getLsbD (s : State) (dst : Reg) (wb : Width) (x : Word) (k : Nat) :
    ((s.logicResult dst wb (x &&& widthMask wb)).reg dst).getLsbD k =
      if k < widthBits wb then x.getLsbD k else (s.reg dst).getLsbD k := by
  rw [State.logicResult_eq, State.setPsw_reg, State.writeDest_reg_getLsbD]
  split
  · next hk => simp [hk]
  · rfl

/-- Settles O11: below the width the result's bit is the operation on the operands' bits. -/
theorem bitwiseResults : Obligations.BitwiseResults := by
  intro s src dst wb
  have htop (k : Nat) : k ≤ topBit wb ↔ k < widthBits wb := by
    rw [← topBit_add_one, Nat.lt_succ_iff]
  refine ⟨⟨_, rfl, fun k => ?_⟩, ⟨_, rfl, fun k => ?_⟩, _, rfl, fun k => ?_⟩
  all_goals
    rw [State.logicResult_reg_getLsbD, if_congr (htop k) rfl rfl]
    split
    · next hk => simp [hk]
    · rfl

/-- Settles O12: the mask has the selected bit alone, which is a bit of the mode. -/
theorem bitInstructionResults : Obligations.BitInstructionResults := by
  intro s src dst wb h
  rw [bitInRange_iff] at h
  have hlt := selectedBit_lt wb (s.sourceValue src)
  simp only [exec, execBit, execBic, execBis, State.bitInstr_defined _ _ h]
  refine ⟨⟨_, rfl, rfl, ?_⟩, ⟨_, rfl, fun j => ?_⟩, _, rfl, fun j => ?_⟩
  · have ⟨hz, hn⟩ := State.logicFlags_bitMask (s := s) (src := src) (dst := dst) (wb := wb) rfl
    constructor
    · rw [Bool.eq_iff_iff, hz, Bool.not_eq_true']
    · rw [Bool.eq_iff_iff, hn, Bool.and_eq_true, decide_eq_true_iff, and_comm]
      exact and_congr_left fun hk => by rw [hk]
  · rw [State.logicResult_reg_getLsbD, BitVec.getLsbD_and, BitVec.getLsbD_not, bitMask_sourceOperand_getLsbD,
      State.destOperand_getLsbD]
    split
    · next hj => simp [hj, hj.trans_le (widthBits_le wb)]
    · next hj =>
      have hne : j ≠ selectedBit wb (s.sourceValue src) := by omega
      simp [hne]
  · rw [State.logicResult_reg_getLsbD, BitVec.getLsbD_or, bitMask_sourceOperand_getLsbD]
    split
    · next hj => simp [hj]
    · next hj =>
      have hne : j ≠ selectedBit wb (s.sourceValue src) := by omega
      simp [hne]

/-- Settles O13: with the bit number out of range ANY draws the masked result and REFUSE refuses. -/
theorem bitNumberOutOfRangeDrawsOrRefuses : Obligations.BitNumberOutOfRangeDrawsOrRefuses := by
  intro s src dst wb h
  rw [bitInRange_iff, not_lt] at h
  constructor
  · intro hany
    have hz := masked_beq_zero wb (Config.freeWord s.draws)
    have hn : msbOf wb (Config.freeWord s.draws &&& widthMask wb) = _ := msbOf_masked wb _
    constructor
    · simp only [exec, execBit, State.bitInstr_any _ _ hany h]
      exact ⟨_, rfl, rfl, rfl, hz, hn⟩
    · rintro i (rfl | rfl)
      all_goals
        simp only [exec, execBic, execBis, State.bitInstr_any _ _ hany h, State.logicResult_eq]
        refine ⟨_, rfl, ?_, ?_, hz, hn⟩
        · rw [State.setPsw_reg, State.writeDest_reg_toNat, State.draw_reg, low_masked]
          rfl
        · simp
  · rintro hr i (rfl | rfl | rfl)
    all_goals simp only [exec, execBit, execBic, execBis, State.bitInstr_refuse _ _ hr h]

end Sys2Proof.Machine
end

section
/-! PROOFS of the statements of 42_move_shift.md. MOV and SWAP (R191, R192) and the frame of the group (R190, R340) are
read off `wr` and `setReg`; SRA (R193) is half of the operand's number with the top bit kept; SWPB, SXT and the
immediate loads (R195 to R200) put a word together from its two bytes. -/

namespace Sys2Proof.Machine

open Sys2Proof.Statements

/-! MOV and SWAP (R191, R192). -/

/-- Settles O18: MOV is one `wr` of the source's masked word, SWAP two full writes. -/
theorem moveAndSwapResults : Obligations.MoveAndSwapResults := by
  intro s src dst wb
  refine ⟨⟨_, rfl, ?_, State.writeDest_psw ..⟩, _, rfl, ?_, ?_, rfl⟩
  · rw [State.writeDest_reg_toNat, low_masked]
  · rw [State.reg_setReg, State.reg_setReg, if_pos rfl]
    exact ite_eq_right_iff.mpr fun h => congrArg s.reg h
  · rw [State.reg_setReg, if_pos rfl]

/-! The frame of the group (R190, R134, R340). -/

/-- Settles O35: the frame of every EXEC1, and each form writes registers and the status word only. -/
theorem moveFrame : Obligations.MoveFrame := by
  intro i s t hi h
  refine ⟨exec_frame h, ?_⟩
  cases i with
  | mov | sra | rrc =>
    cases h
    simp
  | swap | swpb | sxt | movl | movlz | movls | movh | setcc | clrcc | nop =>
    cases h
    exact ⟨rfl, rfl, rfl, rfl⟩
  | _ => cases hi

/-! SRA (R193). -/

/-- The word SRA writes, as a number: half of the operand, and the top bit of the mode again where it was set. -/
theorem low_shiftRight_keepTop (wb : Width) (v : Word) :
    low wb ((v &&& widthMask wb) >>> 1 ||| (v &&& widthMask wb) &&& topMask wb) =
      low wb v / 2 + if modulus wb / 2 ≤ low wb v then modulus wb / 2 else 0 := by
  have htop : (low wb v).testBit (topBit wb) = decide (modulus wb / 2 ≤ low wb v) := by
    rw [← msbOf_masked, msbOf_eq_topBit, low_eq_masked, BitVec.testBit_toNat]
  have hmod : modulus wb = 2 * 2 ^ topBit wb := by
    cases wb <;> rfl
  have hmask : (topMask wb).toNat = 2 ^ topBit wb := by
    cases wb <;> rfl
  have hlt := low_lt wb v
  have hhalf : low wb v / 2 < 2 ^ topBit wb := by omega
  rw [low, BitVec.toNat_or, BitVec.toNat_ushiftRight, BitVec.toNat_and (v &&& widthMask wb), ← low_eq_masked, hmask,
    Nat.and_two_pow, htop, Nat.shiftRight_eq_div_pow, Nat.pow_one, Nat.or_comm, Nat.mul_comm,
    ← Nat.two_pow_add_eq_or_of_lt hhalf]
  split
  · next h =>
    rw [decide_eq_true h, Bool.toNat_true, Nat.mod_eq_of_lt] <;> omega
  · next h =>
    rw [decide_eq_false h, Bool.toNat_false, Nat.mod_eq_of_lt] <;> omega

/-- Half of a number of the mode, with its top bit set again where it was, is half of the signed number, rounded
down. -/
theorem signed_half_keepTop {wb : Width} {n : Nat} (h : n < modulus wb) :
    signed wb (n / 2 + if modulus wb / 2 ≤ n then modulus wb / 2 else 0) = signed wb n / 2 := by
  have heven : modulus wb % 2 = 0 := by
    cases wb <;> rfl
  rcases Nat.lt_or_ge n (modulus wb / 2) with hn | hn
  · rw [if_neg (Nat.not_le.mpr hn), signed, signed, if_pos hn, if_pos (by omega)]
    omega
  · rw [if_pos hn, signed, signed, if_neg (Nat.not_lt.mpr hn), if_neg (by omega)]
    omega

/-- Settles O19: `wr` keeps the high part, and the number written is half of the signed operand. -/
theorem sraHalvesSignedOperand : Obligations.SraHalvesSignedOperand := by
  intro s dst wb
  refine ⟨_, rfl, ?_, State.high_writeDest_reg .., State.writeDest_psw ..⟩
  rw [State.low_writeDest_reg, State.destOperand, low_shiftRight_keepTop, signed_half_keepTop (low_lt ..)]

/-! SWPB, SXT and the immediate loads (R195 to R200). -/

theorem lowByte_toNat (v : Word) : (v.extractLsb' 0 8).toNat = v.toNat % 256 := by
  rw [BitVec.extractLsb'_toNat, Nat.shiftRight_zero]

theorem highByte_toNat (v : Word) : (v.extractLsb' 8 8).toNat = v.toNat / 256 := by
  have := v.isLt
  rw [BitVec.extractLsb'_toNat, Nat.shiftRight_eq_div_pow]
  omega

/-- A byte under the high byte of a word (R197). -/
theorem mergeLowByte_eq (v : Word) (b : Byte) :
    v &&& 0xFF00#16 ||| b.zeroExtend 16 = wordOfBytes b (v.extractLsb' 8 8) := by
  ext i hi
  rw [wordOfBytes_getElem]
  simp only [BitVec.getElem_or, BitVec.getElem_and]
  interval_cases i <;> simp

/-- A byte above the low byte of a word (R200). -/
theorem mergeHighByte_eq (v : Word) (b : Byte) :
    b.zeroExtend 16 <<< 8 ||| v &&& 0x00FF#16 = wordOfBytes (v.extractLsb' 0 8) b := by
  ext i hi
  rw [wordOfBytes_getElem]
  simp only [BitVec.getElem_or, BitVec.getElem_and]
  interval_cases i <;> simp

/-- A byte as a two's-complement number (R196). -/
theorem signed_byte_toNat (b : Byte) : signed .byte b.toNat = b.toInt := by
  rw [BitVec.toInt_eq_toNat_cond, signed, modulus]
  split <;> split <;> omega

/-- Settles O21: every form but SXT writes a word of two bytes, SXT the sign-extended low byte. -/
theorem byteAndImmediateResults : Obligations.ByteAndImmediateResults := by
  intro s dst imm
  refine ⟨⟨_, rfl, ?swpb, rfl⟩, ⟨_, rfl, ?sxt, rfl⟩, ⟨_, rfl, ?movl, rfl⟩, ⟨_, rfl, ?movlz, rfl⟩,
    ⟨_, rfl, ?movls, rfl⟩, _, rfl, ?movh, rfl⟩
  all_goals rw [State.reg_setReg, if_pos rfl]
  case swpb =>
    rw [← highByte_toNat, ← lowByte_toNat]
    exact wordOfBytes_toNat ..
  case sxt => rw [BitVec.toInt_signExtend_of_le (by decide), ← signed_byte_toNat, lowByte_toNat]
  case movl => rw [mergeLowByte_eq, wordOfBytes_toNat, highByte_toNat]
  case movlz => exact BitVec.toNat_setWidth_of_le (by decide)
  case movls =>
    have h := congrArg BitVec.toNat (mergeLowByte_eq 0xFFFF#16 imm)
    rwa [wordOfBytes_toNat] at h
  case movh => rw [mergeHighByte_eq, wordOfBytes_toNat, lowByte_toNat]

end Sys2Proof.Machine
end

section
/-! PROOFS of the statements of 43_status_ops.md. SETCC and CLRCC (R220 to R222) write the status word alone, one flag per
mask bit; NOP (R223) has no effect; an UNRECOGNIZED word (R224) only retires and is reported. -/

namespace Sys2Proof.Machine

/-! SETCC and CLRCC (R220 to R222). -/

/-- A flag OR its mask bit is the flag set where selected (R221). -/
theorem or_maskBit (flag selected : Bool) : (flag || selected) = if selected then true else flag := by
  rw [Bool.if_true_left, Bool.decide_eq_true, Bool.or_comm]

/-- A flag AND NOT its mask bit is the flag cleared where selected (R222). -/
theorem and_not_maskBit (flag selected : Bool) : (flag && !selected) = if selected then false else flag := by
  rw [Bool.if_false_left, Bool.decide_eq_true, Bool.and_comm]

/-- Settles O22: both write the status word alone, each flag from its own mask bit, SLP of SETCC under the interlock. -/
theorem setAndClearFlagResults : Obligations.SetAndClearFlagResults := by
  intro s m
  have interlock : (s.psw.setMask m).slp = if m.getLsbD 3 then decide (s.psw.cpri ≠ 7#3) else s.psw.slp := by
    rw [Psw.setMask, bne, beq_eq_decide, decide_not]
  constructor
  · exact ⟨_, rfl, or_maskBit .., or_maskBit .., or_maskBit .., or_maskBit .., interlock, rfl, rfl, rfl⟩
  · exact ⟨_, rfl, and_not_maskBit .., and_not_maskBit .., and_not_maskBit .., and_not_maskBit .., and_not_maskBit ..,
      rfl, rfl, rfl⟩

/-! NOP and UNRECOGNIZED (R223, R224). -/

/-- RETIRE records the decoded instruction's address where it has one (R330). -/
@[simp] theorem State.retire_retired (s : State) : s.retire.retired = s.di.addr.or s.retired := by
  unfold State.retire
  split
  · next h => rw [h, Option.none_or]
  · next h => rw [h, Option.some_or]

/-- EXEC1 of an UNRECOGNIZED word only reports it (R224). -/
theorem State.exec1_unrecognized {s : State} {w a : Word} (h : s.di = .fetched (.unrecognized w) a) :
    s.exec1 = .next (s.signalUnrecognized w) := by
  rw [State.exec1, h, Di.op]

/-- Settles O23: an UNRECOGNIZED word's odd tick is FETCH2, the report and RETIRE, none of which writes a register, a
flag or memory. -/
theorem nopAndUnrecognizedAreInert : Obligations.NopAndUnrecognizedAreInert := by
  constructor
  · exact fun _ _ _ => rfl
  · intro s w a ho hb hd
    have hstep : step s = .next (s.beginTick.fetch2.signalUnrecognized w).retire.endTick :=
      step_odd ho hb (State.exec1_unrecognized hd)
    refine ⟨_, hstep, ?_⟩
    simp [hb, hd, Di.addr]

end Sys2Proof.Machine
end

section
/-! PROOFS of the statements of 44_branch.md. BL (R237) writes LR and takes its branch; every conditional branch (R239) is
the one template `branchIf`, taken on its predicate (R238). Both write PC and the bubble flags only (R235, R249). -/

namespace Sys2Proof.Machine

open Sys2Proof.Statements

/-! BL (R237). -/

/-- Settles O24: BL is a write of LR, then a taken branch, whose base is still the old PC's. -/
theorem branchWithLinkResult : Obligations.BranchWithLinkResult := by
  intro s off
  have hbase : (s.setReg .lr s.branchBase).branchBase = s.branchBase := by
    simp [State.branchBase]
  refine ⟨_, rfl, ?lr, ?pc, ?others, rfl⟩
  case lr => simp [State.branchBase]
  case pc => rw [State.takeBranch_reg, if_pos rfl, hbase, State.branchBase]
  case others =>
    intro r hlr hpc
    simp [hlr, hpc]

/-! The conditional branches (R238, R239). -/

/-- A conditional branch is the template of R239 with its predicate of R238. -/
theorem exec_condBranch {i : Instr} (s : State) (hb : isBranch i = true) (hbl : ∀ off, i ≠ .bl off) :
    exec i s = .next (s.branchIf (taken s.psw i) (branchOffset i)) := by
  cases i with
  | bl off => exact absurd rfl (hbl off)
  | beq | bne | bc | bnc | bn | bge | blt | bra => rfl
  | _ => cases hb

/-- Settles O25: a conditional branch is `branchIf` of its predicate, which takes the branch or keeps the state. -/
theorem conditionalBranchResults : Obligations.ConditionalBranchResults := by
  intro s i hb hbl
  rw [exec_condBranch s hb hbl]
  constructor
  · intro htaken
    rw [htaken]
    refine ⟨s.takeBranch (branchOffset i), rfl, ?_, fun r hr => ?_, rfl⟩
    · rw [State.takeBranch_reg, if_pos rfl, State.branchBase]
    · rw [State.takeBranch_reg, if_neg hr]
  · intro hnot
    rw [hnot]
    rfl

/-! The frame of the group (R235). -/

@[simp] theorem State.branchIf_mem2 (s : State) (taken : Bool) (off : Word) :
    (s.branchIf taken off).mem2 = s.mem2 := by
  cases taken <;> rfl

@[simp] theorem State.branchIf_draws (s : State) (taken : Bool) (off : Word) :
    (s.branchIf taken off).draws = s.draws := by
  cases taken <;> rfl

/-- Settles O36: the frame of every EXEC1, and neither form fills the pending transfer or draws a value. -/
theorem branchFrame : Obligations.BranchFrame := by
  intro i s t hb h
  refine ⟨exec_frame h, ?_⟩
  cases i with
  | bl =>
    cases h
    exact ⟨rfl, rfl⟩
  | beq | bne | bc | bnc | bn | bge | blt | bra =>
    cases h
    exact ⟨State.branchIf_mem2 .., State.branchIf_draws ..⟩
  | _ => cases hb

end Sys2Proof.Machine
end

section
/-! PROOFS of the statements of 45_load_store.md. EXEC1 of the four memory instructions is one equation each (R256 to
R264); from them the first phase of any load or word store. The second phases (R265, R266) are what EXEC2 leaves in the
next even tick; a load's two ticks put the phases together. -/

namespace Sys2Proof.Machine

open Sys2Proof.Statements

/-! EXEC1 of the memory instructions (R256 to R264). -/

/-- Outside its gap the step table gives the signed step (R256). -/
theorem stepTable_eq_signedStep (wb : Width) {dec inc : Bool} (h : ¬(dec = true ∧ inc = true)) :
    stepTable wb dec inc = some (BitVec.ofInt 16 (signedStep wb dec inc)) := by
  cases dec <;> cases inc
  case true.true => exact absurd ⟨rfl, rfl⟩ h
  all_goals cases wb <;> decide

/-- A step is 0 exactly without INC and DEC (R256). -/
theorem signedStep_eq_zero_iff (wb : Width) {dec inc : Bool} (h : ¬(dec = true ∧ inc = true)) :
    signedStep wb dec inc = 0 ↔ (dec || inc) = false := by
  cases dec <;> cases inc
  case true.true => exact absurd ⟨rfl, rfl⟩ h
  all_goals cases wb <;> decide

/-- As a word, a step is 0 only where it is 0 as a number (R256). -/
theorem ofInt_signedStep_eq_zero_iff (wb : Width) (dec inc : Bool) :
    BitVec.ofInt 16 (signedStep wb dec inc) = 0#16 ↔ signedStep wb dec inc = 0 := by
  cases wb <;> cases dec <;> cases inc <;> decide

/-- Post-mode defers a step other than 0 (R259). -/
theorem postAdjustment_signedStep (prpo : Bool) (r : Reg) (wb : Width) (dec inc : Bool) :
    postAdjustment prpo r (BitVec.ofInt 16 (signedStep wb dec inc)) =
      if prpo = false ∧ signedStep wb dec inc ≠ 0 then some (r, BitVec.ofInt 16 (signedStep wb dec inc)) else none := by
  cases prpo <;> simp [postAdjustment, ofInt_signedStep_eq_zero_iff]

/-- EXEC1 of LD with INC = DEC = 1 is refused (R256). -/
theorem exec_ld_refused (s : State) (prpo : Bool) (src dst : Reg) (wb : Width) :
    exec (.ld prpo true true src dst wb) s = .refused .incDecBothSet := rfl

/-- EXEC1 of ST with INC = DEC = 1 is refused (R256). -/
theorem exec_st_refused (s : State) (prpo : Bool) (src dst : Reg) (wb : Width) :
    exec (.st prpo true true src dst wb) s = .refused .incDecBothSet := rfl

/-- EXEC1 of every other LD (R257 to R259, R261). -/
theorem exec_ld (s : State) (prpo : Bool) {dec inc : Bool} (src dst : Reg) (wb : Width)
    (h : ¬(dec = true ∧ inc = true)) :
    exec (.ld prpo dec inc src dst wb) s =
      .next ((s.preAdjust prpo src (BitVec.ofInt 16 (signedStep wb dec inc))).setPending
        { ea := effectiveAddress s (.ld prpo dec inc src dst wb), wb := wb, kind := .load dst,
          post := postAdjustment prpo src (BitVec.ofInt 16 (signedStep wb dec inc)) }) := by
  simp only [exec, execLd, stepTable_eq_signedStep wb h]
  rfl

/-- EXEC1 of every other ST (R257 to R259, R262). -/
theorem exec_st (s : State) (prpo : Bool) {dec inc : Bool} (src dst : Reg) (wb : Width)
    (h : ¬(dec = true ∧ inc = true)) :
    exec (.st prpo dec inc src dst wb) s =
      .next ((s.preAdjust prpo dst (BitVec.ofInt 16 (signedStep wb dec inc))).setPending
        { ea := effectiveAddress s (.st prpo dec inc src dst wb), wb := wb, kind := .store (s.reg src),
          post := postAdjustment prpo dst (BitVec.ofInt 16 (signedStep wb dec inc)) }) := by
  simp only [exec, execSt, stepTable_eq_signedStep wb h]
  rfl

/-- Settles O26: the equations of LD and ST with the step table's entry as a number. -/
theorem indirectFirstPhase : Obligations.IndirectFirstPhase := by
  intro s prpo dec inc src dst wb
  refine ⟨?_, fun h => ⟨⟨_, exec_ld s prpo src dst wb h, ?_, ?_⟩, ⟨_, exec_st s prpo src dst wb h, ?_, ?_⟩⟩⟩
  · rintro ⟨rfl, rfl⟩
    exact ⟨exec_ld_refused .., exec_st_refused ..⟩
  · rw [State.setPending_mem2, postAdjustment_signedStep, effectiveAddress]
  · simp [plus]
  · rw [State.setPending_mem2, postAdjustment_signedStep, effectiveAddress]
  · simp [plus]

/-- Settles O27: sign-extending the offset and adding it as a number are one operation. -/
theorem relativeFirstPhase : Obligations.RelativeFirstPhase :=
  fun _ _ _ _ _ => ⟨rfl, rfl⟩

/-- EXEC1 of a memory instruction adjusts at most an address register and fills mem2 (R255, R258). -/
theorem exec_memory {i : Instr} {s t : State} (hi : isMemory i = true) (h : exec i s = .next t) :
    ∃ prpo r k p, t = (s.preAdjust prpo r k).setPending p := by
  cases i with
  | ld | st =>
    simp only [exec, execLd, execSt] at h
    split at h <;> cases h
    exact ⟨_, _, _, _, rfl⟩
  | ldr | str =>
    cases h
    exact ⟨false, .r0, 0#16, _, rfl⟩
  | _ => cases hi

/-- Settles O37: the frame of every EXEC1, and neither the adjustment nor the pending transfer touches a bubble or the
draws. -/
theorem memoryFirstPhaseFrame : Obligations.MemoryFirstPhaseFrame := by
  intro i s t hi h
  refine ⟨exec_frame h, ?_⟩
  obtain ⟨prpo, r, k, p, rfl⟩ := exec_memory hi h
  simp

/-! The second phases (R265 to R268, R323). -/

/-- A register after an even tick without a decode-bubble is EXEC2's: the decode writes none (R320). -/
theorem step_even_reg {s t : State} (he : s.clk % 2 = 0) (hb : s.dbub = false) (h : step s = .next t) (r : Reg) :
    t.reg r = s.beginTick.fetch1.exec2.reg r := by
  rw [step_even he hb] at h
  cases h
  simp

/-- The draws after an even tick without a decode-bubble are EXEC2's (R320). -/
theorem step_even_draws {s t : State} (he : s.clk % 2 = 0) (hb : s.dbub = false) (h : step s = .next t) :
    t.draws = s.beginTick.fetch1.exec2.draws := by
  rw [step_even he hb] at h
  cases h
  simp

/-- A written loaded value as a number: the word, or the byte below the old high byte (R55, R267). -/
theorem State.writeDest_memRead_toNat (s : State) (dst : Reg) (ea : Word) (wb : Width) :
    ((s.writeDest dst (s.memRead .data ea wb) wb).reg dst).toNat = loaded s.dmem ea wb (s.reg dst) := by
  rw [State.writeDest_toNat]
  cases wb with
  | word => exact s.dmem.readWidth_word_toNat ea
  | byte =>
    have hlt := (s.dmem.read ea.toNat).isLt
    have hread : (s.memRead .data ea .byte).toNat = (s.dmem.read ea.toNat).toNat := s.dmem.readWidth_byte_toNat ea
    simp only [loaded, hread, Nat.mod_eq_of_lt hlt]

/-- Settles O28: EXEC2 of a load over the registers FETCH1 left, by the three cases of the deferred adjustment. -/
theorem loadSecondPhase : Obligations.LoadSecondPhase := by
  intro s ea wb dst post he hb hm
  have hstep := step_even he hb
  have htick := step_even_tick he hb hstep
  have hf : s.beginTick.fetch1.mem2 = some ⟨ea, wb, .load dst, post⟩ := hm
  refine ⟨_, hstep, htick.mem2, htick.psw, htick.imem, ?_, ?_⟩
  · rw [step_even_dmem he hb hstep, State.exec2_dmem, hf]
    rfl
  · simp only [step_even_reg he hb hstep, step_even_draws he hb hstep, State.exec2_reg, State.exec2_draws, hf]
    have hload := State.writeDest_memRead_toNat s.beginTick.fetch1 dst ea wb
    have hother {r : Reg} (hr : r ≠ dst) := State.writeDest_reg_of_ne s.beginTick.fetch1 dst r
      (s.beginTick.fetch1.memRead .data ea wb) wb hr
    simp only [State.fetch1_reg, State.beginTick_reg] at hload hother
    rcases post with _ | ⟨r, k⟩
    · exact ⟨nofun, fun _ => ⟨hload, rfl⟩, nofun, fun q hq _ => hother hq⟩
    · by_cases hr : r = dst
      · subst hr
        refine ⟨fun _ _ => ?_, fun hne => absurd rfl (hne k), ?_, ?_⟩
        · simp
        · rintro _ _ ⟨⟩ hne
          exact absurd rfl hne
        · intro q hq _
          simp [hq]
      · have hd : dst ≠ r := Ne.symm hr
        refine ⟨?_, fun _ => ?_, ?_, ?_⟩
        · rintro _ ⟨⟩
          exact absurd rfl hr
        · simp [hr, hd, hload]
        · rintro _ _ ⟨⟩ _
          simp [hr]
        · intro q hq hne
          have hqr : q ≠ r := fun h => hne k (by rw [h])
          simp [hr, hqr, hother hq]

/-- Settles O29: EXEC2 of a store writes its bytes, and its adjustment is over the registers FETCH1 left. -/
theorem storeSecondPhase : Obligations.StoreSecondPhase := by
  intro s ea wb data post he hb hm hwf
  have hstep := step_even he hb
  have htick := step_even_tick he hb hstep
  have hf : s.beginTick.fetch1.mem2 = some ⟨ea, wb, .store data, post⟩ := hm
  refine ⟨_, hstep, htick.mem2, htick.psw, htick.imem, ?_, ?_, ?_⟩
  · rw [step_even_draws he hb hstep, State.exec2_draws, hf]
    rfl
  · rw [step_even_dmem he hb hstep, State.exec2_dmem, hf]
    exact Memory.read_writeWidth hwf ea wb data
  · simp only [step_even_reg he hb hstep, State.exec2_reg, hf]
    rcases post with _ | ⟨r, k⟩
    · exact ⟨nofun, fun q _ => State.fetch1_reg ..⟩
    · constructor
      · rintro _ _ ⟨⟩
        simp
      · intro q hne
        have hqr : q ≠ r := fun h => hne k (by rw [h])
        simp [hqr]

/-! Whole loads and stores (R265, R266, R343). -/

/-- The tick of a decoded instruction whose EXEC1 completes, as an equation (R320, R326). -/
theorem step_of_exec {s u : State} {i : Instr} {a : Word} (hx : Executes s i a)
    (h : exec i s.beginTick.fetch2 = .next u) : step s = .next u.retire.endTick := by
  refine step_odd hx.odd hx.no_bubble ?_
  rw [State.exec1, show s.beginTick.fetch2.di = .fetched (.instr i) a from hx.decoded]
  exact h

/-- The effective address depends on registers only (R257, R260). -/
theorem effectiveAddress_congr {s t : State} (h : ∀ r, t.reg r = s.reg r) (i : Instr) :
    effectiveAddress t i = effectiveAddress s i := by
  cases i <;> simp [effectiveAddress, h]

/-- LD defers an adjustment of its destination exactly in the form R268 names (R259). -/
theorem adjustsOwnDest_iff (prpo : Bool) {dec inc : Bool} (src dst : Reg) (wb : Width)
    (h : ¬(dec = true ∧ inc = true)) :
    adjustsOwnDest (.ld prpo dec inc src dst wb) = true ↔
      ∃ k, postAdjustment prpo src (BitVec.ofInt 16 (signedStep wb dec inc)) = some (dst, k) := by
  have hz := signedStep_eq_zero_iff wb h
  rw [postAdjustment_signedStep, adjustsOwnDest]
  cases prpo with
  | true => simp
  | false => cases hs : dec || inc <;> simp [hz, hs]

/-- The destination after the pre-adjustment of LD: the effective address where it is the address register (R258). -/
theorem State.preAdjust_dst (s : State) (prpo dec inc : Bool) (src dst : Reg) (wb : Width) :
    (s.preAdjust prpo src (BitVec.ofInt 16 (signedStep wb dec inc))).reg dst =
      if preAdjustsOwnDest (.ld prpo dec inc src dst wb) then effectiveAddress s (.ld prpo dec inc src dst wb)
      else s.reg dst := by
  cases prpo with
  | true =>
    by_cases h : src = dst
    · simp [preAdjustsOwnDest, effectiveAddress, plus, h]
    · simp [preAdjustsOwnDest, h, Ne.symm h]
  | false => simp [preAdjustsOwnDest]

/-- EXEC1 of a load with a meaning: the transfer it leaves, and its destination (R258, R261, R263). -/
theorem exec_load (s : State) {i : Instr} {dst : Reg} {wb : Width} (hl : loadDest i = some (dst, wb))
    (hb : bothSteps i = false) :
    ∃ t post, exec i s = .next t ∧ t.mem2 = some ⟨effectiveAddress s i, wb, .load dst, post⟩ ∧
      (adjustsOwnDest i = true ↔ ∃ k, post = some (dst, k)) ∧
      t.reg dst = if preAdjustsOwnDest i then effectiveAddress s i else s.reg dst := by
  cases i with
  | ld prpo dec inc src dst wb =>
    cases hl
    have hd : ¬(dec = true ∧ inc = true) := by simpa [bothSteps] using hb
    exact ⟨_, _, exec_ld s prpo src dst wb hd, rfl, adjustsOwnDest_iff prpo src dst wb hd, State.preAdjust_dst ..⟩
  | ldr off src dst wb =>
    cases hl
    exact ⟨_, none, rfl, rfl, by simp [adjustsOwnDest], rfl⟩
  | _ => cases hl

/-- EXEC1 of a word store that completes latches the data register before any adjustment (R262, R264). -/
theorem exec_wordStore {s t : State} {i : Instr} {src : Reg} (hi : wordStoreData i = some src)
    (h : exec i s = .next t) : ∃ post, t.mem2 = some ⟨effectiveAddress s i, .word, .store (s.reg src), post⟩ := by
  cases i with
  | st prpo dec inc src' dst wb =>
    by_cases hd : dec = true ∧ inc = true
    · obtain ⟨rfl, rfl⟩ := hd
      rw [exec_st_refused] at h
      cases h
    · rw [exec_st s prpo src' dst wb hd] at h
      cases h
      cases wb <;> cases hi
      exact ⟨_, rfl⟩
  | str off src' dst wb =>
    cases wb <;> cases hi
    cases h
    exact ⟨none, rfl⟩
  | _ => cases hi

/-- A load is a memory instruction. -/
theorem isMemory_of_loadDest {i : Instr} {d : Reg × Width} (h : loadDest i = some d) : isMemory i = true := by
  cases i with
  | ld | ldr => rfl
  | _ => cases h

/-- A word store is a memory instruction. -/
theorem isMemory_of_wordStoreData {i : Instr} {src : Reg} (h : wordStoreData i = some src) : isMemory i = true := by
  cases i with
  | st | str => rfl
  | _ => cases h

/-- A word load is a load. -/
theorem loadDest_of_wordLoadDest {i : Instr} {dst : Reg} (h : wordLoadDest i = some dst) :
    loadDest i = some (dst, .word) := by
  cases i with
  | ld _ _ _ _ _ wb | ldr _ _ _ wb =>
    cases wb <;> cases h
    rfl
  | _ => cases h

/-- The tick of a memory instruction leaves a boundary at which its second phase runs next, and draws nothing (R255). -/
theorem step_memory {s t : State} {i : Instr} {a : Word} (hdb : s.dbub = false) (hx : Executes s i a)
    (hi : isMemory i = true) (ht : step s = .next t) :
    t.clk % 2 = 0 ∧ t.dbub = false ∧ t.xbub = false ∧ t.draws = s.draws := by
  have hclk : t.clk = s.clk + 1 := (step_odd_tick hx.odd hx.no_bubble ht).clk
  obtain ⟨v, hv, rfl⟩ := step_executes hx ht
  obtain ⟨-, hvd, hvx, hvw⟩ := memoryFirstPhaseFrame i _ v hi hv
  have hodd := hx.odd
  exact ⟨by omega, by simpa [hdb] using hvd, by simpa [hx.no_bubble] using hvx, by simpa using hvw⟩

/-- A word store and the tick after it leave the data register's word at the effective address (R266). -/
theorem wordStore_two_ticks {s t u : State} {i : Instr} {a : Word} {src : Reg} (hdb : s.dbub = false)
    (hx : Executes s i a) (hi : wordStoreData i = some src) (ht : step s = .next t) (hu : step t = .next u) :
    u.dmem = s.dmem.writeWidth (effectiveAddress s i) .word (s.reg src) ∧ u.dbub = false := by
  obtain ⟨he, hb, -, -⟩ := step_memory hdb hx (isMemory_of_wordStoreData hi) ht
  have hmem : t.dmem = s.dmem := (step_odd_tick hx.odd hx.no_bubble ht).dmem
  obtain ⟨v, hv, rfl⟩ := step_executes hx ht
  obtain ⟨post, hp⟩ := exec_wordStore hi hv
  have hea : effectiveAddress s.beginTick.fetch2 i = effectiveAddress s i := effectiveAddress_congr (fun _ => rfl) i
  have hm : v.retire.endTick.beginTick.fetch1.mem2 =
      some ⟨effectiveAddress s i, .word, .store (s.reg src), post⟩ := by simpa [hea] using hp
  refine ⟨?_, (step_even_tick he hb hu).dbub⟩
  rw [step_even_dmem he hb hu, State.exec2_dmem, hm, ← hmem]
  rfl

/-- A load's two ticks, from a boundary without a decode-bubble (R261, R263, R265). -/
theorem load_two_ticks {s : State} {i : Instr} {a : Word} {dst : Reg} {wb : Width} (hdb : s.dbub = false)
    (hx : Executes s i a) (hl : loadDest i = some (dst, wb)) (hb : bothSteps i = false) :
    ∃ t u, step s = .next t ∧ step t = .next u ∧
      t.reg dst = (if preAdjustsOwnDest i then effectiveAddress s i else s.reg dst) ∧
      (adjustsOwnDest i = false → (u.reg dst).toNat =
        loaded s.dmem (effectiveAddress s i) wb (if dst = .pc then t.reg dst + 2#16 else t.reg dst)) ∧
      (adjustsOwnDest i = true → u.reg dst = Config.freeWord s.draws) ∧
      u.di = .fetched (decode (s.memRead .instruction s.imar .word)) s.imar ∧ u.clk % 2 = 1 ∧ u.xbub = false := by
  obtain ⟨v, post, hv, hm, hown, hdst⟩ := exec_load s.beginTick.fetch2 hl hb
  have hea : effectiveAddress s.beginTick.fetch2 i = effectiveAddress s i := effectiveAddress_congr (fun _ => rfl) i
  rw [hea] at hm hdst
  have ht := step_of_exec hx hv
  obtain ⟨he, hd, hxb, hdraws⟩ := step_memory hdb hx (isMemory_of_loadDest hl) ht
  have hodd := step_odd_tick hx.odd hx.no_bubble ht
  obtain ⟨u, hu, -, -, -, -, hfree, hload, -, -⟩ := loadSecondPhase _ _ wb dst post he hd (by simpa using hm)
  have heven := step_even_tick he hd hu
  refine ⟨_, u, ht, hu, by simpa using hdst, ?_, ?_, ?_, ?_, heven.xbub.trans hxb⟩
  · intro hno
    have hne : ∀ k, post ≠ some (dst, k) := fun k hk => by simp [hown.mpr ⟨k, hk⟩] at hno
    rw [(hload hne).1, hodd.dmem]
    by_cases hpc : dst = .pc <;> simp [hpc]
  · intro hyes
    obtain ⟨k, hk⟩ := hown.mp hyes
    rw [(hfree k hk).1, hdraws]
  · rw [heven.di, hodd.ir]
  · rw [heven.clk]
    omega

/-- Settles O30: the invariant clears the decode-bubble of an odd boundary. -/
theorem loadIsVisibleToNextInstruction : Obligations.LoadIsVisibleToNextInstruction :=
  fun _ _ _ _ _ hinv hx hl hb => load_two_ticks (hinv.pipeline.odd_dbub hx.odd) hx hl hb

/-- Settles O31: the load reads the word back that the store's two ticks left. -/
theorem storeThenLoadReturnsData : Obligations.StoreThenLoadReturnsData := by
  intro s t u i j a a' src dst hinv hxi hi ht hu hxj hj hb hsame
  obtain ⟨hdmem, hdb⟩ := wordStore_two_ticks (hinv.pipeline.odd_dbub hxi.odd) hxi hi ht hu
  obtain ⟨v, w, hv, hw, -, hload, hfree, -⟩ := load_two_ticks hdb hxj (loadDest_of_wordLoadDest hj) hb
  refine ⟨w, by simp [runTicks, hv, hw], ?_⟩
  cases hown : adjustsOwnDest j with
  | true => exact hfree hown
  | false =>
    apply BitVec.eq_of_toNat_eq
    calc (w.reg dst).toNat
        = (u.dmem.readWidth (effectiveAddress u j) .word).toNat := by
          rw [hload hown, Memory.readWidth_word_toNat]
          rfl
      _ = (s.reg src).toNat := by
          rw [hdmem, Memory.readWidth_writeWidth_word hinv.memory.dmem_wf hsame]

end Sys2Proof.Machine
end

section
/-! PROOFS of the statements of 60_exceptions.md. A tick that does not complete stops as its EXEC1 does (R320), and EXEC1
of what the decode latch holds is refused only where it is refused for a decoded instruction (R286, R289, R305). -/

namespace Sys2Proof.Machine

open Sys2Proof.Statements

/-- An injected NOP and an UNRECOGNIZED word run: EXEC1 is refused only where a decoded instruction is (R224, R326). -/
theorem exec1_refused {s : State} {q : Refusal} (h : s.exec1 = .refused q) :
    ∃ i a, s.di = .fetched (.instr i) a ∧ exec i s = .refused q := by
  unfold State.exec1 at h
  cases hd : s.di with
  | injectedNop => simp [hd, Di.op, exec, execNop] at h
  | fetched d a =>
    cases d with
    | instr i => exact ⟨i, a, rfl, by simpa only [hd, Di.op] using h⟩
    | unrecognized w => simp [hd, Di.op] at h

/-- A tick completes, or it has an EXEC1 and stops as that does (R320). -/
theorem step_next_or_eq_exec1 (s : State) :
    (∃ t, step s = .next t) ∨ (s.clk % 2 = 1 ∧ s.xbub = false ∧ step s = s.beginTick.fetch2.exec1) := by
  rcases Nat.mod_two_eq_zero_or_one s.clk with hc | hc
  · cases hb : s.dbub
    · exact .inl ⟨_, step_even hc hb⟩
    · exact .inl ⟨_, step_dbub hc hb⟩
  · cases hb : s.xbub
    · cases hu : s.beginTick.fetch2.exec1 with
      | next u => exact .inl ⟨_, step_odd hc hb hu⟩
      | fault f => exact absurd hu (exec1_ne_fault _ f)
      | refused q => exact .inr ⟨hc, rfl, step_odd_refused hc hb hu⟩
    · exact .inl ⟨_, step_xbub hc hb⟩

/-- No tick faults (R286, R289). -/
theorem step_ne_fault (s : State) (f : Fault) : step s ≠ .fault f := by
  intro h
  rcases step_next_or_eq_exec1 s with ⟨t, ht⟩ | ⟨-, -, hx⟩
  · simp [ht] at h
  · exact exec1_ne_fault _ f (hx.symm.trans h)

/-- A refused tick executes an instruction whose EXEC1 is refused after FETCH2 (R305, R320). -/
theorem step_refused {s : State} {q : Refusal} (h : step s = .refused q) :
    ∃ i a, Executes s i a ∧ exec i s.beginTick.fetch2 = .refused q := by
  rcases step_next_or_eq_exec1 s with ⟨t, ht⟩ | ⟨ho, hb, hx⟩
  · simp [ht] at h
  · obtain ⟨i, a, hd, hi⟩ := exec1_refused (hx.symm.trans h)
    exact ⟨i, a, ⟨ho, hb, hd⟩, hi⟩

/-- When EXEC1 refuses (R305, R151): `exec_refused` with the bit instruction and its bit number as the statements name
them. -/
theorem exec_refused_bitSource {i : Instr} {s : State} {q : Refusal} (h : exec i s = .refused q) :
    (q = .incDecBothSet ∧ ∃ p src dst wb, i = .ld p true true src dst wb ∨ i = .st p true true src dst wb) ∨
      (q = .bitNumberOutOfRange ∧ s.bitnumOor = .refuse ∧
        ∃ src wb, bitSource i = some (src, wb) ∧ ¬ bitInRange wb (s.sourceValue src)) := by
  refine (exec_refused h).imp_right fun ⟨hq, hoor, src, dst, wb, hi, hle⟩ => ⟨hq, hoor, src, wb, ?_, ?_⟩
  · rcases hi with rfl | rfl | rfl <;> rfl
  · rwa [bitInRange_iff, not_lt]

/-- Settles O52: no EXEC1 faults, and a refused tick is refused by its EXEC1. That sees the launch choice and the
registers the tick began with, since FETCH2 writes the fetch latch alone. -/
theorem ticksStopOnlyOnRefuse : Obligations.TicksStopOnlyOnRefuse := by
  refine fun s => ⟨step_ne_fault s, fun r h => ?_⟩
  obtain ⟨i, a, hx, hi⟩ := step_refused h
  have hstop := exec_refused_bitSource hi
  exact ⟨i, a, hx, hstop⟩

end Sys2Proof.Machine
end

section
/-! PROOFS of the statements of 70_reset_and_hazards.md. Each kind of tick is one equation, from which the bubbles
(R321, R327, R329), retirement (R330) and the pipeline's words follow: a word fetched by an odd tick is decoded by the
even one after it (`OddEvenTicks`), and an empty pipeline is filled from PC in three ticks (`State.refilled`), at reset
(R334) as after a taken branch (R342). The invariant (R333) is kept tick by tick. -/

namespace Sys2Proof.Machine

open Sys2Proof.Statements

/-! The invariant is kept (R333). -/

/-- The pipeline's invariant at an odd boundary. -/
theorem PipelineInv.of_odd {t : State} (ho : t.clk % 2 = 1) (hd : t.dbub = false) (hm : t.mem2 = none)
    (hx : t.xbub = true → t.ir = .bubble ∧ t.di = .injectedNop) : PipelineInv t where
  odd_dbub := fun _ => hd
  even_bubbles := fun he => by omega
  pending_even := fun h => absurd hm h
  odd_xbub := fun _ => hx

/-- The pipeline's invariant at an even boundary. -/
theorem PipelineInv.of_even {t : State} (he : t.clk % 2 = 0) (hb : t.dbub = t.xbub)
    (hm : t.mem2 ≠ none → t.dbub = false) : PipelineInv t where
  odd_dbub := fun ho => by omega
  even_bubbles := fun _ => hb
  pending_even := fun h => ⟨he, hm h⟩
  odd_xbub := fun ho => by omega

/-- Nothing is pending at an odd boundary (R333.3). -/
theorem PipelineInv.odd_mem2 {s : State} (h : PipelineInv s) (ho : s.clk % 2 = 1) : s.mem2 = none := by
  by_contra hm
  have := (h.pending_even hm).1
  omega

/-- Nothing is pending behind a decode-bubble (R333.3). -/
theorem PipelineInv.dbub_mem2 {s : State} (h : PipelineInv s) (hb : s.dbub = true) : s.mem2 = none := by
  by_contra hm
  simp [(h.pending_even hm).2] at hb

/-- Every tick keeps the pipeline's invariant (R333): the parity of the clock alternates, only EXEC1 sets the bubbles,
both at once, and only a tick whose EXEC1 sets none leaves a transfer. -/
theorem step_keeps_pipelineInv {s t : State} (hp : PipelineInv s) (h : step s = .next t) : PipelineInv t := by
  rcases step_cases h with ⟨he, hb, rfl⟩ | ⟨he, hb, -⟩ | ⟨ho, -, rfl⟩ | ⟨ho, hx, -⟩
  · exact .of_odd (Nat.succ_mod_two_eq_one_iff.mpr he) rfl (hp.dbub_mem2 hb) fun _ => ⟨rfl, rfl⟩
  · have ht := step_even_tick he hb h
    have hclk := ht.clk
    refine .of_odd (by omega) ht.dbub ht.mem2 fun hx => ?_
    rw [ht.xbub, ← hp.even_bubbles he, hb] at hx
    cases hx
  · exact .of_even (Nat.succ_mod_two_eq_zero_iff.mpr ho) (hp.odd_dbub ho) fun _ => hp.odd_dbub ho
  · have ht := step_odd_tick ho hx h
    have hclk := ht.clk
    have hd := hp.odd_dbub ho
    rcases ht.bubbles with ⟨htd, htx⟩ | ⟨htd, htx, hm⟩
    · exact .of_even (by omega) (by rw [htd, htx, hd, hx]) fun _ => htd.trans hd
    · exact .of_even (by omega) (htd.trans htx.symm) fun hne => absurd (hm.trans (hp.odd_mem2 ho)) hne

/-- EXEC2 keeps the data space canonical: its only write is a store's (R266). -/
theorem State.exec2_dmem_wf {s : State} (h : s.dmem.wf = true) : s.exec2.dmem.wf = true := by
  rw [State.exec2_dmem]
  split
  · exact Memory.wf_writeWidth h _ _ _
  · exact h

/-- Every tick keeps both memories canonical (R51, R52). -/
theorem step_keeps_memoryInv {s t : State} (hm : MemoryInv s) (h : step s = .next t) : MemoryInv t := by
  constructor
  · rw [(onlyPendingStoresWriteMemory s t h).1]
    exact hm.imem_wf
  · rcases step_cases h with ⟨-, -, rfl⟩ | ⟨he, hb, -⟩ | ⟨-, -, rfl⟩ | ⟨ho, hx, -⟩
    · exact hm.dmem_wf
    · rw [step_even_dmem he hb h]
      exact State.exec2_dmem_wf (s := s.beginTick.fetch1) hm.dmem_wf
    · exact hm.dmem_wf
    · rw [(step_odd_tick ho hx h).dmem]
      exact hm.dmem_wf

/-- Every tick keeps the decode latch from the decoder (R324): only an even tick writes it. -/
theorem step_keeps_decodedInv {s t : State} (hd : DecodedInv s) (h : step s = .next t) : DecodedInv t := by
  rcases step_cases h with ⟨-, -, rfl⟩ | ⟨he, hb, -⟩ | ⟨-, -, rfl⟩ | ⟨ho, hx, -⟩
  · exact nofun
  · intro d a hda
    rw [(step_even_tick he hb h).di] at hda
    cases hir : s.ir with
    | bubble => simp [hir] at hda
    | word w b =>
      simp only [hir, Di.fetched.injEq] at hda
      exact ⟨w, hda.1.symm⟩
  · exact hd
  · intro d a hda
    exact hd d a ((step_odd_tick ho hx h).di.symm.trans hda)

/-- Settles O51: each of the three parts of the invariant is kept by every tick. -/
theorem everyStepKeepsInvariant : Obligations.EveryStepKeepsInvariant := fun _ _ hinv h =>
  ⟨step_keeps_pipelineInv hinv.pipeline h, step_keeps_memoryInv hinv.memory h, step_keeps_decodedInv hinv.decoded h⟩

/-! The ticks as equations (R320 to R331). -/

/-- What DECODE puts in the decode latch (R324). -/
def Ir.decoding : Ir → Di
  | .bubble => .injectedNop
  | .word w a => .fetched (decode w) a

/-- DECODE writes the decode latch alone (R324). -/
theorem State.decodePhase_eq (s : State) : s.decodePhase = { s with di := s.ir.decoding } := by
  unfold State.decodePhase
  split
  · next h => rw [h, Ir.decoding]
  · next h => rw [h, Ir.decoding]

/-- The even tick without its transfer: FETCH1 and DECODE (R320). -/
def State.idleEvenTick (s : State) : State := s.beginTick.fetch1.decodePhase.endTick

/-- The odd tick without an instruction: FETCH2 (R320). -/
def State.idleOddTick (s : State) : State := s.beginTick.fetch2.endTick

/-- FETCH1 and DECODE, field by field (R322, R324). -/
theorem State.idleEvenTick_eq (s : State) :
    s.idleEvenTick = { s with
      regs := s.regs.set .pc (s.reg .pc + 2#16), imar := s.reg .pc, di := s.ir.decoding, clk := s.clk + 1,
      signal := none } := by
  rw [State.idleEvenTick, State.decodePhase_eq]
  rfl

/-- An even tick with nothing pending (R320, R323). -/
theorem step_even_idle {s : State} (he : s.clk % 2 = 0) (hb : s.dbub = false) (hm : s.mem2 = none) :
    step s = .next s.idleEvenTick := by
  rw [step_even he hb, State.exec2_none (by simpa using hm), State.idleEvenTick]

/-- Settles O40: the even tick's frame, with FETCH1's PC where no transfer writes it and its equation where none is
pending. -/
theorem evenTickFetchesAndDecodes : Obligations.EvenTickFetchesAndDecodes := by
  intro s he hb
  have hstep := step_even he hb
  have ht := step_even_tick he hb hstep
  refine ⟨_, hstep, ht.imar, ht.di, fun hp => ?_, fun hm => ⟨(ht.nothing_pending hm).2.2.2, ?_⟩⟩
  · rw [step_even_pc he hb hstep hp, BitVec.toNat_add]
    rfl
  · have hidle := Host.Outcome.next.inj (hstep.symm.trans (step_even_idle he hb hm))
    rw [hidle, State.idleEvenTick_eq]

/-- Settles O41: the equations of the DBUB-TICK and of the XBUB-TICK. -/
theorem bubbleTicksSuppressFetch : Obligations.BubbleTicksSuppressFetch :=
  ⟨fun _ he hb => step_dbub he hb, fun _ ho hb => step_xbub ho hb⟩

/-- RETIRE of a fetched word (R330). -/
theorem State.retire_of_fetched {s : State} {d : Decoded} {a : Word} (h : s.di = .fetched d a) :
    s.retire = { s with retired := some a, halted := s.halted || decide (s.bkpt = some a) } := by
  rw [State.retire, h]
  rfl

/-- RETIRE of the injected NOP does nothing (R330). -/
theorem State.retire_of_injectedNop {s : State} (h : s.di = .injectedNop) : s.retire = s := by
  rw [State.retire, h]
  rfl

/-- Settles O39: FETCH2, EXEC1 and RETIRE of the decoded instruction, whose address EXEC1 leaves in the decode latch. -/
theorem stepRunsDecodedInstruction : Obligations.StepRunsDecodedInstruction := by
  intro s i a hx f
  constructor
  · intro t ht
    have hdi : t.di = .fetched (.instr i) a := (exec_keeps ht).di.trans hx.decoded
    rw [step_of_exec hx ht, State.retire_of_fetched hdi]
    rfl
  · intro r hr
    refine step_odd_refused hx.odd hx.no_bubble ?_
    rw [State.exec1, show s.beginTick.fetch2.di = .fetched (.instr i) a from hx.decoded]
    exact hr

/-- An odd tick of the injected NOP (R223, R320). -/
theorem step_odd_idle {s : State} (ho : s.clk % 2 = 1) (hx : s.xbub = false) (hdi : s.di = .injectedNop) :
    step s = .next s.idleOddTick := by
  have hnop : s.beginTick.fetch2.exec1 = .next s.beginTick.fetch2 := by
    rw [State.exec1, show s.beginTick.fetch2.di = .injectedNop from hdi]
    rfl
  rw [step_odd ho hx hnop, State.retire_of_injectedNop (s := s.beginTick.fetch2) hdi, State.idleOddTick]

/-! Retirement (R330). -/

/-- Settles O43: EXEC1 leaves RETIRE the address, the breakpoint and both fields; no other tick runs RETIRE of a fetched
word. -/
theorem retireAndBreakpoint : Obligations.RetireAndBreakpoint := by
  intro s t h
  rcases step_cases h with ⟨he, -, rfl⟩ | ⟨he, hb, -⟩ | ⟨-, hx, rfl⟩ | ⟨ho, hx, u, hu, rfl⟩
  · exact ⟨fun _ _ ho => by omega, fun _ => ⟨rfl, rfl⟩⟩
  · have ht := step_even_tick he hb h
    exact ⟨fun _ _ ho => by omega, fun _ => ⟨ht.retired, ht.halted⟩⟩
  · exact ⟨fun _ _ _ hno => by simp [hx] at hno, fun _ => ⟨rfl, rfl⟩⟩
  · have hk := exec1_keeps hu
    have hudi : u.di = s.di := hk.di
    have hretired : u.retired = s.retired := hk.retired
    have hhalted : u.halted = s.halted := hk.halted
    have hbkpt : u.bkpt = s.bkpt := hk.bkpt
    constructor
    · intro d a _ _ hdi
      rw [State.retire_of_fetched (hudi.trans hdi)]
      simp [hhalted, hbkpt]
    · rintro (he | hb | hdi)
      · omega
      · simp [hx] at hb
      · rw [State.retire_of_injectedNop (hudi.trans hdi)]
        exact ⟨hretired, hhalted⟩

/-! What sets the bubbles (R329). -/

/-- Only a branch is taken. -/
theorem isBranch_of_taken {p : Psw} {i : Instr} (h : taken p i = true) : isBranch i = true := by
  cases i with
  | bl | beq | bne | bc | bnc | bn | bge | blt | bra => rfl
  | _ => cases h

/-- An instruction that is no branch is of one of the other four groups. -/
theorem group_of_not_branch {i : Instr} (h : isBranch i = false) :
    isArithmetic i = true ∨ isLogic i = true ∨ isMove i = true ∨ isMemory i = true := by
  cases i with
  | bl | beq | bne | bc | bnc | bn | bge | blt | bra => cases h
  | add | addc | sub | subc | dadd | cmp => exact .inl rfl
  | xor | and | or | bit | bic | bis => exact .inr (.inl rfl)
  | ld | st | ldr | str => exact .inr (.inr (.inr rfl))
  | _ => exact .inr (.inr (.inl rfl))

/-- EXEC1 of a taken branch: PC goes to its target and both bubbles are set (R237, R239, R249). -/
theorem exec_taken {i : Instr} {s : State} (h : taken s.psw i = true) :
    ∃ t, exec i s = .next t ∧ t.reg .pc = s.reg .pc - 2#16 + branchOffset i ∧
      t = { s with regs := t.regs, dbub := true, xbub := true } := by
  by_cases hbl : ∃ off, i = .bl off
  · obtain ⟨off, rfl⟩ := hbl
    obtain ⟨t, ht, -, hpc, -, heq⟩ := branchWithLinkResult s off
    exact ⟨t, ht, hpc, heq⟩
  · obtain ⟨t, ht, hpc, -, heq⟩ :=
      (conditionalBranchResults s i (isBranch_of_taken h) fun off ho => hbl ⟨off, ho⟩).1 h
    exact ⟨t, ht, hpc, heq⟩

/-- EXEC1 of anything but a taken branch keeps both bubble flags (R250, R329). -/
theorem exec_untaken_bubbles {i : Instr} {s t : State} (hn : taken s.psw i = false) (h : exec i s = .next t) :
    t.dbub = s.dbub ∧ t.xbub = s.xbub := by
  cases hb : isBranch i with
  | true =>
    have hbl : ∀ off, i ≠ .bl off := by
      rintro off rfl
      cases hn
    cases h.symm.trans ((conditionalBranchResults s i hb hbl).2 hn)
    exact ⟨rfl, rfl⟩
  | false =>
    rcases group_of_not_branch hb with hg | hg | hg | hg
    · obtain ⟨-, -, hd, hx, -⟩ := arithmeticFrame i s t hg h
      exact ⟨hd, hx⟩
    · obtain ⟨-, -, hd, hx, -⟩ := logicFrame i s t hg h
      exact ⟨hd, hx⟩
    · obtain ⟨-, -, hd, hx, -⟩ := moveFrame i s t hg h
      exact ⟨hd, hx⟩
    · obtain ⟨-, hd, hx, -⟩ := memoryFirstPhaseFrame i s t hg h
      exact ⟨hd, hx⟩

/-- A tick that executes no taken branch sets no bubble flag (R329). -/
theorem step_sets_no_bubble {s t : State} (h : step s = .next t)
    (hn : ∀ i a, Executes s i a → taken s.psw i = false) :
    (t.dbub = true → s.dbub = true) ∧ (t.xbub = true → s.xbub = true) := by
  rcases step_cases h with ⟨-, -, rfl⟩ | ⟨he, hb, -⟩ | ⟨-, -, rfl⟩ | ⟨ho, hx, u, hu, rfl⟩
  · exact ⟨nofun, id⟩
  · have ht := step_even_tick he hb h
    simp [ht.dbub, ht.xbub]
  · exact ⟨id, nofun⟩
  · have hkeep : u.dbub = s.dbub ∧ u.xbub = s.xbub := by
      rcases exec1_cases hu with ⟨-, rfl⟩ | ⟨i, a, hdi, hi⟩ | ⟨w, a, -, rfl⟩
      · exact ⟨rfl, rfl⟩
      · exact exec_untaken_bubbles (s := s.beginTick.fetch2) (hn i a ⟨ho, hx, hdi⟩) hi
      · exact ⟨rfl, rfl⟩
    simp [hkeep]

/-- The tick of a taken branch, up to the registers it leaves (R249, R330). -/
theorem step_taken {s : State} {i : Instr} {a : Word} (hx : Executes s i a) (h : taken s.psw i = true) :
    ∃ t, step s = .next t ∧ t.reg .pc = s.reg .pc - 2#16 + branchOffset i ∧
      (∀ r, r ∉ destRegs i → t.reg r = s.reg r) ∧
      t = { s with regs := t.regs, ir := .word (s.memRead .instruction s.imar .word) s.imar, dbub := true, xbub := true,
                   retired := some a, halted := s.halted || decide (s.bkpt = some a), clk := s.clk + 1,
                   signal := none } := by
  obtain ⟨e, hexec, hpc, heq⟩ := exec_taken (s := s.beginTick.fetch2) h
  refine ⟨_, (stepRunsDecodedInstruction s i a hx).1 e hexec, hpc, fun r hr => exec_keeps_reg hexec hr, ?_⟩
  rw [heq]
  rfl

/-- Settles O42: a tick without a taken branch sets neither flag, one with a taken branch both, and a bubble tick clears
its own. -/
theorem bubblesAreSetOnlyByTakenBranches : Obligations.BubblesAreSetOnlyByTakenBranches := by
  intro s t h
  refine ⟨fun hset => ?_, fun i a hx htaken => ?_, fun he hb => ?_, fun ho hx => ?_⟩
  · by_contra hnone
    have hn : ∀ i a, Executes s i a → taken s.psw i = false := by
      simpa using hnone
    obtain ⟨hd, hx⟩ := step_sets_no_bubble h hn
    rcases hset with ⟨ht, hs⟩ | ⟨ht, hs⟩
    · simp [hd ht] at hs
    · simp [hx ht] at hs
  · obtain ⟨t', ht', -, -, heq⟩ := step_taken hx htaken
    cases h.symm.trans ht'
    exact ⟨congrArg State.dbub heq, congrArg State.xbub heq⟩
  · cases h.symm.trans (step_dbub he hb)
    rfl
  · cases h.symm.trans (step_xbub ho hx)
    rfl

/-! From a fetch to its decode (R322, R324, R325). -/

/-- What an odd tick and the even tick after it leave, where the odd one took no branch: the word at imar decoded, and
FETCH1 of the PC between them. -/
structure OddEvenTicks (s t u : State) : Prop where
  imar : u.imar = t.reg .pc
  di : u.di = .fetched (decode (s.memRead .instruction s.imar .word)) s.imar
  imem : u.imem = s.imem
  odd : u.clk % 2 = 1
  xbub : u.xbub = false
  pc : (∀ p, t.mem2 = some p → p.kind ≠ .load .pc ∧ ∀ k, p.post ≠ some (.pc, k)) →
    u.reg .pc = t.reg .pc + 2#16

/-- An odd tick that takes no branch is followed by a tick that decodes the word it fetched (R324, R325). -/
theorem odd_even_ticks {s t : State} (ho : s.clk % 2 = 1) (hx : s.xbub = false) (ht : step s = .next t)
    (hd : t.dbub = false) : ∃ u, step t = .next u ∧ OddEvenTicks s t u := by
  have hodd := step_odd_tick ho hx ht
  have he : t.clk % 2 = 0 := by
    have := hodd.clk
    omega
  have htx : t.xbub = false := by
    rcases hodd.bubbles with ⟨-, h⟩ | ⟨h, -, -⟩
    · exact h.trans hx
    · simp [hd] at h
  have hu := step_even he hd
  have heven := step_even_tick he hd hu
  exact ⟨_, hu,
    { imar := heven.imar
      di := by rw [heven.di, hodd.ir]
      imem := heven.imem.trans hodd.imem
      odd := by
        have := heven.clk
        omega
      xbub := heven.xbub.trans htx
      pc := step_even_pc he hd hu }⟩

/-- Settles O44: FETCH1 latches PC, and the two ticks after it bring the word at imar to the decode latch. -/
theorem wordAtPcStandsDecodedAfterThreeTicks : Obligations.WordAtPcStandsDecodedAfterThreeTicks := by
  intro s t u v hinv he hb hst htu hd huv
  have ht := step_even_tick he hb hst
  have hclk := ht.clk
  have htx : t.xbub = false := ht.xbub.trans ((hinv.pipeline.even_bubbles he).symm.trans hb)
  obtain ⟨v', hv', htwo⟩ := odd_even_ticks (by omega) htx htu hd
  cases huv.symm.trans hv'
  refine ⟨?_, htwo.odd, htwo.xbub⟩
  rw [htwo.di, ht.imar, State.memRead_instruction ht.imem]

/-- Settles O48: the slot's word was fetched in the tick of the write, and its own two ticks fetch and decode the word
at the PC written. -/
theorem nonBranchPcWriteHasOneDelaySlot : Obligations.NonBranchPcWriteHasOneDelaySlot := by
  intro s t _ ho hx ht hd hp
  obtain ⟨u, hu, hslot⟩ := odd_even_ticks ho hx ht hd
  refine ⟨u, hu, hslot.imar, hslot.pc hp, hslot.di, fun v hv hvd => ?_⟩
  obtain ⟨w, hw, hnext⟩ := odd_even_ticks hslot.odd hslot.xbub hv hvd
  refine ⟨w, hw, ?_, hnext.odd, hnext.xbub⟩
  rw [hnext.di, hslot.imar, State.memRead_instruction hslot.imem]

/-- Settles O49: the even tick of the second phase fetches before it loads PC; the first slot's tick then leaves the
loaded PC as a write of PC does, so the second slot is its delay slot (O48). -/
theorem loadIntoPcHasTwoSlots : Obligations.LoadIntoPcHasTwoSlots := by
  intro s t ea wb post hinv he hm hst
  have hb : s.dbub = false := (hinv.pipeline.pending_even (by simp [hm])).2
  have ht := step_even_tick he hb hst
  obtain ⟨t', ht', -, -, -, -, hfree, hload, -, -⟩ := loadSecondPhase s ea wb .pc post he hb hm
  cases hst.symm.trans ht'
  refine ⟨ht.imar, ht.di, fun hne => (hload hne).1, fun k hk => (hfree k hk).1, fun u hu hd hpc hp => ?_⟩
  have hclk := ht.clk
  have htx : t.xbub = false := ht.xbub.trans ((hinv.pipeline.even_bubbles he).symm.trans hb)
  have hslot := nonBranchPcWriteHasOneDelaySlot t u (everyStepKeepsInvariant s t hinv hst) (by omega) htx hu hd hp
  rwa [hpc, ht.imar, State.memRead_instruction ht.imem, State.memRead_instruction ht.imem] at hslot

/-! An empty pipeline is filled in three ticks (R334, R342). -/

/-- A tick and the ticks after it. -/
theorem runTicks_of_step {s t : State} (h : step s = .next t) (n : Nat) : runTicks (n + 1) s = runTicks n t := by
  rw [runTicks, h]

/-- The state three ticks after an even boundary with an empty pipeline: the word at PC decoded, the one after it the
next to fetch. -/
def State.refilled (s : State) : State :=
  { s with
    regs := s.regs.set .pc (s.reg .pc + 2#16 + 2#16)
    imar := s.reg .pc + 2#16
    ir := .word (s.memRead .instruction (s.reg .pc) .word) (s.reg .pc)
    di := .fetched (decode (s.memRead .instruction (s.reg .pc) .word)) (s.reg .pc)
    clk := s.clk + 3
    signal := none }

/-- Two fetches advance PC by two words (R322). -/
theorem add_two_add_two (v : Word) : v + 2#16 + 2#16 = v + 4#16 := BitVec.add_assoc ..

theorem State.refilled_reg (s : State) (q : Reg) :
    s.refilled.reg q = if q = .pc then s.reg .pc + 4#16 else s.reg q := by
  rw [← add_two_add_two]
  exact State.reg_setReg s .pc q _

/-- FETCH1 and the empty decode, FETCH2 under the injected NOP, FETCH1 and the word's DECODE (R334). -/
theorem runTicks_of_empty {s : State} (he : s.clk % 2 = 0) (hd : s.dbub = false) (hx : s.xbub = false)
    (hm : s.mem2 = none) (hir : s.ir = .bubble) : runTicks 3 s = .next s.refilled := by
  have hdi : s.idleEvenTick.di = .injectedNop := by
    rw [State.idleEvenTick_eq, hir]
    rfl
  have hempty := step_even_idle he hd hm
  have hfetch : step s.idleEvenTick = .next s.idleEvenTick.idleOddTick :=
    step_odd_idle (by simp [State.idleEvenTick]; omega) (by simpa [State.idleEvenTick] using hx) hdi
  have hdecode : step s.idleEvenTick.idleOddTick = .next s.idleEvenTick.idleOddTick.idleEvenTick :=
    step_even_idle (by simp [State.idleOddTick, State.idleEvenTick]; omega)
      (by simpa [State.idleOddTick, State.idleEvenTick] using hd)
      (by simpa [State.idleOddTick, State.idleEvenTick] using hm)
  have hrefilled : s.idleEvenTick.idleOddTick.idleEvenTick = s.refilled := by
    rw [State.idleEvenTick_eq s.idleEvenTick.idleOddTick, State.idleOddTick, State.idleEvenTick_eq s]
    rfl
  rw [runTicks_of_step hempty, runTicks_of_step hfetch, runTicks_of_step hdecode, runTicks, hrefilled]

/-- A table word of 16 bits is the word. -/
theorem tableWord_toNat (w : Word) : tableWord 16 w.toNat = w := by
  rw [tableWord, Nat.mod_eq_of_lt w.isLt, BitVec.ofNat_toNat, BitVec.setWidth_eq]

/-- Settles O45: reset is an empty pipeline, and its fetch reads the word back that the host wrote. -/
theorem firstWordRunsInTickThree : Obligations.FirstWordRunsInTickThree := by
  intro p w s
  have hread : s.memRead .instruction (s.reg .pc) .word = w := Memory.readWidth_writeWidth_word rfl rfl w
  have hpc : s.reg .pc = p := rfl
  have hfilled : s.refilled = (State.reset.setReg .pc p).withFetchWord 16 w.toNat := by
    have hclk : (State.reset.setReg .pc p).clk = 0 := rfl
    rw [State.refilled, hread, State.withFetchWord, tableWord_toNat, hpc, add_two_add_two, State.withFirstWord, hclk]
    rfl
  refine ⟨?_, rfl, fun i hi => ?_⟩
  · rw [runTicks_of_empty rfl rfl rfl rfl rfl, hfilled]
  · exact State.withFetchWord_executes _ (by rwa [tableWord_toNat])

/-- The state two ticks after a boundary with both bubbles pending: an empty pipeline. -/
def State.drained (s : State) : State :=
  { s with ir := .bubble, di := .injectedNop, dbub := false, xbub := false, clk := s.clk + 2, signal := none }

/-- The DBUB-TICK and the XBUB-TICK, then the fill of the pipeline from PC (R342). -/
theorem runTicks_of_bubbles {s : State} (he : s.clk % 2 = 0) (hd : s.dbub = true) (hx : s.xbub = true)
    (hm : s.mem2 = none) : runTicks 5 s = .next s.drained.refilled := by
  have hodd : (s.clk + 1) % 2 = 1 := by omega
  have heven : (s.clk + 2) % 2 = 0 := by omega
  have hxbub : step s.beginTick.dbubTick.endTick = .next s.drained := step_xbub hodd hx
  have hfill : runTicks 3 s.drained = .next s.drained.refilled := runTicks_of_empty heven rfl rfl hm rfl
  rw [runTicks_of_step (step_dbub he hd), runTicks_of_step hxbub, hfill]

/-- Settles O47: the branch's own tick, then the bubbles and the fill, which write PC and the pipeline alone. -/
theorem takenBranchCostsSixTicks : Obligations.TakenBranchCostsSixTicks := by
  intro s i a hinv hx htaken target
  obtain ⟨t, ht, hpc, hregs, heq⟩ := step_taken hx htaken
  have hclk : t.clk = s.clk + 1 := congrArg State.clk heq
  have hmem : t.mem2 = none := (congrArg State.mem2 heq).trans (hinv.pipeline.odd_mem2 hx.odd)
  have hodd := hx.odd
  have hrun := runTicks_of_bubbles (by omega) (congrArg State.dbub heq) (congrArg State.xbub heq) hmem
  have himem : t.imem = s.imem := by rw [heq]
  have hpsw : t.psw = s.psw := by rw [heq]
  have hdmem : t.dmem = s.dmem := by rw [heq]
  have htarget : t.drained.reg .pc = target := hpc
  refine ⟨t.drained.refilled, (runTicks_of_step ht 5).trans hrun, ?clk, rfl, ?di, ?pc, ?regs, hpsw, hdmem, hmem,
    congrArg State.retired heq⟩
  case clk => exact congrArg (· + 5) hclk
  case di =>
    rw [← htarget, ← State.memRead_instruction (t := t.drained) himem]
    rfl
  case pc => rw [State.refilled_reg, if_pos rfl, htarget]
  case regs =>
    intro r hr hdest
    rw [State.refilled_reg, if_neg hr]
    exact hregs r hdest

/-! The host's accessors (R288, R349). -/

/-- No register has an index of 8 or more (R349). -/
theorem regOfIndex_of_le {i : Nat} (h : 8 ≤ i) : regOfIndex i = none := if_neg (Nat.not_lt.mpr h)

/-- An index below 8 is a register's three bits (R349). -/
theorem regOfIndex_of_lt {i : Nat} (h : i < 8) : regOfIndex i = some (Reg.ofBits (BitVec.ofNat 3 i)) := if_pos h

/-- Two indices do not name one register. -/
theorem ofBits_index_ne {i j : Nat} (hi : i < 8) (hj : j < 8) (hne : j ≠ i) :
    Reg.ofBits (BitVec.ofNat 3 j) ≠ Reg.ofBits (BitVec.ofNat 3 i) := by
  intro h
  have hbits := congrArg Reg.toBits h
  rw [Reg.toBits_ofBits, Reg.toBits_ofBits] at hbits
  have hnat := congrArg BitVec.toNat hbits
  rw [BitVec.toNat_ofNat, BitVec.toNat_ofNat, Nat.mod_eq_of_lt hi, Nat.mod_eq_of_lt hj] at hnat
  exact hne hnat

/-- Settles O56: an index below 8 names its own register, and a write in range is read back by the laws of registers and
of memory. -/
theorem hostAccessors : Obligations.HostAccessors := by
  intro s
  refine ⟨fun i v h => ?noReg, fun i v h => ?reg, fun sp a b h => ?noMem, fun sp a b hm h => ?mem, fun a h => ?noBkpt,
    fun a h => ?bkpt, rfl, rfl⟩
  case noReg => simp [State.readReg, State.writeReg, regOfIndex_of_le h]
  case reg =>
    refine ⟨s.setReg (Reg.ofBits (BitVec.ofNat 3 i)) v, ?_, ?_, fun j hne => ?_, rfl⟩
    · rw [State.writeReg, regOfIndex_of_lt h]
    · simp [State.readReg, regOfIndex_of_lt h]
    · by_cases hj : j < 8
      · simp [State.readReg, regOfIndex_of_lt hj, ofBits_index_ne h hj hne]
      · simp [State.readReg, regOfIndex_of_le (Nat.not_lt.mp hj)]
  case noMem =>
    rcases h with h | rfl
    · cases sp <;> simp [State.readMem, State.writeMem, Nat.not_lt.mpr h]
    · exact ⟨rfl, rfl⟩
  case mem =>
    have hwf : (s.space sp).wf = true := by
      cases sp
      · exact hm.imem_wf
      · exact hm.dmem_wf
    refine ⟨s.setSpace sp ((s.space sp).write a b), ?_, ?_, fun sp' a' hne => ?_, ?_⟩
    · rw [State.writeMem, if_pos h]
    · simp [State.readMem, h, Memory.read_write hwf]
    · by_cases hsp : sp' = sp
      · subst hsp
        have ha : a' ≠ a := by simpa using hne
        simp [State.readMem, Memory.read_write hwf, ha]
      · simp [State.readMem, hsp]
    · cases sp
      · exact ⟨Memory.wf_write hwf h, hm.dmem_wf⟩
      · exact ⟨hm.imem_wf, Memory.wf_write hwf h⟩
  case noBkpt => exact if_neg (Nat.not_lt.mpr h)
  case bkpt => exact ⟨_, if_pos h, rfl, rfl⟩

end Sys2Proof.Machine
end
